-- ==== Sys2Proof/Word.lean ====
section
/-!
DEFINITION. The word types of the block (00_scope.md R8, R10): nothing here is signed.
-/

namespace Sys2Proof

/-- A 32-bit word: a command, a register, a word of CODEBUF (W = 32, R8). -/
abbrev Word := BitVec 32

/-- A symbol: one byte of INBUF or OUTBUF. -/
abbrev Byte := BitVec 8

/-- A tree index, or NONE (10_state.md R40). -/
abbrev Index := BitVec 8

/-- A set of domain indices: bit i is set when index i is in the set (10_state.md R40). -/
abbrev SymbolSet := BitVec 95

end Sys2Proof
end

