-- ==== Sys2Proof/Config.lean ====
section
/-!
DEFINITION. What an instance fixes (00_scope.md R7, R8) and the values the spec leaves free
(93_implementation_defined.md S1, S2).
-/

namespace Sys2Proof

/-- The instance parameters N and CODE_WORDS and the platform parameter BASE (00_scope.md R7). -/
structure Params where
  inputLen : Nat
  codeWords : Nat
  base : Nat
  deriving DecidableEq, Repr

namespace Config

/-- DOMAIN_SIZE and HEAP_CAP (R8). -/
abbrev domainSize : Nat := 95

/-- TREE_CAP = 2·DOMAIN_SIZE − 1 (R8). -/
abbrev treeCap : Nat := 189

/-- FIRST_SYM, space (R8). -/
abbrev firstSym : Nat := 0x20

/-- LAST_SYM, tilde (R8). -/
abbrev lastSym : Nat := 0x7E

/-- W, bits per code word (R8). -/
abbrev wordBits : Nat := 32

/-- NONE: "no child" and "not yet inserted" (R8). -/
abbrev none : Index := 0xFF#8

/-- UNUSED_W: the weight of an unused slot (R8). -/
abbrev unusedWeight : Word := 0xFFFFFFFF#32

/-- The window is 0x200000 bytes (20_memory.md R60). -/
abbrev windowBytes : Nat := 0x200000

/-- Register ID (10_state.md R30). -/
abbrev idValue : Word := 0x48554631#32

/-- Register CFG_DOM (10_state.md R30). -/
abbrev domValue : Word := 0x7E20205F#32

/-- L_MAX(N), a bound on every code length (00_scope.md R8). -/
def maxCodeLen (n : Nat) : Nat := max 1 (min 94 (n - 1))

/-- CODE_WORDS_MIN(N) = ceil(N · L_MAX(N) / 32) (00_scope.md R8). -/
def minCodeWords (n : Nat) : Nat := (n * maxCodeLen n + 31) / 32

/-- The instance State.reset stands for: N = 4, CODE_WORDS = 1, the instance of program P1
(95_test_vectors.md), at BASE = 0. DESIGN CHOICE (log entry 1, unsafe): the spec takes the three as
arguments; statements quantify over all states, so over all instances. -/
def chosen : Params := { inputLen := 4, codeWords := 1, base := 0 }

/-- FREE VALUE: the byte INBUF position k holds after power-on, before the host writes it
(10_state.md R45: "a model treats each byte as a draw"). No body: nothing can be proved of it
(log entry 2, safe). -/
opaque inbufDraw : Nat → Byte

/-- FREE VALUE: what the j-th read of an unspecified value during BUSY returns (20_memory.md R71).
No body (log entry 6, safe). -/
opaque busyDraw : Nat → Word

end Config

end Sys2Proof
end

