-- ==== Sys2Proof/Syntax.lean ====
section
/-!
DEFINITION. The commands of command set HCC-CMD v1 (30_encoding.md R92). No command has an operand field (R91).
-/

namespace Sys2Proof

/-- The ten commands of the opcode map (R92), one constructor per row. -/
inductive Instr where
  /-- 0x00, 45_control.md R201. -/
  | nop
  /-- 0x01, 45_control.md R202. -/
  | init
  /-- 0x02, 40_count.md R110. -/
  | count
  /-- 0x03, 41_heap.md R128. -/
  | heapify
  /-- 0x04, 42_tree.md R144. -/
  | merge
  /-- 0x05, 42_tree.md R145. -/
  | build
  /-- 0x06, 43_encode.md R160. -/
  | encode
  /-- 0x07, 44_decode.md R180. -/
  | decode
  /-- 0x08, 44_decode.md R190. -/
  | verify
  /-- 0x09, 45_control.md R203. -/
  | run
  deriving DecidableEq, Repr

end Sys2Proof
end

