-- ==== Sys2Proof/WellFormed.lean ====
section
/-!
DEFINITION. What well-formed means: of a command word (30_encoding.md R90, R93), of an instance's
parameters (00_scope.md R7), of a command as syntax (R91: no operand fields, so nothing can be wrong).
-/

namespace Sys2Proof

/-- The field `op` of a command word, bits 7:0 (R90). -/
def opField (c : Word) : BitVec 8 := c.extractLsb' 0 8

/-- The field `rsv` of a command word, bits 31:8 (R90). -/
def rsvField (c : Word) : BitVec 24 := c.extractLsb' 8 24

/-- `rsv` "must be 0" (R90). -/
def reservedClear (c : Word) : Bool := rsvField c == 0#24

/-- The opcode is one of the map's, `op ≤ 0x09` (R92, R93). -/
def opcodeAssigned (c : Word) : Bool := decide (opField c ≤ 0x09#8)

/-- A command word is legal when both checks hold (R93). -/
def legalWord (c : Word) : Bool := reservedClear c && opcodeAssigned c

/-- A command as syntax has no operand that could be ill formed (R91). -/
def Instr.wellFormed : Instr → Bool
  | .nop | .init | .count | .heapify | .merge | .build | .encode | .decode | .verify | .run => true

/-- 1 ≤ N ≤ 65536 (00_scope.md R7). -/
def Params.inputLenOk (p : Params) : Bool := decide (1 ≤ p.inputLen) && decide (p.inputLen ≤ 65536)

/-- 1 ≤ CODE_WORDS ≤ 262144 (00_scope.md R7). -/
def Params.codeWordsOk (p : Params) : Bool := decide (1 ≤ p.codeWords) && decide (p.codeWords ≤ 262144)

/-- BASE is a multiple of 0x200000 (20_memory.md R60). -/
def Params.baseOk (p : Params) : Bool := p.base % Config.windowBytes == 0

/-- The parameters of a legal instance (00_scope.md R7). An instance with CODE_WORDS below
CODE_WORDS_MIN(N) is legal (R9). -/
def Params.legal (p : Params) : Bool := p.inputLenOk && p.codeWordsOk && p.baseOk

end Sys2Proof
end

