-- ==== Sys2Proof/Decode.lean ====
section
/-!
DEFINITION. Decoding a command word and encoding a command (30_encoding.md R90 to R95).
-/

namespace Sys2Proof

/-- Why a command word is illegal (R94). -/
inductive Reject where
  /-- Some bit of [31:8] is 1. -/
  | reservedBits
  /-- Bits [31:8] are 0 and the opcode is 0x0A..0xFF. -/
  | unassignedOpcode
  deriving DecidableEq, Repr

/-- What decoding answers (R93: total, every 32-bit word is either legal or illegal). -/
inductive Decoded where
  | legal (i : Instr)
  | illegal (why : Reject)
  deriving DecidableEq, Repr

/-- The opcode map read from opcode to command (R92). -/
def commandOf (op : BitVec 8) : Option Instr :=
  match op.toNat with
  | 0x00 => some .nop
  | 0x01 => some .init
  | 0x02 => some .count
  | 0x03 => some .heapify
  | 0x04 => some .merge
  | 0x05 => some .build
  | 0x06 => some .encode
  | 0x07 => some .decode
  | 0x08 => some .verify
  | 0x09 => some .run
  | _ => none

/-- R93: `if c[31:8] = 0 and c[7:0] <= 0x09 then Legal(op_table[c[7:0]]) else Illegal`. -/
def decodeWord (c : Word) : Decoded :=
  if rsvField c = 0#24 then
    match commandOf (opField c) with
    | some i => .legal i
    | none => .illegal .unassignedOpcode
  else .illegal .reservedBits

/-- The opcode of a command (R92). -/
def opcode : Instr → BitVec 8
  | .nop => 0x00#8
  | .init => 0x01#8
  | .count => 0x02#8
  | .heapify => 0x03#8
  | .merge => 0x04#8
  | .build => 0x05#8
  | .encode => 0x06#8
  | .decode => 0x07#8
  | .verify => 0x08#8
  | .run => 0x09#8

/-- The command word of a command: the opcode in [7:0], 0 in [31:8] (R90, R92). -/
def encodeWord (i : Instr) : Word := (opcode i).setWidth 32

/-- The word CMD receives for an instruction given as `nbits` bits `w` of opcode_table.json; a command
is one 32-bit word (R90), so the bits above `nbits` and up to 32 are 0. -/
def commandWord (nbits w : Nat) : Word := BitVec.ofNat 32 (w % 2 ^ nbits)

/-- The instruction the decoder reads from a row of the opcode table. -/
def decodeTableWord (nbits w : Nat) : Option Instr :=
  match decodeWord (commandWord nbits w) with
  | .legal i => some i
  | .illegal _ => none

end Sys2Proof
end

