-- ==== Sys2Proof/Machine/State.lean ====
section
/-!
DEFINITION. The state of the block (10_state.md R20 to R51), the outside's events, the reasons a step
can stop, and the state right after reset.
-/

namespace Sys2Proof.Machine

/-- PHASE (10_state.md R26). The values 8..15 are never produced and have no constructor. -/
inductive Phase where
  | idle
  | counted
  | heaped
  | built
  | encoded
  | decoded
  | done
  | error
  deriving DecidableEq, Repr

/-- ERR_CODE (60_exceptions.md R221). The values 9..15 are never produced and have no constructor. -/
inductive ErrCode where
  | noError
  | domain
  | capacity
  | decodeCorrupt
  | treeCorrupt
  | symbolAbsent
  | mismatch
  | sequence
  | illegalCmd
  deriving DecidableEq, Repr

/-- A node record, "used uniformly as both a heap element and a tree node" (10_state.md R40). -/
structure Node where
  symbolSet : SymbolSet
  weight : Word
  left : Index
  right : Index
  insertedAt : Index
  deriving DecidableEq, Repr

/-- The unused-slot record (10_state.md R41). -/
def unusedNode : Node :=
  { symbolSet := 0#95, weight := Config.unusedWeight, left := Config.none, right := Config.none,
    insertedAt := Config.none }

/-- HIST (10_state.md R42). -/
abbrev Hist := Vector Word Config.domainSize

/-- HEAP and HEAP_SIZE (10_state.md R32, R43). -/
structure Heap where
  slots : Vector Node Config.domainSize
  size : BitVec 7
  deriving DecidableEq, Repr

/-- TREE and TREE_SIZE (10_state.md R33, R44). -/
structure Tree where
  slots : Vector Node Config.treeCap
  size : BitVec 8
  deriving DecidableEq, Repr

/-- HIST with every counter 0 (R51). -/
def zeroHist : Hist := Vector.replicate Config.domainSize 0#32

/-- HEAP with every slot unused and HEAP_SIZE = 0 (R51). -/
def emptyHeap : Heap := { slots := Vector.replicate Config.domainSize unusedNode, size := 0#7 }

/-- TREE with every slot unused and TREE_SIZE = 0 (R51). -/
def emptyTree : Tree := { slots := Vector.replicate Config.treeCap unusedNode, size := 0#8 }

/-- CODEBUF and BITLEN (10_state.md R35, R47). -/
structure CodeStream where
  words : List Word
  bitlen : Word
  deriving DecidableEq, Repr

/-- OUTBUF and DEC_COUNT (10_state.md R36, R46). -/
structure Output where
  bytes : List Byte
  count : BitVec 17
  deriving DecidableEq, Repr

/-- One bus transaction of the host: a write of `data` or a read, of `bytes` bytes at byte address
`addr` of the host's address space (20_memory.md R60, R69). A read ignores `data`. -/
structure Access where
  write : Bool
  addr : Nat
  bytes : Nat
  data : Word
  deriving DecidableEq, Repr

/-- What happens next in the outside's order (45_control.md R205, 70_reset_and_hazards.md R250). -/
inductive Event where
  /-- The host performs one bus transaction. -/
  | access (a : Access)
  /-- The host waits and the block has the turn. -/
  | block
  /-- rst_n is driven low. -/
  | resetLow
  /-- rst_n is driven high. -/
  | resetHigh
  deriving DecidableEq, Repr

/-- The whole state (10_state.md R20: "The block's state is exactly ..."), the level of rst_n, and the
model's own record of the outside (`events`, `readData`, `draws`; log entries 4, 5, 6). The constant
registers ID and CFG_DOM are Config.idValue and Config.domValue; CFG_N and CFG_CW are the numbers of
elements of INBUF and CODEBUF (R30). -/
structure State where
  /-- BASE, the window's byte address (00_scope.md R7). -/
  base : Nat
  /-- The level of rst_n: true is high (70_reset_and_hazards.md R250). -/
  rstN : Bool
  /-- PENDING and its valid bit: none when invalid (R22). -/
  pending : Option Word
  /-- STATUS.BUSY (R24). -/
  busy : Bool
  /-- STATUS.OVERRUN (R25). -/
  overrun : Bool
  /-- STATUS.PHASE (R26). -/
  phase : Phase
  /-- STATUS.ERR_CODE (R23, R29). -/
  errCode : ErrCode
  /-- STATUS.ERR_OP (R23, R29). -/
  errOp : BitVec 8
  /-- ERR_INFO (R28). -/
  errInfo : Word
  /-- DISTINCT (R31). -/
  distinct : BitVec 7
  /-- HIST (R42). -/
  hist : Hist
  /-- HEAP, HEAP_SIZE (R43, R32). -/
  heap : Heap
  /-- TREE, TREE_SIZE (R44, R33). -/
  tree : Tree
  /-- ROOT (R34). -/
  root : Index
  /-- INBUF (R45). -/
  inbuf : List Byte
  /-- CODEBUF, BITLEN (R47, R35). -/
  code : CodeStream
  /-- OUTBUF, DEC_COUNT (R46, R36). -/
  out : Output
  /-- The model's own: what the outside does next, oldest first (log entry 4). -/
  events : List Event
  /-- The model's own: the value the last host read returned (log entry 5). -/
  readData : Word
  /-- The model's own: how many unspecified values have been read so far (log entry 6). -/
  draws : Nat
  deriving DecidableEq, Repr

/-- N, the length of INBUF (00_scope.md R7). -/
def State.inputLen (s : State) : Nat := s.inbuf.length

/-- CODE_WORDS, the number of words of CODEBUF (00_scope.md R7). -/
def State.codeWords (s : State) : Nat := s.code.words.length

/-- Why the machine stops. Every error the spec describes is a next state, not one of these; the two
below arise only in states no run from State.reset reaches. -/
inductive Fault where
  /-- A command's pseudocode reads or writes an element that does not exist: a HEAP slot above 94, a
  TREE slot above 188 or a CODEBUF word at or above CODE_WORDS. Raised by HEAPIFY, MERGE, BUILD,
  ENCODE, DECODE and RUN. Safe: the spec gives no effect there (log entry 9). -/
  | noSuchElement
  /-- A loop of a command's pseudocode never ends: BUILD with HEAP_SIZE = 0, or CodeOf on a TREE whose
  links form a cycle. Raised by BUILD, ENCODE and RUN. Safe: the machine never answers (log entry 10). -/
  | neverEnds
  deriving DecidableEq, Repr

/-- Why an action has no meaning in the model. -/
inductive Refusal where
  /-- An instruction without a meaning; raised by exec's refused arms only. Safe. -/
  | notModelled (mnemonic : String)
  /-- A host access that is not a 32-bit access at an offset that is a multiple of 4 (20_memory.md
  R69: "a model refuses a host program that does"). Raised by a bus event. Safe. -/
  | unsupportedAccess
  /-- A host access while rst_n is low (70_reset_and_hazards.md R250: "outside the model"). Raised by
  a bus event. Safe. -/
  | accessInReset
  /-- A host access at an address outside the window (20_memory.md R60): not an access to this block
  (log entry 7). Raised by a bus event. Safe. -/
  | outsideWindow
  deriving DecidableEq, Repr

/-- The reset values of 10_state.md R51 for an instance with the given BASE, INBUF contents and
CODE_WORDS: every element but INBUF (and the host's own record, empty here) is fixed by them. -/
def State.cleared (base : Nat) (inbuf : List Byte) (codeWords : Nat) : State :=
  { base := base
    rstN := true
    pending := none
    busy := false
    overrun := false
    phase := .idle
    errCode := .noError
    errOp := 0#8
    errInfo := 0#32
    distinct := 0#7
    hist := zeroHist
    heap := emptyHeap
    tree := emptyTree
    root := Config.none
    inbuf := inbuf
    code := { words := List.replicate codeWords 0#32, bitlen := 0#32 }
    out := { bytes := List.replicate inbuf.length 0#8, count := 0#17 }
    events := []
    readData := 0#32
    draws := 0 }

/-- The state right after power-on reset of the instance `p`: R51's values, INBUF a draw in every
position (R45, 70_reset_and_hazards.md R251). -/
def State.powerOn (p : Params) : State :=
  State.cleared p.base ((List.range p.inputLen).map Config.inbufDraw) p.codeWords

/-- The state right after reset, of the instance Config.chosen (log entry 1). -/
def State.reset : State := State.powerOn Config.chosen

end Sys2Proof.Machine
end

