-- ==== Sys2Proof/Machine/Operands.lean ====
section
/-!
DEFINITION. How commands read their operands. A command word carries none (30_encoding.md R91); every
operand is block state: symbols and domain indices, symbol sets, node records, heap keys, tree slots
and stream bits.
-/

namespace Sys2Proof.Machine

/-- InDomain(c) (40_count.md R113). -/
def inDomain (c : Byte) : Bool :=
  decide (Config.firstSym ≤ c.toNat) && decide (c.toNat ≤ Config.lastSym)

/-- The domain index of a byte in the domain, `c − 0x20` (R113); none outside the domain. -/
def domainIndex (c : Byte) : Option (Fin Config.domainSize) :=
  if h : Config.firstSym ≤ c.toNat ∧ c.toNat ≤ Config.lastSym then
    some ⟨c.toNat - Config.firstSym, by have := h.2; simp only [Config.lastSym, Config.firstSym, Config.domainSize] at *; omega⟩
  else none

/-- The byte of a domain index, `0x20 + i` (44_decode.md R183). -/
def symbolByte (i : Nat) : Byte := BitVec.ofNat 8 (Config.firstSym + i)

/-- `{i}`, the set with only bit i (00_scope.md R12). -/
def singletonSet (i : Fin Config.domainSize) : SymbolSet := BitVec.twoPow 95 i.val

/-- `i ∈ s` (R12). -/
def memSet (i : Fin Config.domainSize) (s : SymbolSet) : Bool := s.getLsbD i.val

/-- The first of the `todo` indices from `i` on that is in `s`. -/
def lowestFrom (s : SymbolSet) : Nat → Nat → Option Nat
  | 0, _ => none
  | todo + 1, i => if s.getLsbD i then some i else lowestFrom s todo (i + 1)

/-- `lsb(s)`, the smallest index in `s` (R12). None for the empty set, for which R12 raises
TREE_CORRUPT; every reader below turns none into that raise. -/
def lsb (s : SymbolSet) : Option Nat := lowestFrom s Config.domainSize 0

/-- A leaf: `left = NONE` and `right = NONE` (R12). -/
def Node.isLeaf (n : Node) : Bool := n.left == Config.none && n.right == Config.none

/-- Malformed: exactly one child is NONE (R12). -/
def Node.isMalformed (n : Node) : Bool := (n.left == Config.none) != (n.right == Config.none)

/-- A heap key (41_heap.md R120). -/
structure Key where
  weight : Word
  low : Nat
  deriving DecidableEq, Repr

/-- `key(n) = (n.weight, lsb(n.symbol_set))` (R120); none when lsb is of the empty set. -/
def keyOf (n : Node) : Option Key :=
  match lsb n.symbolSet with
  | some i => some { weight := n.weight, low := i }
  | none => none

/-- The lexicographic order of keys (R120). -/
def Key.less (a b : Key) : Bool :=
  decide (a.weight < b.weight) || (a.weight == b.weight && decide (a.low < b.low))

/-- Leaf(i) (41_heap.md R125). -/
def leafNode (hist : Hist) (i : Fin Config.domainSize) : Node :=
  { symbolSet := singletonSet i, weight := hist[i], left := Config.none, right := Config.none,
    insertedAt := Config.none }

/-- MergeNode(a, b) (42_tree.md R142). -/
def mergeNode (a b : Node) : Node :=
  { symbolSet := a.symbolSet ||| b.symbolSet, weight := a.weight + b.weight, left := a.insertedAt,
    right := b.insertedAt, insertedAt := Config.none }

/-- BitRead(o) = CODEBUF[o div 32][31 − (o mod 32)] (43_encode.md R166); none past the end of CODEBUF. -/
def bitRead (words : List Word) (o : Nat) : Option Bool :=
  match words[o / Config.wordBits]? with
  | some w => some (w.getLsbD (Config.wordBits - 1 - o % Config.wordBits))
  | none => none

/-- `w` with bit `i` set to `b`. -/
def putBit (w : Word) (i : Nat) (b : Bool) : Word :=
  if b then w ||| BitVec.twoPow 32 i else w &&& ~~~(BitVec.twoPow 32 i)

/-- BitWrite(o, b) (43_encode.md R166). -/
def bitWrite (words : List Word) (o : Nat) (b : Bool) : List Word :=
  words.modify (o / Config.wordBits) fun w => putBit w (Config.wordBits - 1 - o % Config.wordBits) b

end Sys2Proof.Machine
end

