-- ==== Sys2Proof/Machine/Flags.lean ====
section
/-!
DEFINITION. The fields of STATUS (10_state.md R23), the codes of PHASE (R26) and ERR_CODE
(60_exceptions.md R221), and the phase each command requires (R27).
-/

namespace Sys2Proof.Machine

/-- The value of PHASE (R26). -/
def Phase.value : Phase → BitVec 4
  | .idle => 0#4
  | .counted => 1#4
  | .heaped => 2#4
  | .built => 3#4
  | .encoded => 4#4
  | .decoded => 5#4
  | .done => 6#4
  | .error => 7#4

/-- The value of ERR_CODE (60_exceptions.md R221). -/
def ErrCode.value : ErrCode → BitVec 4
  | .noError => 0#4
  | .domain => 1#4
  | .capacity => 2#4
  | .decodeCorrupt => 3#4
  | .treeCorrupt => 4#4
  | .symbolAbsent => 5#4
  | .mismatch => 6#4
  | .sequence => 7#4
  | .illegalCmd => 8#4

/-- ERRORF: 1 exactly when PHASE = ERROR (R23). -/
def State.errorf (s : State) : Bool := s.phase == .error

/-- DONEF: 1 exactly when PHASE = DONE (R23). -/
def State.donef (s : State) : Bool := s.phase == .done

/-- STATUS as one 32-bit word (R23), most significant field first. -/
def State.statusWord (s : State) : Word :=
  0#8 ++ s.errOp ++ 0#4 ++ s.phase.value ++ s.errCode.value ++ BitVec.ofBool s.donef ++
    BitVec.ofBool s.errorf ++ BitVec.ofBool s.overrun ++ BitVec.ofBool s.busy

/-- The required phase of a command; none for "any" (10_state.md R27). -/
def requiredPhase : Instr → Option Phase
  | .nop => none
  | .init => none
  | .count => some .idle
  | .heapify => some .counted
  | .merge => some .heaped
  | .build => some .heaped
  | .encode => some .built
  | .decode => some .encoded
  | .verify => some .decoded
  | .run => none

/-- DISTINCT: how many domain indices have a nonzero counter (40_count.md R112). -/
def distinctOf (hist : Hist) : Nat := hist.toList.countP fun v => v != 0#32

end Sys2Proof.Machine
end

