-- ==== Sys2Proof/Machine/Ops.lean ====
section
/-!
DEFINITION. The shared operations: how a command's pseudocode runs and stops, taking an error and
leaving it, completing a command, latching one, reset.
-/

namespace Sys2Proof.Machine

/-- `raise E(info)` (00_scope.md R11): the error and its information (60_exceptions.md R223). -/
structure Raise where
  code : ErrCode
  info : Word
  deriving DecidableEq, Repr

/-- What ends a command's pseudocode early: a raise of the spec, or a fault of the model. -/
inductive Stop where
  | raise (r : Raise)
  | stuck (f : Fault)
  deriving DecidableEq, Repr

/-- A piece of pseudocode over the data `σ`. It ends normally with a value, or it stops; what it wrote
before it stopped stays written (60_exceptions.md R225). -/
abbrev Act (σ α : Type) := EStateM Stop σ α

/-- A piece of pseudocode that can stop only by a raise. -/
abbrev SureAct (σ α : Type) := EStateM Raise σ α

/-- `raise E(info)`. -/
def raise {σ α : Type} (code : ErrCode) (info : Word) : Act σ α := throw (.raise { code := code, info := info })

/-- The raise of `lsb` of the empty set: TREE_CORRUPT with ERR_INFO 0xFFFFFFFF (00_scope.md R12,
60_exceptions.md R223). -/
def raiseLsbEmpty {σ α : Type} : Act σ α := raise .treeCorrupt 0xFFFFFFFF#32

/-- The model's stop where the pseudocode has no effect to give (log entries 9, 10). -/
def stuck {σ α : Type} (f : Fault) : Act σ α := throw (.stuck f)

/-- Run pseudocode that only reads. -/
def ofRead {σ α : Type} (x : Except Stop α) : Act σ α := fun s =>
  match x with
  | .ok a => .ok a s
  | .error e => .error e s

/-- A raise-only piece as a piece that may also be stuck. -/
def ofSure {σ α : Type} (x : SureAct σ α) : Act σ α := fun s =>
  match x s with
  | .ok a t => .ok a t
  | .error r t => .error (.raise r) t

/-- Run a piece over one component of the state, and put the component back. -/
def onPart {ε σ τ α : Type} (get : σ → τ) (put : τ → σ → σ) (x : EStateM ε τ α) : EStateM ε σ α := fun s =>
  match x (get s) with
  | .ok a t => .ok a (put t s)
  | .error e t => .error e (put t s)

/-- The state with HIST replaced. -/
def State.putHist (h : Hist) (s : State) : State := { s with hist := h }

/-- The state with HEAP and HEAP_SIZE replaced. -/
def State.putHeap (h : Heap) (s : State) : State := { s with heap := h }

/-- The state with TREE and TREE_SIZE replaced. -/
def State.putTree (t : Tree) (s : State) : State := { s with tree := t }

/-- The state with CODEBUF and BITLEN replaced. -/
def State.putCode (c : CodeStream) (s : State) : State := { s with code := c }

/-- The state with OUTBUF and DEC_COUNT replaced. -/
def State.putOut (o : Output) (s : State) : State := { s with out := o }

/-- `PHASE <- p`. -/
def State.setPhase (p : Phase) (s : State) : State := { s with phase := p }

/-- Error entry, the ONE operation every error goes through (60_exceptions.md R224): ERR_CODE,
ERR_INFO, ERR_OP and PHASE are written, "No other state is saved or changed". -/
def State.takeError (op : BitVec 8) (r : Raise) (s : State) : State :=
  { s with errCode := r.code, errInfo := r.info, errOp := op, phase := .error }

/-- Leaving ERROR (60_exceptions.md R227): the error registers and OVERRUN are cleared and PHASE is
IDLE. It happens only inside INIT and reset. -/
def State.leaveError (s : State) : State :=
  { s with errCode := .noError, errInfo := 0#32, errOp := 0#8, overrun := false, phase := .idle }

/-- The pseudocode of INIT (45_control.md R202). -/
def State.initialise (s : State) : State :=
  { s.leaveError with
    hist := zeroHist
    distinct := 0#7
    heap := emptyHeap
    tree := emptyTree
    root := Config.none
    code := { words := List.replicate s.codeWords 0#32, bitlen := 0#32 }
    out := { bytes := List.replicate s.inputLen 0#8, count := 0#17 } }

/-- The last two lines of BlockStep: `PENDING.valid <- 0; BUSY <- 0` (45_control.md R200). -/
def State.complete (s : State) : State := { s with pending := none, busy := false }

/-- A CMD write with BUSY = 0 (10_state.md R22). -/
def State.latch (c : Word) (s : State) : State := { s with pending := some c, busy := true }

/-- A discarded host write during BUSY (20_memory.md R70). -/
def State.noteOverrun (s : State) : State := { s with overrun := true }

/-- Reset (70_reset_and_hazards.md R250 to R252): every element at its reset value, INBUF unchanged.
"Apart from BUSY, PENDING and INBUF, the reset state is the state INIT leaves" (R251). -/
def State.applyReset (s : State) : State := s.initialise.complete

/-- rst_n goes low: the pending command is abandoned (R252). -/
def State.driveResetLow (s : State) : State := { s.applyReset with rstN := false }

/-- rst_n goes high: the block is in the reset state (R250). A high pin stays as it is. -/
def State.driveResetHigh (s : State) : State := if s.rstN then s else { s.applyReset with rstN := true }

/-- The word `c` latched, the outside silent and rst_n high, so that the next step is the block's. -/
def State.placeCommand (c : Word) (s : State) : State := { s.latch c with rstN := true, events := [] }

/-- Run `body` as the stage of opcode `op`: a raise inside it takes the error with ERR_OP = `op`
(45_control.md R204). -/
def inStage (op : BitVec 8) (body : Act State Unit) : Act State Unit := fun s =>
  match body s with
  | .error (.raise r) t => .error (.raise r) (t.takeError op r)
  | other => other

/-- The answer of a command: completing and raising are both next states (60_exceptions.md R224). -/
def answer (r : EStateM.Result Stop State Unit) : Host.Outcome State Fault Refusal :=
  match r with
  | .ok _ t => .next t
  | .error (.raise _) t => .next t
  | .error (.stuck f) _ => .fault f

/-- The state a raise-only command of opcode `op` leaves. -/
def settle (op : BitVec 8) (r : EStateM.Result Raise State Unit) : State :=
  match r with
  | .ok _ t => t
  | .error r t => t.takeError op r

/-- SEQUENCE: ERR_INFO is the value of PHASE found (60_exceptions.md R223). -/
def sequenceRaise (found : Phase) : Raise := { code := .sequence, info := found.value.setWidth 32 }

/-- A component command (45_control.md R200): discarded in ERROR, SEQUENCE outside its required phase,
else its body as the stage of its own opcode. -/
def component (op : BitVec 8) (need : Phase) (body : Act State Unit) (s : State) :
    Host.Outcome State Fault Refusal :=
  if s.phase = .error then .next s
  else if s.phase = need then answer (inStage op body s)
  else .next (s.takeError op (sequenceRaise s.phase))

/-- A component command whose body can stop only by a raise, so that it always has a next state. -/
def sureComponent (op : BitVec 8) (need : Phase) (body : SureAct State Unit) (s : State) :
    Host.Outcome State Fault Refusal :=
  .next (if s.phase = .error then s
    else if s.phase = need then settle op (body s)
    else s.takeError op (sequenceRaise s.phase))

/-- Executing an illegal word (30_encoding.md R94): ILLEGAL_CMD with ERR_INFO the whole word and
ERR_OP its bits [7:0], or nothing in ERROR (45_control.md R200). -/
def State.illegalCommand (c : Word) (s : State) : State :=
  if s.phase = .error then s
  else s.takeError (c.extractLsb' 0 8) { code := .illegalCmd, info := c }

end Sys2Proof.Machine
end

