-- ==== Sys2Proof/Machine/Bus.lean ====
section
/-!
DEFINITION. The host's accesses to the window (20_memory.md, 45_control.md R205).
-/

namespace Sys2Proof.Machine

/-- What an offset of the window names (20_memory.md R61, R62). -/
inductive Location where
  | id
  | cfgN
  | cfgCw
  | cfgDom
  | cmd
  | status
  | errInfo
  | distinct
  | heapSize
  | treeSize
  | root
  | bitlen
  | decCount
  /-- HIST[i] (R63). -/
  | hist (i : Nat)
  /-- Word w of HEAP[j] (R64). -/
  | heapWord (j w : Nat)
  /-- Word w of TREE[j] (R64). -/
  | treeWord (j w : Nat)
  /-- INBUF word k (R65). -/
  | inbufWord (k : Nat)
  /-- OUTBUF word k (R65). -/
  | outbufWord (k : Nat)
  /-- CODEBUF[w] (R67). -/
  | codeWord (w : Nat)
  | reserved
  deriving DecidableEq, Repr

/-- How many words the symbols of INBUF or OUTBUF take: ceil(N/4) (R61). -/
def symbolWords (n : Nat) : Nat := (n + 3) / 4

/-- The register block (R62), by offset. -/
def registerAt : Nat → Location
  | 0x000 => .id
  | 0x004 => .cfgN
  | 0x008 => .cfgCw
  | 0x00C => .cfgDom
  | 0x010 => .cmd
  | 0x014 => .status
  | 0x018 => .errInfo
  | 0x01C => .distinct
  | 0x020 => .heapSize
  | 0x024 => .treeSize
  | 0x028 => .root
  | 0x02C => .bitlen
  | 0x030 => .decCount
  | _ => .reserved

/-- The window's map (R61) of an instance with N = n and CODE_WORDS = cw, at an offset that is a
multiple of 4. -/
def locate (n cw off : Nat) : Location :=
  if off < 0x400 then registerAt off
  else if off < 0x57C then .hist ((off - 0x400) / 4)
  else if off < 0x1000 then .reserved
  else if off < 0x1BE0 then .heapWord ((off - 0x1000) / 32) ((off - 0x1000) % 32 / 4)
  else if off < 0x2000 then .reserved
  else if off < 0x37A0 then .treeWord ((off - 0x2000) / 32) ((off - 0x2000) % 32 / 4)
  else if off < 0x10000 then .reserved
  else if off < 0x10000 + 4 * symbolWords n then .inbufWord ((off - 0x10000) / 4)
  else if off < 0x20000 then .reserved
  else if off < 0x20000 + 4 * symbolWords n then .outbufWord ((off - 0x20000) / 4)
  else if off < 0x100000 then .reserved
  else if off < 0x100000 + 4 * cw then .codeWord ((off - 0x100000) / 4)
  else .reserved

/-- The location at an offset of this instance's window. -/
def State.locationAt (s : State) (off : Nat) : Location := locate s.inputLen s.codeWords off

/-- Word w of a node record (R64). -/
def Node.windowWord (n : Node) : Nat → Word
  | 0 => n.symbolSet.extractLsb' 0 32
  | 1 => n.symbolSet.extractLsb' 32 32
  | 2 => (n.symbolSet.extractLsb' 64 31).setWidth 32
  | 3 => n.weight
  | 4 => 0#8 ++ n.insertedAt ++ n.right ++ n.left
  | _ => 0#32

/-- A lane: the symbol at position p, 0x00 at positions past the end (R65). -/
def lane (bytes : List Byte) (p : Nat) : Byte :=
  match bytes[p]? with
  | some b => b
  | none => 0#8

/-- Word k of INBUF or OUTBUF: `{ X[4k+3], X[4k+2], X[4k+1], X[4k] }` (R65). -/
def lanesWord (bytes : List Byte) (k : Nat) : Word :=
  lane bytes (4 * k + 3) ++ lane bytes (4 * k + 2) ++ lane bytes (4 * k + 1) ++ lane bytes (4 * k)

/-- `write(INBUF_base + 4k, v)`: lanes at positions past the end are ignored (R65). -/
def writeLanes (bytes : List Byte) (k : Nat) (v : Word) : List Byte :=
  (((bytes.set (4 * k) (v.extractLsb' 0 8)).set (4 * k + 1) (v.extractLsb' 8 8)).set (4 * k + 2)
    (v.extractLsb' 16 8)).set (4 * k + 3) (v.extractLsb' 24 8)

/-- The defined value of a location (R62 to R68). The cases of an element past the end of its array
are no locations of the map (`locate` never gives them) and read 0. -/
def State.locationValue (s : State) : Location → Word
  | .id => Config.idValue
  | .cfgN => BitVec.ofNat 32 s.inputLen
  | .cfgCw => BitVec.ofNat 32 s.codeWords
  | .cfgDom => Config.domValue
  | .cmd => 0#32
  | .status => s.statusWord
  | .errInfo => s.errInfo
  | .distinct => s.distinct.setWidth 32
  | .heapSize => s.heap.size.setWidth 32
  | .treeSize => s.tree.size.setWidth 32
  | .root => s.root.setWidth 32
  | .bitlen => s.code.bitlen
  | .decCount => s.out.count.setWidth 32
  | .hist i => match s.hist[i]? with
    | some v => v
    | none => 0#32
  | .heapWord j w => match s.heap.slots[j]? with
    | some n => n.windowWord w
    | none => 0#32
  | .treeWord j w => match s.tree.slots[j]? with
    | some n => n.windowWord w
    | none => 0#32
  | .inbufWord k => lanesWord s.inbuf k
  | .outbufWord k => lanesWord s.out.bytes k
  | .codeWord w => match s.code.words[w]? with
    | some v => v
    | none => 0#32
  | .reserved => 0#32

/-- The locations a read during BUSY answers with their defined value (R71). -/
def Location.definedWhileBusy : Location → Bool
  | .id | .cfgN | .cfgCw | .cfgDom | .status | .reserved => true
  | .cmd | .errInfo | .distinct | .heapSize | .treeSize | .root | .bitlen | .decCount | .hist _
  | .heapWord _ _ | .treeWord _ _ | .inbufWord _ | .outbufWord _ | .codeWord _ => false

/-- The host-writable locations: "exactly CMD, the INBUF words and the CODEBUF words" (R66). -/
def Location.writable : Location → Bool
  | .cmd | .inbufWord _ | .codeWord _ => true
  | .id | .cfgN | .cfgCw | .cfgDom | .status | .errInfo | .distinct | .heapSize | .treeSize | .root
  | .bitlen | .decCount | .hist _ | .heapWord _ _ | .treeWord _ _ | .outbufWord _ | .reserved => false

/-- A host read: the defined value, or a draw during BUSY (R71). It changes nothing of the block (R72),
only what the host holds and the count of draws. -/
def State.hostRead (s : State) (off : Nat) : State :=
  if s.busy && !(s.locationAt off).definedWhileBusy then
    { s with readData := Config.busyDraw s.draws, draws := s.draws + 1 }
  else { s with readData := s.locationValue (s.locationAt off) }

/-- The effect of a write to a location with BUSY = 0 (10_state.md R22, 20_memory.md R65, R67, R68). -/
def State.storeAt (s : State) (v : Word) : Location → State
  | .cmd => s.latch v
  | .inbufWord k => { s with inbuf := writeLanes s.inbuf k v }
  | .codeWord w => { s with code := { s.code with words := s.code.words.set w v } }
  | .id | .cfgN | .cfgCw | .cfgDom | .status | .errInfo | .distinct | .heapSize | .treeSize | .root
  | .bitlen | .decCount | .hist _ | .heapWord _ _ | .treeWord _ _ | .outbufWord _ | .reserved => s

/-- A host write: during BUSY it is discarded, and sets OVERRUN where the location is host-writable
(R70, R68). -/
def State.hostWrite (s : State) (off : Nat) (v : Word) : State :=
  if s.busy then if (s.locationAt off).writable then s.noteOverrun else s
  else s.storeAt v (s.locationAt off)

/-- The only defined host access: 32 bits at an offset that is a multiple of 4 (R69). BASE is a multiple
of 4 by R60; the offset is what counts. -/
def State.supports (s : State) (a : Access) : Bool :=
  a.bytes == 4 && (a.addr - s.base) % 4 == 0

/-- The address is in the window (R60). -/
def State.inWindow (s : State) (a : Access) : Bool :=
  decide (s.base ≤ a.addr) && decide (a.addr < s.base + Config.windowBytes)

/-- One bus transaction (45_control.md R205). -/
def State.hostAccess (s : State) (a : Access) : Host.Outcome State Fault Refusal :=
  if s.rstN = false then .refused .accessInReset
  else if s.inWindow a = false then .refused .outsideWindow
  else if s.supports a = false then .refused .unsupportedAccess
  else if a.write then .next (s.hostWrite (a.addr - s.base) a.data)
  else .next (s.hostRead (a.addr - s.base))

end Sys2Proof.Machine
end

