-- ==== Sys2Proof/Machine/BitEncoder.lean ====
section
/-!
DEFINITION. The bit-packing encoder: code derivation, packing and ENCODE (43_encode.md).
-/

namespace Sys2Proof.Machine

/-- Reading TREE[j]. -/
def Tree.read (t : Tree) (j : Index) : Except Stop Node :=
  match t.slots[j.toNat]? with
  | some n => .ok n
  | none => .error (.stuck .noSuchElement)

/-- `raise E(k)` of a reader, k an INBUF position. -/
def raiseAt {α : Type} (code : ErrCode) (k : Nat) : Except Stop α :=
  .error (.raise { code := code, info := BitVec.ofNat 32 k })

/-- CodeOf's while loop from node `n` on (R162 to R164). The first argument bounds the descents: more
than TREE_CAP of them revisit a slot, and then the loop never ends (log entry 10). -/
def codeFrom (t : Tree) (s : Fin Config.domainSize) (k : Nat) : Nat → Node → Except Stop (List Bool)
  | 0, n =>
    if n.isLeaf then if n.symbolSet = singletonSet s then pure [] else raiseAt .symbolAbsent k
    else if n.isMalformed then raiseAt .treeCorrupt k
    else .error (.stuck .neverEnds)
  | fuel + 1, n =>
    if n.isLeaf then if n.symbolSet = singletonSet s then pure [] else raiseAt .symbolAbsent k
    else if n.isMalformed then raiseAt .treeCorrupt k
    else do
      let l ← t.read n.left
      if memSet s l.symbolSet then do
        let code ← codeFrom t s k fuel l
        pure (false :: code)
      else do
        let r ← t.read n.right
        let code ← codeFrom t s k fuel r
        pure (true :: code)

/-- CodeOf(s, k) (R162); the code of the lone symbol is the single bit 0 (R174). -/
def codeOf (t : Tree) (root : Index) (s : Fin Config.domainSize) (k : Nat) : Except Stop (List Bool) := do
  let n ← t.read root
  if n.isLeaf then
    if n.symbolSet = singletonSet s then pure [false] else raiseAt .symbolAbsent k
  else codeFrom t s k Config.treeCap n

/-- One pass of Pack's loop: `BitWrite(BITLEN, b); BITLEN <- BITLEN + 1` (R165). -/
def packBit (c : CodeStream) (b : Bool) : CodeStream :=
  { words := bitWrite c.words c.bitlen.toNat b, bitlen := c.bitlen + 1#32 }

/-- Pack(code), first bit first (R165). -/
def pack (c : CodeStream) (code : List Bool) : CodeStream := code.foldl packBit c

/-- ENCODE's loop from position `k` on, over the bytes INBUF[k..N−1] (R160): DOMAIN, then CodeOf's
raises, then CAPACITY (R169), each before any bit of the code is packed. -/
def encodeLoop (t : Tree) (root : Index) : Nat → List Byte → Act CodeStream Unit
  | _, [] => pure ()
  | k, c :: rest => do
    match domainIndex c with
    | none => raise .domain (BitVec.ofNat 32 k)
    | some i => do
      let code ← ofRead (codeOf t root i k)
      let cs ← get
      if cs.words.length * Config.wordBits < cs.bitlen.toNat + code.length then
        raise .capacity (BitVec.ofNat 32 k)
      else do
        set (pack cs code)
        encodeLoop t root (k + 1) rest

/-- `for w in 0 .. CODE_WORDS-1: CODEBUF[w] <- 0; BITLEN <- 0` (R160, R170). -/
def clearCode : Act CodeStream Unit :=
  modify fun c => { words := List.replicate c.words.length 0#32, bitlen := 0#32 }

/-- ENCODE's work on the stream (R160). -/
def encodeStream (t : Tree) (root : Index) (inbuf : List Byte) : Act CodeStream Unit := do
  clearCode
  encodeLoop t root 0 inbuf

/-- The pseudocode of ENCODE (R160). -/
def encodeBody : Act State Unit := do
  let s ← get
  onPart State.code State.putCode (encodeStream s.tree s.root s.inbuf)
  modify (State.setPhase .encoded)

/-- ENCODE (R160). -/
def execEncode (s : State) : Host.Outcome State Fault Refusal := component 0x06#8 .built encodeBody s

end Sys2Proof.Machine
end

