-- ==== Sys2Proof/Machine/BitDecoder.lean ====
section
/-!
DEFINITION. The bit-unpacking decoder, DECODE, and the round-trip check, VERIFY (44_decode.md).
-/

namespace Sys2Proof.Machine

/-- BitRead(o) in a command. -/
def CodeStream.readBit (c : CodeStream) (o : Nat) : Except Stop Bool :=
  match bitRead c.words o with
  | some b => .ok b
  | none => .error (.stuck .noSuchElement)

/-- DECODE's inner loop from node `n`, with `o` bits consumed and `left` = BITLEN − o still to consume
(R180): the leaf reached and the bits consumed then. -/
def descend (t : Tree) (c : CodeStream) : Nat → Nat → Node → Except Stop (Node × Nat)
  | 0, o, n =>
    if n.isMalformed then raiseAt .decodeCorrupt o
    else if n.isLeaf then pure (n, o)
    else raiseAt .decodeCorrupt o
  | left + 1, o, n =>
    if n.isMalformed then raiseAt .decodeCorrupt o
    else if n.isLeaf then pure (n, o)
    else do
      let b ← c.readBit o
      let n' ← t.read (if b then n.right else n.left)
      descend t c left (o + 1) n'

/-- One pass of DECODE's outer loop up to EmitSymbol, from the root node `r` (R180). A leaf root takes
one bit, which must be 0 (R184). -/
def nextLeaf (t : Tree) (c : CodeStream) (r : Node) (o : Nat) : Except Stop (Node × Nat) :=
  if r.isLeaf then do
    let b ← c.readBit o
    if b then raiseAt .decodeCorrupt (o + 1) else pure (r, o + 1)
  else descend t c (c.bitlen.toNat - o) o r

/-- EmitSymbol(n, o) (R183). -/
def emitSymbol (n : Node) (o : Nat) : Act Output Unit := do
  let out ← get
  if out.count.toNat = out.bytes.length then raise .decodeCorrupt (BitVec.ofNat 32 o)
  else
    match lsb n.symbolSet with
    | none => raiseLsbEmpty
    | some i => set { bytes := out.bytes.set out.count.toNat (symbolByte i), count := out.count + 1#17 : Output }

/-- DECODE's outer loop with `o` bits consumed (R180). The first argument bounds it; BITLEN − o is
enough, since every pass consumes at least one bit. -/
def decodeLoop (t : Tree) (c : CodeStream) (r : Node) : Nat → Nat → Act Output Unit
  | 0, _ => pure ()
  | fuel + 1, o =>
    if o < c.bitlen.toNat then do
      let x ← ofRead (nextLeaf t c r o)
      emitSymbol x.1 x.2
      decodeLoop t c r fuel x.2
    else pure ()

/-- `for k in 0 .. N-1: OUTBUF[k] <- 0x00; DEC_COUNT <- 0` (R180); N is the number of INBUF's bytes. -/
def clearOut (n : Nat) : Act Output Unit := set { bytes := List.replicate n 0#8, count := 0#17 : Output }

/-- DECODE's work on the output (R180). -/
def decodeStream (t : Tree) (root : Index) (c : CodeStream) (n : Nat) : Act Output Unit := do
  clearOut n
  let r ← ofRead (t.read root)
  decodeLoop t c r c.bitlen.toNat 0

/-- The pseudocode of DECODE (R180). -/
def decodeBody : Act State Unit := do
  let s ← get
  onPart State.out State.putOut (decodeStream s.tree s.root s.code s.inputLen)
  modify (State.setPhase .decoded)

/-- VERIFY's loop from position `k` on, over the bytes INBUF[k..N−1]: the first position that differs
or was not decoded (R190). -/
def firstMismatch (out : Output) : Nat → List Byte → Option Nat
  | _, [] => none
  | k, c :: rest =>
    if out.count.toNat ≤ k ∨ out.bytes[k]? ≠ some c then some k else firstMismatch out (k + 1) rest

/-- The pseudocode of VERIFY (R190). -/
def verifyBody : SureAct State Unit := do
  let s ← get
  match firstMismatch s.out 0 s.inbuf with
  | some k => throw { code := .mismatch, info := BitVec.ofNat 32 k }
  | none => set (s.setPhase .done)

/-- DECODE (R180). -/
def execDecode (s : State) : Host.Outcome State Fault Refusal := component 0x07#8 .encoded decodeBody s

/-- VERIFY (R190). -/
def execVerify (s : State) : Host.Outcome State Fault Refusal := sureComponent 0x08#8 .decoded verifyBody s

end Sys2Proof.Machine
end

