-- ==== Sys2Proof/Machine/Counter.lean ====
section
/-!
DEFINITION. COUNT (40_count.md).
-/

namespace Sys2Proof.Machine

/-- `HIST[i] <- HIST[i] + 1`. -/
def bumpHist (hist : Hist) (i : Fin Config.domainSize) : Hist := hist.set i (hist[i] + 1#32)

/-- COUNT's loop from position `k` on, over the bytes INBUF[k..N−1] (R110). -/
def countLoop : Nat → List Byte → SureAct Hist Unit
  | _, [] => pure ()
  | k, c :: rest => do
    match domainIndex c with
    | none => throw { code := .domain, info := BitVec.ofNat 32 k }
    | some i => modify fun hist => bumpHist hist i
    countLoop (k + 1) rest

/-- The pseudocode of COUNT (R110, R112). -/
def countBody : SureAct State Unit := do
  let s ← get
  onPart State.hist State.putHist (countLoop 0 s.inbuf)
  modify fun s => { s with distinct := BitVec.ofNat 7 (distinctOf s.hist) }
  modify (State.setPhase .counted)

/-- COUNT (R110). -/
def execCount (s : State) : Host.Outcome State Fault Refusal := sureComponent 0x02#8 .idle countBody s

end Sys2Proof.Machine
end

