-- ==== Sys2Proof/Machine/PriorityQueue.lean ====
section
/-!
DEFINITION. The min-heap and HEAPIFY (41_heap.md).
-/

namespace Sys2Proof.Machine

/-- Reading HEAP[j]. -/
def Heap.read (h : Heap) (j : Nat) : Except Stop Node :=
  match h.slots[j]? with
  | some n => .ok n
  | none => .error (.stuck .noSuchElement)

/-- `HEAP[j] <- n`. -/
def heapWrite (j : Nat) (n : Node) : Act Heap Unit := fun h =>
  if j < Config.domainSize then .ok () { h with slots := h.slots.setIfInBounds j n }
  else .error (.stuck .noSuchElement) h

/-- `key(HEAP[j])` (R120); the lsb of an empty set raises TREE_CORRUPT (00_scope.md R12). -/
def Heap.keyAt (h : Heap) (j : Nat) : Except Stop Key := do
  let n ← h.read j
  match keyOf n with
  | some k => pure k
  | none => throw (.raise { code := .treeCorrupt, info := 0xFFFFFFFF#32 })

/-- `key(HEAP[i]) < key(HEAP[j])`; both keys are taken before they are compared (log entry 11). -/
def Heap.keyLess (h : Heap) (i j : Nat) : Except Stop Bool := do
  let a ← h.keyAt i
  let b ← h.keyAt j
  pure (a.less b)

/-- `if c < HEAP_SIZE and key(HEAP[c]) < key(HEAP[m]) then c else m`, one line of SiftDown (R122). -/
def Heap.smallerOf (h : Heap) (m c : Nat) : Except Stop Nat :=
  if c < h.size.toNat then do
    let b ← h.keyLess c m
    pure (if b then c else m)
  else pure m

/-- `swap HEAP[i], HEAP[j]`. -/
def heapSwap (i j : Nat) : Act Heap Unit := do
  let h ← get
  let a ← ofRead (h.read i)
  let b ← ofRead (h.read j)
  heapWrite i b
  heapWrite j a

/-- SiftDown(i) (R122). The first argument bounds the loop; HEAP_SIZE is enough, since every pass
moves to a larger slot below HEAP_SIZE. -/
def siftDown : Nat → Nat → Act Heap Unit
  | 0, _ => pure ()
  | fuel + 1, i => do
    let h ← get
    let m ← ofRead (h.smallerOf i (2 * i + 1))
    let m ← ofRead (h.smallerOf m (2 * i + 2))
    if m = i then pure ()
    else do
      heapSwap i m
      siftDown fuel m

/-- SiftUp(i) (R123). The first argument bounds the loop; i is enough. -/
def siftUp : Nat → Nat → Act Heap Unit
  | 0, _ => pure ()
  | fuel + 1, i =>
    if 0 < i then do
      let h ← get
      let b ← ofRead (h.keyLess i ((i - 1) / 2))
      if b then do
        heapSwap i ((i - 1) / 2)
        siftUp fuel ((i - 1) / 2)
      else pure ()
    else pure ()

/-- BulkBuild's loop: SiftDown(k − 1), ..., SiftDown(0) (R124). -/
def bulkBuildFrom : Nat → Act Heap Unit
  | 0 => pure ()
  | k + 1 => do
    let h ← get
    siftDown h.size.toNat k
    bulkBuildFrom k

/-- BulkBuild() (R124): SiftDown of slots (HEAP_SIZE div 2) − 1 down to 0. -/
def bulkBuild : Act Heap Unit := do
  let h ← get
  bulkBuildFrom (h.size.toNat / 2)

/-- `HEAP_SIZE <- n`. -/
def setHeapSize (n : Nat) : Act Heap Unit := modify fun h => { h with size := BitVec.ofNat 7 n }

/-- HeapPop() (R126). -/
def heapPop : Act Heap Node := do
  let h ← get
  let m ← ofRead (h.read 0)
  let last := h.size.toNat - 1
  setHeapSize last
  if 0 < last then do
    let n ← ofRead (h.read last)
    heapWrite 0 n
  heapWrite last unusedNode
  if 0 < last then siftDown last 0
  pure m

/-- `HEAP[HEAP_SIZE] <- n; HEAP_SIZE <- HEAP_SIZE + 1`. -/
def heapPush (n : Node) : Act Heap Unit := do
  let h ← get
  heapWrite h.size.toNat n
  setHeapSize (h.size.toNat + 1)

/-- HeapInsert(n) (R127): SiftUp starts at HEAP_SIZE − 1, the slot just written. -/
def heapInsert (n : Node) : Act Heap Unit := do
  heapPush n
  let h ← get
  siftUp (h.size.toNat - 1) (h.size.toNat - 1)

/-- HEAPIFY's loop over the domain indices `is`, in that order (R128). -/
def placeLeaves (hist : Hist) : List (Fin Config.domainSize) → Act Heap Unit
  | [] => pure ()
  | i :: rest => do
    if hist[i] ≠ 0#32 then heapPush (leafNode hist i)
    placeLeaves hist rest

/-- HEAPIFY's work on the heap: empty it, place the leaves in ascending domain index, build (R128). -/
def heapifyHeap (hist : Hist) : Act Heap Unit := do
  setHeapSize 0
  placeLeaves hist (List.finRange Config.domainSize)
  bulkBuild

/-- The pseudocode of HEAPIFY (R128). -/
def heapifyBody : Act State Unit := do
  let s ← get
  onPart State.heap State.putHeap (heapifyHeap s.hist)
  modify (State.setPhase .heaped)

/-- HEAPIFY (R128). -/
def execHeapify (s : State) : Host.Outcome State Fault Refusal := component 0x03#8 .counted heapifyBody s

end Sys2Proof.Machine
end

