-- ==== Sys2Proof/Machine/TreeBuilder.lean ====
section
/-!
DEFINITION. The tree builder: tree append, MERGE and BUILD (42_tree.md).
-/

namespace Sys2Proof.Machine

/-- TreeAppend(n) (R140): the node as it stands in TREE, with `inserted_at` set. -/
def treeAppend (n : Node) : Act Tree Node := fun t =>
  let j := t.size
  if j.toNat < Config.treeCap then
    let n' := { n with insertedAt := j }
    .ok n' { slots := t.slots.setIfInBounds j.toNat n', size := j + 1#8 }
  else .error (.stuck .noSuchElement) t

/-- A piece over HEAP and HEAP_SIZE as a piece of a command. -/
def onHeap {α : Type} (x : Act Heap α) : Act State α := onPart State.heap State.putHeap x

/-- A piece over TREE and TREE_SIZE as a piece of a command. -/
def onTree {α : Type} (x : Act Tree α) : Act State α := onPart State.tree State.putTree x

/-- `if n.inserted_at = NONE: n <- TreeAppend(n)` (R141). -/
def appendIfNew (n : Node) : Act State Node :=
  if n.insertedAt = Config.none then onTree (treeAppend n) else pure n

/-- MergeIteration() (R141): the first node popped becomes the left child. -/
def mergeIteration : Act State Unit := do
  let a ← onHeap heapPop
  let b ← onHeap heapPop
  let a ← appendIfNew a
  let b ← appendIfNew b
  let m ← onTree (treeAppend (mergeNode a b))
  onHeap (heapInsert m)

/-- Finalize() (R143). -/
def finalize : Act State Unit := do
  let s ← get
  let n ← ofRead (s.heap.read 0)
  let n ←
    if n.insertedAt = Config.none then do
      let n ← onTree (treeAppend n)
      onHeap (heapWrite 0 n)
      pure n
    else pure n
  modify fun s => { s with root := n.insertedAt }
  modify (State.setPhase .built)

/-- The pseudocode of MERGE (R144). -/
def mergeBody : Act State Unit := do
  let s ← get
  if 2 ≤ s.heap.size.toNat then mergeIteration
  let s ← get
  if s.heap.size.toNat = 1 then finalize

/-- BUILD's loop (R145). The first argument bounds it; HEAP_SIZE + 1 is enough, since every pass either
lowers HEAP_SIZE or finalises, unless HEAP_SIZE = 0, where the loop never ends (log entry 10). -/
def buildLoop : Nat → Act State Unit
  | 0 => stuck .neverEnds
  | fuel + 1 => do
    mergeBody
    let s ← get
    if s.phase = .built then pure () else buildLoop fuel

/-- The pseudocode of BUILD (R145). -/
def buildBody : Act State Unit := do
  let s ← get
  buildLoop (s.heap.size.toNat + 1)

/-- MERGE (R144). -/
def execMerge (s : State) : Host.Outcome State Fault Refusal := component 0x04#8 .heaped mergeBody s

/-- BUILD (R145). -/
def execBuild (s : State) : Host.Outcome State Fault Refusal := component 0x05#8 .heaped buildBody s

end Sys2Proof.Machine
end

