-- ==== Sys2Proof/Machine/Control.lean ====
section
/-!
DEFINITION. The control commands NOP, INIT and RUN (45_control.md).
-/

namespace Sys2Proof.Machine

/-- NOP: `skip`, in any phase including ERROR (R201). -/
def execNop (s : State) : Host.Outcome State Fault Refusal := .next s

/-- INIT, in any phase including ERROR (R202). -/
def execInit (s : State) : Host.Outcome State Fault Refusal := .next s.initialise

/-- The seven stages of RUN, each under its own opcode (R203, R204). -/
def runBody : Act State Unit := do
  modify State.initialise
  inStage 0x02#8 (ofSure countBody)
  inStage 0x03#8 heapifyBody
  inStage 0x05#8 buildBody
  inStage 0x06#8 encodeBody
  inStage 0x07#8 decodeBody
  inStage 0x08#8 (ofSure verifyBody)

/-- RUN, in any phase including ERROR (R203): "the first error stops RUN". -/
def execRun (s : State) : Host.Outcome State Fault Refusal := answer (runBody s)

end Sys2Proof.Machine
end

