-- ==== Sys2Proof/Machine/Sequencer.lean ====
section
/-!
DEFINITION. The block's step and the outside's events, in one order (45_control.md R200, R205).
-/

namespace Sys2Proof.Machine

/-- Completing what a command answers: PENDING and BUSY are cleared, "also after a raise or a discard"
(45_control.md R200). -/
def completed (r : Host.Outcome State Fault Refusal) : Host.Outcome State Fault Refusal :=
  match r with
  | .next t => .next t.complete
  | .fault f => .fault f
  | .refused why => .refused why

/-- BlockStep with the word `c` pending (45_control.md R200). -/
def runCommand (c : Word) (s : State) : Host.Outcome State Fault Refusal :=
  match decodeWord c with
  | .legal i => completed (exec i s)
  | .illegal _ => .next (s.illegalCommand c).complete

/-- The block's turn: a step exactly when PENDING is valid (R200); otherwise it "does nothing and keeps all
state" (60_exceptions.md R244). DESIGN CHOICE (log entry 3, safe): it keeps all state while rst_n is low
too, where no run has a valid PENDING. -/
def blockTurn (s : State) : Host.Outcome State Fault Refusal :=
  if s.rstN then
    match s.pending with
    | some c => runCommand c s
    | none => .next s
  else .next s

/-- One event of the outside. -/
def takeEvent (e : Event) (s : State) : Host.Outcome State Fault Refusal :=
  match e with
  | .access a => s.hostAccess a
  | .block => blockTurn s
  | .resetLow => .next s.driveResetLow
  | .resetHigh => .next s.driveResetHigh

/-- One step of host, pins and block: the next event, or the block's turn when no event is left. -/
def nextStep (s : State) : Host.Outcome State Fault Refusal :=
  match s.events with
  | [] => blockTurn s
  | e :: rest => takeEvent e { s with events := rest }

end Sys2Proof.Machine
end

