-- ==== Sys2Proof/Safety.lean ====
section
/-!
DEFINITION. What counts as a sound state of the block: the ranges of its registers, the handshake, the
error record, and the laws of HIST, HEAP and TREE per phase, as the rules of spec/ state them. Also the
few notions the statements use that the machine does not.
-/

namespace Sys2Proof.Machine

/-! ### Instance and handshake -/

/-- The instance's parameters (00_scope.md R7). -/
def State.params (s : State) : Params :=
  { inputLen := s.inputLen, codeWords := s.codeWords, base := s.base }

/-- The arrays have the lengths of the instance: INBUF and OUTBUF hold N bytes (10_state.md R45, R46). -/
abbrev State.wf (s : State) : Prop := s.out.bytes.length = s.inbuf.length

/-- BUSY is 1 exactly while a command is latched (10_state.md R22, R24), never during reset. -/
abbrev State.Handshake (s : State) : Prop :=
  s.busy = s.pending.isSome ∧ (s.rstN = false → s.busy = false)

/-- The error registers are 0 outside ERROR (10_state.md R23, R28) and name an error inside it. -/
abbrev State.ErrorRecord (s : State) : Prop :=
  (s.phase ≠ .error → s.errCode = .noError ∧ s.errOp = 0#8 ∧ s.errInfo = 0#32) ∧
  (s.phase = .error → s.errCode ≠ .noError)

/-- The registers stay in the ranges of 10_state.md R31 to R36. -/
abbrev State.Ranges (s : State) : Prop :=
  s.distinct.toNat ≤ Config.domainSize ∧ s.heap.size.toNat ≤ Config.domainSize ∧
  s.tree.size.toNat ≤ Config.treeCap ∧ s.code.bitlen.toNat ≤ s.codeWords * Config.wordBits ∧
  s.out.count.toNat ≤ s.inputLen

/-- The part of soundness that does not speak of the pipeline's data. -/
abbrev State.Basic (s : State) : Prop :=
  s.params.legal = true ∧ s.wf ∧ s.Handshake ∧ s.ErrorRecord

/-! ### HIST -/

/-- Σ HIST[i]. -/
def histTotal (hist : Hist) : Nat := (hist.toList.map BitVec.toNat).sum

/-- The leaves of the counted symbols, in ascending domain index (41_heap.md R125, R128). -/
def leaves (hist : Hist) : List Node :=
  ((List.finRange Config.domainSize).filter fun i => hist[i] != 0#32).map (leafNode hist)

/-- HIST and DISTINCT after a COUNT (40_count.md R111, R112). -/
abbrev State.HistSound (s : State) : Prop :=
  s.distinct.toNat = distinctOf s.hist ∧ 1 ≤ distinctOf s.hist ∧ histTotal s.hist = s.inputLen

/-! ### HEAP -/

/-- Slot j of HEAP; the unused-slot record outside the array. -/
def Heap.nodeAt (h : Heap) (j : Nat) : Node := h.slots.toList.getD j unusedNode

/-- The nodes of HEAP[0..HEAP_SIZE−1] (41_heap.md R121). -/
def Heap.occupied (h : Heap) : List Node := h.slots.toList.take h.size.toNat

/-- Slots from HEAP_SIZE on hold the unused-slot record (41_heap.md R121). -/
abbrev Heap.RestUnused (h : Heap) : Prop :=
  ∀ j < Config.domainSize, h.size.toNat ≤ j → h.nodeAt j = unusedNode

/-- Both keys exist and the first is smaller (41_heap.md R120). -/
def keyBelow (a b : Node) : Bool :=
  match keyOf a, keyOf b with
  | some x, some y => x.less y
  | _, _ => false

/-- The heap invariant: every key is larger than its parent's (41_heap.md R129). -/
abbrev Heap.Ordered (h : Heap) : Prop :=
  ∀ i < h.size.toNat, 0 < i → keyBelow (h.nodeAt ((i - 1) / 2)) (h.nodeAt i) = true

/-- A heap the primitives are called on: it fits, its sets are nonempty, its keys are distinct and in
heap order (41_heap.md R129, R130, R133). -/
abbrev Heap.Sound (h : Heap) : Prop :=
  h.size.toNat ≤ Config.domainSize ∧ (∀ n ∈ h.occupied, n.symbolSet ≠ 0#95) ∧
  h.occupied.Pairwise (fun a b => keyOf a ≠ keyOf b) ∧ h.Ordered

/-- How many heap nodes are not in the tree yet. -/
def Heap.newNodes (h : Heap) : Nat := h.occupied.countP fun n => n.insertedAt == Config.none

/-! ### TREE -/

/-- Slot j of TREE; the unused-slot record outside the array. -/
def Tree.nodeAt (t : Tree) (j : Nat) : Node := t.slots.toList.getD j unusedNode

/-- Slots from TREE_SIZE on hold the unused-slot record (10_state.md R33). -/
abbrev Tree.RestUnused (t : Tree) : Prop :=
  ∀ j < Config.treeCap, t.size.toNat ≤ j → t.nodeAt j = unusedNode

/-- Node j of TREE is at its own index and is a counted symbol's leaf, or an internal node over two
earlier, distinct, disjoint children with the sum of their weights (42_tree.md R151, R152). -/
abbrev Tree.NodeSound (t : Tree) (hist : Hist) (j : Nat) : Prop :=
  (t.nodeAt j).insertedAt.toNat = j ∧ (t.nodeAt j).symbolSet ≠ 0#95 ∧
  ((∃ i : Fin Config.domainSize,
      hist[i] ≠ 0#32 ∧ t.nodeAt j = { leafNode hist i with insertedAt := (t.nodeAt j).insertedAt }) ∨
   ((t.nodeAt j).left.toNat < j ∧ (t.nodeAt j).right.toNat < j ∧
    (t.nodeAt j).left ≠ (t.nodeAt j).right ∧
    (t.nodeAt j).symbolSet = (t.nodeAt (t.nodeAt j).left.toNat).symbolSet |||
      (t.nodeAt (t.nodeAt j).right.toNat).symbolSet ∧
    (t.nodeAt (t.nodeAt j).left.toNat).symbolSet &&&
      (t.nodeAt (t.nodeAt j).right.toNat).symbolSet = 0#95 ∧
    (t.nodeAt j).weight.toNat = (t.nodeAt (t.nodeAt j).left.toNat).weight.toNat +
      (t.nodeAt (t.nodeAt j).right.toNat).weight.toNat))

/-- Every appended node is sound and the other slots are unused. -/
abbrev State.TreeSound (s : State) : Prop :=
  s.tree.RestUnused ∧ ∀ j < s.tree.size.toNat, s.tree.NodeSound s.hist j

/-! ### The phases -/

/-- A heap node is a leaf not yet in the tree, or the node the tree holds at its index; its set is not
empty and its weight not 0 (41_heap.md R132, R133). -/
abbrev State.NodeHeld (s : State) (n : Node) : Prop :=
  n.symbolSet ≠ 0#95 ∧ n.weight ≠ 0#32 ∧
  ((∃ i : Fin Config.domainSize, s.hist[i] ≠ 0#32 ∧ n = leafNode s.hist i) ∨
   (n.insertedAt.toNat < s.tree.size.toNat ∧ s.tree.nodeAt n.insertedAt.toNat = n))

/-- The sets of the given nodes cover exactly the counted symbols (41_heap.md R133). -/
abbrev State.Covers (s : State) (ns : List Node) : Prop :=
  ∀ i : Fin Config.domainSize, s.hist[i] ≠ 0#32 ↔ ∃ n ∈ ns, memSet i n.symbolSet = true

/-- IDLE: "context initialised; nothing computed yet" (10_state.md R26, R51). -/
abbrev State.IdleSound (s : State) : Prop :=
  s.hist = zeroHist ∧ s.distinct = 0#7 ∧ s.heap = emptyHeap ∧ s.tree = emptyTree ∧ s.root = Config.none ∧
  s.code.bitlen = 0#32 ∧ s.out.count = 0#17

/-- COUNTED: HIST and DISTINCT hold a histogram; heap and tree are empty (10_state.md R26). -/
abbrev State.CountedSound (s : State) : Prop :=
  s.HistSound ∧ s.heap = emptyHeap ∧ s.tree = emptyTree ∧ s.root = Config.none

/-- HEAPED: the laws of 41_heap.md R129 to R133 and 42_tree.md R146, and the count behind the tree size
law: TREE_SIZE + the heap nodes not yet in the tree + HEAP_SIZE = 2·D. -/
abbrev State.HeapedSound (s : State) : Prop :=
  s.HistSound ∧ 1 ≤ s.heap.size.toNat ∧ s.heap.RestUnused ∧ s.heap.Ordered ∧
  (∀ n ∈ s.heap.occupied, s.NodeHeld n) ∧
  s.heap.occupied.Pairwise (fun a b => a.symbolSet &&& b.symbolSet = 0#95) ∧
  s.Covers s.heap.occupied ∧ (s.heap.occupied.map fun n => n.weight.toNat).sum = s.inputLen ∧
  s.TreeSound ∧
  s.tree.size.toNat + s.heap.newNodes + s.heap.size.toNat = 2 * distinctOf s.hist ∧
  (s.heap.size.toNat = 1 → s.tree.size = 0#8) ∧ s.root = Config.none

/-- BUILT and after: TREE is complete and ROOT is its last node (42_tree.md R150 to R152), kept in
HEAP[0] (R143). -/
abbrev State.BuiltSound (s : State) : Prop :=
  s.HistSound ∧ s.heap.size.toNat = 1 ∧ s.heap.RestUnused ∧ s.TreeSound ∧
  s.tree.size.toNat + 1 = 2 * distinctOf s.hist ∧ s.root.toNat + 1 = s.tree.size.toNat ∧
  s.heap.nodeAt 0 = s.tree.nodeAt s.root.toNat ∧
  (s.tree.nodeAt s.root.toNat).weight.toNat = s.inputLen ∧ s.Covers [s.tree.nodeAt s.root.toNat]

/-- The invariant of the whole block. -/
abbrev State.Inv (s : State) : Prop :=
  s.Basic ∧ s.Ranges ∧ (s.phase = .idle → s.IdleSound) ∧ (s.phase = .counted → s.CountedSound) ∧
  (s.phase = .heaped → s.HeapedSound) ∧
  (s.phase = .built ∨ s.phase = .encoded ∨ s.phase = .decoded ∨ s.phase = .done → s.BuiltSound)

/-! ### Notions of the statements -/

/-- The block has the turn (45_control.md R205, log entry 4): the outside's list is empty, or its next
entry gives the block the turn; `rest` is the list after the step. -/
abbrev State.BlockHasTurn (s : State) (rest : List Event) : Prop :=
  (s.events = [] ∧ rest = []) ∨ s.events = .block :: rest

/-- The next step resets the block (70_reset_and_hazards.md R250): rst_n goes low, or goes high from low. -/
abbrev State.ResetNext (s : State) : Prop :=
  (∃ rest, s.events = .resetLow :: rest) ∨ (∃ rest, s.events = .resetHigh :: rest ∧ s.rstN = false)

/-- One command after another: the second runs on the state the first leaves. -/
def thenExec (r : Host.Outcome State Fault Refusal) (i : Instr) : Host.Outcome State Fault Refusal :=
  match r with
  | .next t => exec i t
  | .fault f => .fault f
  | .refused why => .refused why

/-- The phase a command that completes without error leaves (10_state.md R27): `s` is the state before
it and `t` the state after it. -/
def phaseAfter (i : Instr) (s t : State) : Phase :=
  match i with
  | .nop => s.phase
  | .init => .idle
  | .run => .done
  | .count => .counted
  | .heapify => .heaped
  | .merge => if 1 < t.heap.size.toNat then .heaped else .built
  | .build => .built
  | .encode => .encoded
  | .decode => .decoded
  | .verify => .done

/-- The node reached from `n` by the turns of `code`, 0 left and 1 right (44_decode.md R185), passing
through nodes that are not leaves. -/
def follow (t : Tree) : Node → List Bool → Option Node
  | n, [] => some n
  | n, b :: rest =>
    if n.isLeaf then none
    else
      match t.slots[(if b then n.right else n.left).toNat]? with
      | some n' => follow t n' rest
      | none => none

/-- Exactly one child is NONE (00_scope.md R12), written out. -/
abbrev Node.OneChild (n : Node) : Prop := ¬ (n.left = 0xFF#8 ↔ n.right = 0xFF#8)

/-- CodeOf's descent for the symbol `i` from the node `r` takes the turns `p` and reaches `n`: at every node
passed, the turn is 0 exactly when the symbol is in the left child's set (43_encode.md R162). -/
def Tree.Leads (t : Tree) (i : Fin Config.domainSize) (r : Node) (p : List Bool) (n : Node) : Prop :=
  follow t r p = some n ∧
  ∀ q b, (q ++ [b]) <+: p →
    ∃ m l, follow t r q = some m ∧ t.slots[m.left.toNat]? = some l ∧ (b = false ↔ memSet i l.symbolSet = true)

/-- The code's bits as a number, first bit most significant (43_encode.md R168). -/
def codeValue (code : List Bool) : Nat := code.foldl (fun v b => 2 * v + b.toNat) 0

/-- The two-fragment packing of a code of at most 32 bits (43_encode.md R168). -/
def packFragments (c : CodeStream) (code : List Bool) : CodeStream :=
  let o := c.bitlen.toNat
  let r := 32 - o % 32
  let len := code.length
  let v := codeValue code
  { words :=
      if len ≤ r then c.words.modify (o / 32) fun w => w ||| BitVec.ofNat 32 (v <<< (r - len))
      else (c.words.modify (o / 32) fun w => w ||| BitVec.ofNat 32 (v >>> (len - r))).modify (o / 32 + 1)
        fun w => w ||| BitVec.ofNat 32 ((v % 2 ^ (len - r)) <<< (32 - (len - r)))
    bitlen := BitVec.ofNat 32 (o + len) }

/-- `codes` are the codes of the symbols of `bytes`, in order, in the tree of `s`: each byte is in the
domain and CodeOf gives its code (43_encode.md R162, R167). -/
def State.CodesOf (s : State) (bytes : List Byte) (codes : List (List Bool)) : Prop :=
  codes.length = bytes.length ∧
  ∀ k c, bytes[k]? = some c →
    ∃ i code, domainIndex c = some i ∧ codes[k]? = some code ∧ codeOf s.tree s.root i k = .ok code

/-- `codes` are codes of the symbols `is` in the tree of `s`, in order (43_encode.md R162). -/
def State.CodesFor (s : State) (is : List (Fin Config.domainSize)) (codes : List (List Bool)) : Prop :=
  codes.length = is.length ∧
  ∀ (k : Nat) (i : Fin Config.domainSize), is[k]? = some i → ∃ code k', codes[k]? = some code ∧ codeOf s.tree s.root i k' = .ok code

/-- The stream of CODEBUF starts with `bits` (43_encode.md R166). -/
def StreamStarts (words : List Word) (bits : List Bool) : Prop :=
  ∀ o < bits.length, bitRead words o = bits[o]?

/-- The bytes of the symbols `is` (44_decode.md R183). -/
def symbolBytes (is : List (Fin Config.domainSize)) : List Byte := is.map fun i => symbolByte i.val

/-- The word offset is an INBUF word's (20_memory.md R61). -/
abbrev State.InbufOffset (s : State) (off : Nat) : Prop :=
  0x10000 ≤ off ∧ off < 0x10000 + 4 * ((s.inputLen + 3) / 4)

/-- The word offset is an OUTBUF word's (20_memory.md R61). -/
abbrev State.OutbufOffset (s : State) (off : Nat) : Prop :=
  0x20000 ≤ off ∧ off < 0x20000 + 4 * ((s.inputLen + 3) / 4)

/-- The word offset is a CODEBUF word's (20_memory.md R61). -/
abbrev State.CodeOffset (s : State) (off : Nat) : Prop :=
  0x100000 ≤ off ∧ off < 0x100000 + 4 * s.codeWords

/-- The offset is a register's, or one of HIST, HEAP or TREE (20_memory.md R61). -/
abbrev StateOffset (off : Nat) : Prop :=
  off < 0x34 ∨ (0x400 ≤ off ∧ off < 0x57C) ∨ (0x1000 ≤ off ∧ off < 0x1BE0) ∨ (0x2000 ≤ off ∧ off < 0x37A0)

/-- The host may write the offset: "exactly CMD, the INBUF words and the CODEBUF words" (R66). -/
abbrev State.HostWritable (s : State) (off : Nat) : Prop :=
  off = 0x10 ∨ s.InbufOffset off ∨ s.CodeOffset off

/-- The offset is reserved: the ranges of R61 between the regions. -/
abbrev State.ReservedOffset (s : State) (off : Nat) : Prop :=
  off < 0x200000 ∧ ¬ StateOffset off ∧ ¬ s.InbufOffset off ∧ ¬ s.OutbufOffset off ∧ ¬ s.CodeOffset off

end Sys2Proof.Machine
end

