-- ==== Sys2Proof/Certificates/Slice0/Obligations.lean ====
section
/-!
DEFINITION. The statements about the block, each from the rules of spec/ that its docstring cites.
-/

open Sys2Proof Sys2Proof.Machine

/-! ### Encoding, and which command a step runs -/

/-- R92, R93: the word of every command decodes to that command. -/
def Obligations.CommandWordsDecodeBack : Prop :=
  ∀ i : Instr, decodeWord (encodeWord i) = .legal i

/-- R93: a word is legal exactly when c[31:8] = 0 and c[7:0] ≤ 0x09, and it then is the word of the row
with that opcode; every other word is illegal. -/
def Obligations.DecodeIsTheOpcodeMap : Prop :=
  ∀ c : Word,
    (∀ i, decodeWord c = .legal i ↔ c.extractLsb' 8 24 = 0#24 ∧ c.extractLsb' 0 8 = opcode i) ∧
    ((∃ i, decodeWord c = .legal i) ↔ c.extractLsb' 8 24 = 0#24 ∧ c.extractLsb' 0 8 ≤ 0x09#8) ∧
    ((∃ why, decodeWord c = .illegal why) ↔ ¬ (c.extractLsb' 8 24 = 0#24 ∧ c.extractLsb' 0 8 ≤ 0x09#8))

/-- R92, R94: the words of all ten commands written out, a reserved opcode and a word with a reserved bit
set. -/
def Obligations.SpecWordsDecode : Prop :=
  decodeWord 0b00000000000000000000000000000000#32 = .legal .nop ∧
  decodeWord 0b00000000000000000000000000000001#32 = .legal .init ∧
  decodeWord 0b00000000000000000000000000000010#32 = .legal .count ∧
  decodeWord 0b00000000000000000000000000000011#32 = .legal .heapify ∧
  decodeWord 0b00000000000000000000000000000100#32 = .legal .merge ∧
  decodeWord 0b00000000000000000000000000000101#32 = .legal .build ∧
  decodeWord 0b00000000000000000000000000000110#32 = .legal .encode ∧
  decodeWord 0b00000000000000000000000000000111#32 = .legal .decode ∧
  decodeWord 0b00000000000000000000000000001000#32 = .legal .verify ∧
  decodeWord 0b00000000000000000000000000001001#32 = .legal .run ∧
  decodeWord 0b00000000000000000000000000001010#32 = .illegal .unassignedOpcode ∧
  decodeWord 0b00000000000000000000000100000010#32 = .illegal .reservedBits

/-- R200: when PENDING holds the word of a command and the block has the turn (no event is left, or the
next one gives it the turn), the step is exec of that command followed by the completion. -/
def Obligations.StepRunsTheDecodedCommand : Prop :=
  ∀ (s : State) (c : Word) (i : Instr) (rest : List Event), s.BlockHasTurn rest → s.rstN = true →
    s.pending = some c → decodeWord c = .legal i →
    step s = completed (exec i { s with events := rest }) ∧
    (∀ t, completed (.next t) = .next { t with pending := none, busy := false }) ∧
    (∀ f, completed (.fault f) = .fault f) ∧ (∀ why, completed (.refused why) = .refused why)

/-- R95: an illegal word in a phase other than ERROR raises ILLEGAL_CMD, never SEQUENCE, whatever the
phase. -/
def Obligations.IllegalWordRaisesIllegalCmd : Prop :=
  ∀ (s : State) (c : Word) (why : Reject) (rest : List Event), s.BlockHasTurn rest → s.rstN = true →
    s.pending = some c → decodeWord c = .illegal why → s.phase ≠ .error →
    step s = .next { s with errCode := .illegalCmd, errInfo := c, errOp := c.extractLsb' 0 8, phase := .error,
                            pending := none, busy := false, events := rest }

/-- R27, R200, R228: in ERROR the component commands and the illegal words are discarded. -/
def Obligations.ErrorPhaseDiscards : Prop :=
  (∀ (i : Instr) (s : State) (p : Phase), requiredPhase i = some p → s.phase = .error → exec i s = .next s) ∧
  (∀ (s : State) (c : Word) (why : Reject) (rest : List Event), s.BlockHasTurn rest → s.rstN = true →
    s.pending = some c → decodeWord c = .illegal why → s.phase = .error →
    step s = .next { s with pending := none, busy := false, events := rest })

/-- R27, R223, R225: a component command outside its required phase raises SEQUENCE with the phase found,
and changes nothing but the error registers and PHASE. The numbers of the phases are written out in
StatusWordFields. -/
def Obligations.WrongPhaseRaisesSequence : Prop :=
  ∀ (i : Instr) (s : State) (p : Phase), requiredPhase i = some p → s.phase ≠ p → s.phase ≠ .error →
    exec i s = .next { s with errCode := .sequence, errOp := opcode i,
                              errInfo := s.phase.value.setWidth 32, phase := .error }

/-- R27: the phase machine. The premise on MERGE is R146: HEAP_SIZE ≥ 1 in HEAPED. -/
def Obligations.PhaseAfterCommand : Prop :=
  ∀ (i : Instr) (s t : State), (i = .merge → 1 ≤ s.heap.size.toNat) → exec i s = .next t →
    (requiredPhase i = none → t.phase = phaseAfter i s t ∨ (i = .run ∧ t.phase = .error)) ∧
    (∀ p, requiredPhase i = some p →
      (s.phase = .error ∧ t = s) ∨
      (s.phase ≠ .error ∧ s.phase ≠ p ∧ t.phase = .error ∧ t.errCode = .sequence) ∨
      (s.phase = p ∧ (t.phase = .error ∨ t.phase = phaseAfter i s t)))

/-- R244: with PENDING invalid the block does nothing and keeps all state; its turn is over. The clause for
rst_n low, where a word stands in PENDING too, is the model's choice and no rule of the spec (log entry 3):
R250 and R252 abandon the pending command and give the state only once rst_n is high again. -/
def Obligations.IdleBlockKeepsState : Prop :=
  ∀ (s : State) (rest : List Event), s.BlockHasTurn rest → (s.pending = none ∨ s.rstN = false) →
    step s = .next { s with events := rest }

/-! ### NOP and INIT -/

/-- R201: NOP leaves everything as it is, in every phase; written while BUSY it sets OVERRUN. -/
def Obligations.NopChangesNothing : Prop :=
  (∀ s : State, exec .nop s = .next s) ∧
  (∀ s : State, s.busy = true → s.hostWrite 0x010 (encodeWord .nop) = { s with overrun := true })

/-- R202: INIT completes in every state and leaves the INIT values of R51; PENDING, BUSY, INBUF and what
is outside the block stay. -/
def Obligations.InitLeavesInitValues : Prop :=
  ∀ s : State, exec .init s = .next
    { s with
      hist := Vector.replicate 95 0#32
      distinct := 0#7
      heap :=
        { slots := Vector.replicate 95
            { symbolSet := 0#95, weight := 0xFFFFFFFF#32, left := 0xFF#8, right := 0xFF#8, insertedAt := 0xFF#8 }
          size := 0#7 }
      tree :=
        { slots := Vector.replicate 189
            { symbolSet := 0#95, weight := 0xFFFFFFFF#32, left := 0xFF#8, right := 0xFF#8, insertedAt := 0xFF#8 }
          size := 0#8 }
      root := 0xFF#8
      code := { words := List.replicate s.code.words.length 0#32, bitlen := 0#32 }
      out := { bytes := List.replicate s.inbuf.length 0#8, count := 0#17 }
      errCode := .noError
      errOp := 0#8
      errInfo := 0#32
      overrun := false
      phase := .idle }

/-! ### COUNT -/

/-- R110, R111, R112: on an INBUF inside the domain, with HIST zero as IDLE has it, COUNT completes;
HIST[i] is the number of positions holding 0x20 + i, the counters sum to N, DISTINCT counts the nonzero
ones and lies in 1..min(N, 95), and nothing else changes but PHASE. -/
def Obligations.CountMakesTheHistogram : Prop :=
  ∀ s : State, s.phase = .idle → s.hist = Vector.replicate 95 0#32 → (∀ c ∈ s.inbuf, 0x20 ≤ c.toNat ∧ c.toNat ≤ 0x7E) →
    1 ≤ s.inbuf.length → s.inbuf.length ≤ 65536 →
    ∃ t, exec .count s = .next t ∧
      t = { s with hist := t.hist, distinct := t.distinct, phase := .counted } ∧
      (∀ i : Fin 95, t.hist[i].toNat = s.inbuf.count (BitVec.ofNat 8 (0x20 + i.val))) ∧
      ((List.finRange 95).map fun i => t.hist[i].toNat).sum = s.inbuf.length ∧
      t.distinct.toNat = (List.finRange 95).countP (fun i => decide (0 < t.hist[i].toNat)) ∧
      1 ≤ t.distinct.toNat ∧ t.distinct.toNat ≤ min s.inbuf.length 95

/-- R110, R225: at the first byte outside the domain COUNT raises DOMAIN with its position; HIST holds the
counts of the earlier positions and DISTINCT is unchanged. -/
def Obligations.CountStopsAtTheFirstBadByte : Prop :=
  ∀ (s : State) (k : Nat) (c : Byte), s.phase = .idle → s.hist = Vector.replicate 95 0#32 → s.inbuf.length ≤ 65536 →
    s.inbuf[k]? = some c → ¬ (0x20 ≤ c.toNat ∧ c.toNat ≤ 0x7E) →
    (∀ d ∈ s.inbuf.take k, 0x20 ≤ d.toNat ∧ d.toNat ≤ 0x7E) →
    ∃ t, exec .count s = .next t ∧
      t = { s with hist := t.hist, errCode := .domain, errOp := 0x02#8, errInfo := BitVec.ofNat 32 k,
                   phase := .error } ∧
      (∀ i : Fin 95, t.hist[i].toNat = (s.inbuf.take k).count (BitVec.ofNat 8 (0x20 + i.val)))

/-! ### The heap -/

/-- R128, R129: HEAPIFY completes from every COUNTED state. The occupied slots are a rearrangement of the
leaves of the counted symbols, HEAP_SIZE is their number, every key is larger than its parent's, the
slots from HEAP_SIZE on stay, and nothing else changes but PHASE. -/
def Obligations.HeapifyBuildsTheHeap : Prop :=
  ∀ s : State, s.phase = .counted →
    ∃ t, exec .heapify s = .next t ∧ t = { s with heap := t.heap, phase := .heaped } ∧
      t.heap.size.toNat = distinctOf s.hist ∧ t.heap.occupied.Perm (leaves s.hist) ∧ t.heap.Sound ∧
      (∀ j, distinctOf s.hist ≤ j → t.heap.slots[j]? = s.heap.slots[j]?)

/-- R126, R129: HeapPop of a sound, nonempty heap removes and returns the node of least key, leaves a
sound heap one smaller, and the vacated last slot unused. -/
def Obligations.PopReturnsTheLeast : Prop :=
  ∀ h : Heap, h.Sound → 1 ≤ h.size.toNat →
    ∃ n h', heapPop h = .ok n h' ∧ h'.Sound ∧ h'.size.toNat + 1 = h.size.toNat ∧
      h.occupied.Perm (n :: h'.occupied) ∧ (∀ m ∈ h'.occupied, keyBelow n m = true) ∧
      h'.nodeAt (h.size.toNat - 1) = unusedNode ∧
      (∀ j, h.size.toNat ≤ j → h'.slots[j]? = h.slots[j]?)

/-- R127, R129: HeapInsert of a node with a nonempty set and a new key into a sound heap with room leaves
a sound heap one larger that holds the node besides the old ones. -/
def Obligations.InsertKeepsTheHeap : Prop :=
  ∀ (h : Heap) (n : Node), h.Sound → h.size.toNat ≤ 94 → n.symbolSet ≠ 0#95 →
    (∀ m ∈ h.occupied, keyOf m ≠ keyOf n) →
    ∃ h', heapInsert n h = .ok () h' ∧ h'.Sound ∧ h'.size.toNat = h.size.toNat + 1 ∧
      h'.occupied.Perm (n :: h.occupied) ∧
      (∀ j, h.size.toNat + 1 ≤ j → h'.slots[j]? = h.slots[j]?)

/-! ### MERGE and BUILD -/

/-- R144, R27: MERGE completes without error from every sound HEAPED state; it lowers HEAP_SIZE by one, or
only finalises when it is 1, and PHASE becomes BUILT when one node is left. -/
def Obligations.MergeCompletes : Prop :=
  ∀ s : State, s.Inv → s.phase = .heaped →
    ∃ t, exec .merge s = .next t ∧ t.errCode = .noError ∧
      t.heap.size.toNat = max 1 (s.heap.size.toNat - 1) ∧
      t.phase = (if 2 < s.heap.size.toNat then .heaped else .built)

/-- R140, R141, R142: with two nodes or more, MERGE takes the two nodes `a`, `b` of least key out of the
heap, and puts in their merge node `m`, whose set is the union, whose weight is the sum, and whose left
and right children are the tree's copies of `a` and `b`; `m` is the last node of TREE. A new `a` is
appended at the old TREE_SIZE, a new `b` after it (at the old TREE_SIZE when `a` is not new), and a node
already in TREE keeps its index. -/
def Obligations.MergeJoinsTheTwoLeast : Prop :=
  ∀ s : State, s.Inv → s.phase = .heaped → 2 ≤ s.heap.size.toNat →
    ∃ t a b m rest, exec .merge s = .next t ∧
      s.heap.occupied.Perm (a :: b :: rest) ∧ keyBelow a b = true ∧ (∀ x ∈ rest, keyBelow b x = true) ∧
      t.heap.occupied.Perm (m :: rest) ∧
      m.symbolSet = a.symbolSet ||| b.symbolSet ∧ m.weight = a.weight + b.weight ∧
      t.tree.nodeAt m.left.toNat = { a with insertedAt := m.left } ∧
      t.tree.nodeAt m.right.toNat = { b with insertedAt := m.right } ∧
      t.tree.nodeAt m.insertedAt.toNat = m ∧ m.insertedAt.toNat + 1 = t.tree.size.toNat ∧
      (a.insertedAt = 0xFF#8 → m.left = s.tree.size) ∧
      (a.insertedAt ≠ 0xFF#8 → m.left = a.insertedAt) ∧
      (b.insertedAt = 0xFF#8 → a.insertedAt = 0xFF#8 → m.right.toNat = s.tree.size.toNat + 1) ∧
      (b.insertedAt = 0xFF#8 → a.insertedAt ≠ 0xFF#8 → m.right = s.tree.size) ∧
      (b.insertedAt ≠ 0xFF#8 → m.right = b.insertedAt) ∧
      t.tree.size.toNat = s.tree.size.toNat + (if a.insertedAt = 0xFF#8 then 1 else 0) +
        (if b.insertedAt = 0xFF#8 then 1 else 0) + 1

/-- R153, R143: with one leaf in the heap and an empty tree (D = 1), MERGE and BUILD only finalise: the
leaf is appended at TREE[0] and kept in HEAP[0], ROOT = 0, TREE_SIZE = 1, PHASE = BUILT. -/
def Obligations.LoneLeafIsFinalised : Prop :=
  ∀ (s : State) (n : Node), s.phase = .heaped → s.heap.size = 1#7 → s.heap.slots[0]? = some n →
    n.insertedAt = 0xFF#8 → s.tree.size = 0#8 →
    ∀ i, i = .merge ∨ i = .build →
    exec i s = .next
      { s with
        heap := { s.heap with slots := s.heap.slots.setIfInBounds 0 { n with insertedAt := 0#8 } }
        tree := { slots := s.tree.slots.setIfInBounds 0 { n with insertedAt := 0#8 }, size := 1#8 }
        root := 0#8
        phase := .built }

/-- R145: BUILD after a MERGE gives the same state as BUILD alone. -/
def Obligations.BuildIsRepeatedMerge : Prop :=
  ∀ s t : State, s.phase = .heaped → exec .merge s = .next t → t.phase = .heaped → exec .build s = exec .build t

/-- R145, R150: BUILD completes without error from every sound HEAPED state, with TREE_SIZE = 2·D − 1,
ROOT = TREE_SIZE − 1, one node left in the heap, and PHASE = BUILT. -/
def Obligations.BuildFinishesTheTree : Prop :=
  ∀ s : State, s.Inv → s.phase = .heaped →
    ∃ t, exec .build s = .next t ∧ t.phase = .built ∧ t.errCode = .noError ∧ t.heap.size = 1#7 ∧
      t.tree.size.toNat + 1 = 2 * s.distinct.toNat ∧ t.root.toNat + 1 = t.tree.size.toNat ∧
      t.distinct = s.distinct ∧ t.hist = s.hist

/-! ### Codes -/

/-- R162, R174: when CodeOf gives a code, either the root is the symbol's leaf and the code is the single
bit 0, or the root is internal and the code is the path to the symbol's leaf: each bit is 0 exactly when
the symbol is in the left child's set. -/
def Obligations.CodeOfFollowsTheTree : Prop :=
  ∀ (t : Tree) (root : Index) (i : Fin 95) (k : Nat) (code : List Bool), codeOf t root i k = .ok code →
    ∃ r, t.slots[root.toNat]? = some r ∧
      ((r.isLeaf = true ∧ r.symbolSet = singletonSet i ∧ code = [false]) ∨
       (r.isLeaf = false ∧
        (∃ leaf, follow t r code = some leaf ∧ leaf.isLeaf = true ∧ leaf.symbolSet = singletonSet i) ∧
        ∀ p b, (p ++ [b]) <+: code →
          ∃ n l, follow t r p = some n ∧ n.isLeaf = false ∧ t.slots[n.left.toNat]? = some l ∧
            (b = false ↔ memSet i l.symbolSet = true)))

/-- R155: with an internal root, no symbol's code is a prefix of another symbol's code. -/
def Obligations.PrefixFreeCodes : Prop :=
  ∀ (t : Tree) (root : Index) (r : Node) (i j : Fin 95) (k k' : Nat) (ci cj : List Bool),
    t.slots[root.toNat]? = some r → r.isLeaf = false →
    codeOf t root i k = .ok ci → codeOf t root j k' = .ok cj → i ≠ j → ¬ ci <+: cj

/-- R164, R173: in a sound state whose tree is built, CodeOf gives every counted symbol a code of length at
most L_MAX(N), and raises SYMBOL_ABSENT for every other symbol. -/
def Obligations.CodeOfFindsCountedSymbols : Prop :=
  ∀ (s : State) (i : Fin 95) (k : Nat), s.Inv →
    (s.phase = .built ∨ s.phase = .encoded ∨ s.phase = .decoded ∨ s.phase = .done) →
    (s.hist[i] ≠ 0#32 →
      ∃ code, codeOf s.tree s.root i k = .ok code ∧ 1 ≤ code.length ∧
        code.length ≤ max 1 (min 94 (s.inputLen - 1))) ∧
    (s.hist[i] = 0#32 →
      codeOf s.tree s.root i k = .error (.raise { code := .symbolAbsent, info := BitVec.ofNat 32 k }))

/-- R156: in the tree HEAPIFY and BUILD make of a sound histogram, a symbol counted more often has a code
no longer than a symbol counted less often. -/
def Obligations.FrequentSymbolsHaveShorterCodes : Prop :=
  ∀ (s t u : State) (i j : Fin 95) (k k' : Nat) (ci cj : List Bool), s.Inv → s.phase = .counted →
    exec .heapify s = .next t → exec .build t = .next u →
    codeOf u.tree u.root i k = .ok ci → codeOf u.tree u.root j k' = .ok cj →
    s.hist[j].toNat < s.hist[i].toNat → ci.length ≤ cj.length

/-! ### ENCODE -/

/-- R168: for every code of length ≤ 32, on a buffer whose unwritten bits are 0, the two-fragment form
writes exactly the bits Pack writes. -/
def Obligations.PackEqualsFragments : Prop :=
  ∀ (c : CodeStream) (code : List Bool), code.length ≤ 32 →
    c.bitlen.toNat + code.length ≤ 32 * c.words.length → 32 * c.words.length < 2 ^ 32 →
    (∀ o, c.bitlen.toNat ≤ o → o < 32 * c.words.length → bitRead c.words o = some false) →
    pack c code = packFragments c code

/-- R160, R167, R170: when every byte has a code and the codes fit, ENCODE completes; BITLEN is the sum of
their lengths, the stream holds their concatenation and 0 after it, and nothing else changes but PHASE. -/
def Obligations.EncodePacksAllCodes : Prop :=
  ∀ (s : State) (codes : List (List Bool)), s.phase = .built → s.CodesOf s.inbuf codes →
    codes.flatten.length ≤ s.codeWords * 32 → s.codeWords * 32 < 2 ^ 32 →
    ∃ t, exec .encode s = .next t ∧ t = { s with code := t.code, phase := .encoded } ∧
      t.code.words.length = s.codeWords ∧ t.code.bitlen.toNat = codes.flatten.length ∧
      ∀ o < s.codeWords * 32, bitRead t.code.words o = some (codes.flatten.getD o false)

/-- R160, R161, R163, R164, R167, R169, R225: at the first position k whose byte is outside the domain, whose
descent meets a node with exactly one NONE child (within the 189 slots of TREE, which a descent that ends
passes at most once each), whose CodeOf raises, or whose code does not fit, ENCODE takes that error with k;
CodeOf raises nothing but TREE_CORRUPT and SYMBOL_ABSENT, with k. The stream holds the earlier codes and 0
after them. -/
def Obligations.EncodeStopsAtTheFirstError : Prop :=
  ∀ (s : State) (k : Nat) (c : Byte) (codes : List (List Bool)) (r : Raise), s.phase = .built →
    s.inbuf[k]? = some c → s.CodesOf (s.inbuf.take k) codes →
    codes.flatten.length ≤ s.codeWords * 32 → s.codeWords * 32 < 2 ^ 32 →
    ((domainIndex c = none ∧ r = { code := .domain, info := BitVec.ofNat 32 k }) ∨
     (∃ i root p n, domainIndex c = some i ∧ s.tree.slots[s.root.toNat]? = some root ∧
       s.tree.Leads i root p n ∧ p.length ≤ 188 ∧ n.OneChild ∧
       r = { code := .treeCorrupt, info := BitVec.ofNat 32 k }) ∨
     (∃ i, domainIndex c = some i ∧ codeOf s.tree s.root i k = .error (.raise r)) ∨
     (∃ i code, domainIndex c = some i ∧ codeOf s.tree s.root i k = .ok code ∧
       s.codeWords * 32 < codes.flatten.length + code.length ∧
       r = { code := .capacity, info := BitVec.ofNat 32 k })) →
    (∃ t, exec .encode s = .next t ∧
      t = { s with code := t.code, errCode := r.code, errOp := 0x06#8, errInfo := BitVec.ofNat 32 k,
                   phase := .error } ∧
      t.code.words.length = s.codeWords ∧ t.code.bitlen.toNat = codes.flatten.length ∧
      ∀ o < s.codeWords * 32, bitRead t.code.words o = some (codes.flatten.getD o false)) ∧
    r.info = BitVec.ofNat 32 k ∧
    (∀ i, codeOf s.tree s.root i k = .error (.raise r) → r.code = .treeCorrupt ∨ r.code = .symbolAbsent)

/-- R172: when HIST counts INBUF, a complete ENCODE leaves BITLEN = Σ HIST[i] · len(code(i)). -/
def Obligations.BitLengthConservation : Prop :=
  ∀ (s t : State) (len : Fin 95 → Nat), s.phase = .built → s.codeWords * 32 < 2 ^ 32 →
    (∀ i : Fin 95, s.hist[i].toNat = s.inbuf.count (BitVec.ofNat 8 (0x20 + i.val))) →
    (∀ i k code, codeOf s.tree s.root i k = .ok code → code.length = len i) →
    exec .encode s = .next t → t.phase = .encoded →
    t.code.bitlen.toNat = ((List.finRange 95).map fun i => s.hist[i].toNat * len i).sum

/-! ### DECODE and VERIFY -/

/-- R180, R182, R183, R187: when the stream is exactly the codes of at most N symbols in the state's own
tree, DECODE completes with those symbols at the front of OUTBUF, 0x00 after them, and DEC_COUNT their
number: all N of them in the round trip (R187), fewer when the host has rewritten CODEBUF. -/
def Obligations.DecodeInvertsEncode : Prop :=
  ∀ (s : State) (is : List (Fin 95)) (codes : List (List Bool)), s.phase = .encoded →
    s.root.toNat < 189 → is.length ≤ s.inputLen → s.inputLen ≤ 65536 → s.CodesFor is codes →
    s.code.bitlen.toNat = codes.flatten.length → StreamStarts s.code.words codes.flatten →
    exec .decode s = .next
      { s with
        out := { bytes := symbolBytes is ++ List.replicate (s.inputLen - is.length) 0#8
                 count := BitVec.ofNat 17 is.length }
        phase := .decoded }

/-- R182, overrun: a symbol decoded when DEC_COUNT = N already raises DECODE_CORRUPT with the bits consumed. -/
def Obligations.DecodeStopsOnSurplusSymbol : Prop :=
  ∀ (s : State) (is : List (Fin 95)) (codes : List (List Bool)), s.phase = .encoded →
    is.length = s.inputLen + 1 → s.inputLen ≤ 65536 → s.CodesFor is codes →
    codes.flatten.length ≤ s.code.bitlen.toNat → StreamStarts s.code.words codes.flatten →
    exec .decode s = .next
      { s with
        out := { bytes := symbolBytes (is.take s.inputLen), count := BitVec.ofNat 17 s.inputLen }
        errCode := .decodeCorrupt
        errOp := 0x07#8
        errInfo := BitVec.ofNat 32 codes.flatten.length
        phase := .error }

/-- R182, truncated code: a stream that ends inside a code raises DECODE_CORRUPT with ERR_INFO = BITLEN,
the earlier symbols in OUTBUF and 0x00 after them. Malformed node: the turns `p` from the root `r` to the
first node with exactly one NONE child raise DECODE_CORRUPT with the bits consumed. -/
def Obligations.DecodeStopsOnTruncatedCode : Prop :=
  (∀ (s : State) (is : List (Fin 95)) (codes : List (List Bool)) (i : Fin 95) (k : Nat) (code p : List Bool),
    s.phase = .encoded → is.length ≤ s.inputLen → s.inputLen ≤ 65536 → s.CodesFor is codes →
    codeOf s.tree s.root i k = .ok code → p <+: code → p ≠ code → p ≠ [] →
    s.code.bitlen.toNat = (codes.flatten ++ p).length → StreamStarts s.code.words (codes.flatten ++ p) →
    exec .decode s = .next
      { s with
        out := { bytes := symbolBytes is ++ List.replicate (s.inputLen - is.length) 0#8
                 count := BitVec.ofNat 17 is.length }
        errCode := .decodeCorrupt
        errOp := 0x07#8
        errInfo := s.code.bitlen
        phase := .error }) ∧
  (∀ (s : State) (is : List (Fin 95)) (codes : List (List Bool)) (r n : Node) (p : List Bool),
    s.phase = .encoded → is.length ≤ s.inputLen → s.inputLen ≤ 65536 → s.CodesFor is codes →
    s.tree.slots[s.root.toNat]? = some r → follow s.tree r p = some n → n.OneChild →
    (∀ q m, q <+: p → q ≠ p → follow s.tree r q = some m → ¬ m.OneChild) →
    codes.flatten.length < s.code.bitlen.toNat → (codes.flatten ++ p).length ≤ s.code.bitlen.toNat →
    StreamStarts s.code.words (codes.flatten ++ p) →
    exec .decode s = .next
      { s with
        out := { bytes := symbolBytes is ++ List.replicate (s.inputLen - is.length) 0#8
                 count := BitVec.ofNat 17 is.length }
        errCode := .decodeCorrupt
        errOp := 0x07#8
        errInfo := BitVec.ofNat 32 (codes.flatten ++ p).length
        phase := .error })

/-- R182, R184, bad lone-symbol bit: with a leaf root, each 0 bit gives the root's symbol, and a 1 bit
raises DECODE_CORRUPT with the bits consumed, that bit among them. -/
def Obligations.DecodeStopsOnLoneOne : Prop :=
  ∀ (s : State) (r : Node) (i m : Nat), s.phase = .encoded → s.tree.slots[s.root.toNat]? = some r →
    r.isLeaf = true → lsb r.symbolSet = some i → m ≤ s.inputLen → s.inputLen ≤ 65536 →
    m < s.code.bitlen.toNat → StreamStarts s.code.words (List.replicate m false ++ [true]) →
    exec .decode s = .next
      { s with
        out := { bytes := List.replicate m (BitVec.ofNat 8 (0x20 + i)) ++ List.replicate (s.inputLen - m) 0#8
                 count := BitVec.ofNat 17 m }
        errCode := .decodeCorrupt
        errOp := 0x07#8
        errInfo := BitVec.ofNat 32 (m + 1)
        phase := .error }

/-- R186: DEC_COUNT never exceeds N, since EmitSymbol raises DECODE_CORRUPT when it equals N. Also the
zero part of R188: OUTBUF from DEC_COUNT on is 0x00. -/
def Obligations.DecCountNeverExceedsN : Prop :=
  (∀ s t : State, s.phase = .encoded → s.inputLen ≤ 65536 → exec .decode s = .next t →
    t.out.count.toNat ≤ s.inputLen ∧ t.out.bytes.length = s.inputLen ∧
    ∀ k, t.out.count.toNat ≤ k → k < s.inputLen → t.out.bytes[k]? = some 0#8) ∧
  (∀ (n : Node) (o : Nat) (out : Output), out.count.toNat = out.bytes.length →
    emitSymbol n o out = .error (.raise { code := .decodeCorrupt, info := BitVec.ofNat 32 o }) out)

/-- R181: the decoder reads only stream offsets below BITLEN: another CODEBUF with the same bits below
BITLEN gives the same answer, CODEBUF itself apart. -/
def Obligations.DecoderReadsBelowBitlen : Prop :=
  ∀ (s : State) (words : List Word), s.phase = .encoded →
    (∀ o < s.code.bitlen.toNat, bitRead words o = bitRead s.code.words o) →
    (∀ t, exec .decode s = .next t →
      exec .decode { s with code := { s.code with words := words } } =
        .next { t with code := { s.code with words := words } }) ∧
    (∀ f, exec .decode s = .fault f →
      exec .decode { s with code := { s.code with words := words } } = .fault f)

/-- R190: VERIFY ends in DONE exactly when every position was decoded and equals INBUF's byte, and raises
MISMATCH with the first position that was not or does not; nothing else changes. -/
def Obligations.VerifyDecides : Prop :=
  (∀ s : State, s.phase = .decoded →
    (∀ k c, s.inbuf[k]? = some c → k < s.out.count.toNat ∧ s.out.bytes[k]? = some c) →
    exec .verify s = .next { s with phase := .done }) ∧
  (∀ (s : State) (k : Nat) (c : Byte), s.phase = .decoded → s.inbuf[k]? = some c →
    (s.out.count.toNat ≤ k ∨ s.out.bytes[k]? ≠ some c) →
    (∀ j < k, ∀ d, s.inbuf[j]? = some d → j < s.out.count.toNat ∧ s.out.bytes[j]? = some d) →
    exec .verify s = .next { s with errCode := .mismatch, errOp := 0x08#8, errInfo := BitVec.ofNat 32 k,
                                    phase := .error })

/-! ### RUN -/

/-- R203, R204: RUN answers what INIT, COUNT, HEAPIFY, BUILD, ENCODE, DECODE and VERIFY answer one after
the other; the first error stops it. -/
def Obligations.RunIsTheSevenCommands : Prop :=
  ∀ s : State, exec .run s =
    thenExec (thenExec (thenExec (thenExec (thenExec (thenExec (exec .init s) .count) .heapify) .build)
      .encode) .decode) .verify

/-- R187, R203, R173: from any state of a legal instance with CODE_WORDS ≥ CODE_WORDS_MIN(N), RUN on an
INBUF inside the domain completes in DONE with OUTBUF = INBUF, DEC_COUNT = N and no error. -/
def Obligations.RunRoundTrip : Prop :=
  ∀ s : State, 1 ≤ s.inputLen → s.inputLen ≤ 65536 → s.codeWords ≤ 262144 →
    Config.minCodeWords s.inputLen ≤ s.codeWords →
    (∀ c ∈ s.inbuf, 0x20 ≤ c.toNat ∧ c.toNat ≤ 0x7E) →
    ∃ t, exec .run s = .next t ∧ t.phase = .done ∧ t.out.bytes = s.inbuf ∧
      t.out.count.toNat = s.inputLen ∧ t.errCode = .noError ∧ t.errOp = 0#8 ∧ t.errInfo = 0#32 ∧
      t.overrun = false ∧ t.inbuf = s.inbuf

/-- R203: from any state of a legal instance, RUN completes in DONE with OUTBUF = INBUF, or with DOMAIN
raised by COUNT at the first byte outside the domain, or with CAPACITY raised by ENCODE. -/
def Obligations.RunEndsInThreeWays : Prop :=
  ∀ s : State, 1 ≤ s.inputLen → s.inputLen ≤ 65536 → s.codeWords ≤ 262144 →
    ∃ t, exec .run s = .next t ∧
      ((t.phase = .done ∧ t.out.bytes = s.inbuf ∧ t.out.count.toNat = s.inputLen) ∨
       (t.phase = .error ∧ t.errCode = .domain ∧ t.errOp = 0x02#8 ∧
        ∃ k c, s.inbuf[k]? = some c ∧ ¬ (0x20 ≤ c.toNat ∧ c.toNat ≤ 0x7E) ∧
          (∀ d ∈ s.inbuf.take k, 0x20 ≤ d.toNat ∧ d.toNat ≤ 0x7E) ∧ t.errInfo = BitVec.ofNat 32 k) ∨
       (t.phase = .error ∧ t.errCode = .capacity ∧ t.errOp = 0x06#8 ∧
        (∀ c ∈ s.inbuf, 0x20 ≤ c.toNat ∧ c.toNat ≤ 0x7E)))

/-! ### Frames -/

/-- R45, R22, R30: no command writes INBUF, PENDING, BUSY, the instance's parameters or anything outside
the block. -/
def Obligations.CommandsKeepInbuf : Prop :=
  ∀ (i : Instr) (s t : State), exec i s = .next t →
    t.inbuf = s.inbuf ∧ t.codeWords = s.codeWords ∧ t.base = s.base ∧ t.rstN = s.rstN ∧
    t.pending = s.pending ∧ t.busy = s.busy ∧ t.events = s.events ∧ t.readData = s.readData ∧
    t.draws = s.draws

/-- R110, R128: COUNT writes only HIST and DISTINCT, HEAPIFY only HEAP and HEAP_SIZE, besides PHASE and
the error registers. -/
def Obligations.CountAndHeapifyFrame : Prop :=
  (∀ s t : State, exec .count s = .next t →
    t = { s with hist := t.hist, distinct := t.distinct, phase := t.phase, errCode := t.errCode,
                 errOp := t.errOp, errInfo := t.errInfo }) ∧
  (∀ s t : State, exec .heapify s = .next t →
    t = { s with heap := t.heap, phase := t.phase, errCode := t.errCode, errOp := t.errOp,
                 errInfo := t.errInfo })

/-- R44, R140, R144, R145: MERGE and BUILD write only HEAP, HEAP_SIZE, TREE, TREE_SIZE and ROOT, besides
PHASE and the error registers, and no TREE slot below TREE_SIZE. -/
def Obligations.MergeAndBuildFrame : Prop :=
  ∀ (i : Instr) (s t : State), i = .merge ∨ i = .build → exec i s = .next t →
    t = { s with heap := t.heap, tree := t.tree, root := t.root, phase := t.phase, errCode := t.errCode,
                 errOp := t.errOp, errInfo := t.errInfo } ∧
    s.tree.size.toNat ≤ t.tree.size.toNat ∧
    (∀ j < s.tree.size.toNat, t.tree.slots[j]? = s.tree.slots[j]?) ∧
    (∀ j, t.tree.size.toNat ≤ j → t.tree.slots[j]? = s.tree.slots[j]?)

/-- R160, R180, R190: ENCODE writes only CODEBUF and BITLEN, DECODE only OUTBUF and DEC_COUNT, VERIFY
neither, besides PHASE and the error registers. -/
def Obligations.StreamCommandsFrame : Prop :=
  (∀ s t : State, exec .encode s = .next t →
    t = { s with code := t.code, phase := t.phase, errCode := t.errCode, errOp := t.errOp,
                 errInfo := t.errInfo }) ∧
  (∀ s t : State, exec .decode s = .next t →
    t = { s with out := t.out, phase := t.phase, errCode := t.errCode, errOp := t.errOp,
                 errInfo := t.errInfo }) ∧
  (∀ s t : State, exec .verify s = .next t →
    t = { s with phase := t.phase, errCode := t.errCode, errOp := t.errOp, errInfo := t.errInfo })

/-- R25: OVERRUN is set by a host write to CMD, INBUF or CODEBUF during BUSY, which has no other effect;
in a step it goes from 1 to 0 only by INIT, RUN or reset. No command reads it: with another OVERRUN a
command answers the same, but for OVERRUN, which INIT and RUN clear and every other command keeps. -/
def Obligations.OverrunIsSticky : Prop :=
  (∀ (s : State) (off : Nat) (v : Word), s.params.legal = true → s.busy = true → off % 4 = 0 → s.HostWritable off →
    s.hostWrite off v = { s with overrun := true }) ∧
  (∀ s t : State, step s = .next t → s.overrun = true → t.overrun = false →
    s.ResetNext ∨
    ((∃ rest, s.BlockHasTurn rest) ∧ s.rstN = true ∧
      (s.pending = some (encodeWord .init) ∨ s.pending = some (encodeWord .run)))) ∧
  (∀ (i : Instr) (s : State) (b : Bool),
    (∀ t, exec i s = .next t →
      exec i { s with overrun := b } =
        .next { t with overrun := if i = .init ∨ i = .run then false else b }) ∧
    (∀ f, exec i s = .fault f → exec i { s with overrun := b } = .fault f))

/-! ### Errors -/

/-- R29: in a step the error registers are kept, or written by an error that the latched command raises,
or cleared by INIT, RUN or reset; in ERROR a command other than INIT and RUN keeps them. -/
def Obligations.ErrorRegistersKept : Prop :=
  ∀ s t : State, step s = .next t →
    (t.errCode = s.errCode ∧ t.errOp = s.errOp ∧ t.errInfo = s.errInfo) ∨
    ((∃ rest, s.BlockHasTurn rest) ∧ s.rstN = true ∧ s.pending.isSome = true ∧
      t.phase = .error ∧ t.errCode ≠ .noError ∧
      (s.phase ≠ .error ∨ s.pending = some (encodeWord .run))) ∨
    (t.errCode = .noError ∧ t.errOp = 0#8 ∧ t.errInfo = 0#32 ∧
      (s.ResetNext ∨
       ((∃ rest, s.BlockHasTurn rest) ∧ s.rstN = true ∧
        (s.pending = some (encodeWord .init) ∨ s.pending = some (encodeWord .run)))))

/-- R227: PHASE leaves ERROR only by INIT, by RUN or by reset, and each clears ERR_CODE, ERR_OP and
ERR_INFO. -/
def Obligations.LeavingErrorNeedsInitRunOrReset : Prop :=
  ∀ s t : State, step s = .next t → s.phase = .error → t.phase ≠ .error →
    t.errCode = .noError ∧ t.errOp = 0#8 ∧ t.errInfo = 0#32 ∧
    (s.ResetNext ∨
     ((∃ rest, s.BlockHasTurn rest) ∧ s.rstN = true ∧
       (s.pending = some (encodeWord .init) ∨ s.pending = some (encodeWord .run))))

/-- R220: host accesses never raise errors, and change neither PHASE nor the error registers. -/
def Obligations.HostAccessRaisesNoError : Prop :=
  ∀ (s : State) (a : Access) (t : State), s.hostAccess a = .next t →
    t.phase = s.phase ∧ t.errCode = s.errCode ∧ t.errOp = s.errOp ∧ t.errInfo = s.errInfo

/-! ### The host's accesses -/

/-- R23, R26, R221: the fields of STATUS, and the number of every PHASE and every ERR_CODE; the error fields
are 0 when PHASE ≠ ERROR in a state whose error record is sound. -/
def Obligations.StatusWordFields : Prop :=
  (∀ s : State,
    s.statusWord.getLsbD 0 = s.busy ∧ s.statusWord.getLsbD 1 = s.overrun ∧
    s.statusWord.getLsbD 2 = decide (s.phase = .error) ∧ s.statusWord.getLsbD 3 = decide (s.phase = .done) ∧
    s.statusWord.extractLsb' 4 4 = s.errCode.value ∧ s.statusWord.extractLsb' 8 4 = s.phase.value ∧
    s.statusWord.extractLsb' 12 4 = 0#4 ∧ s.statusWord.extractLsb' 16 8 = s.errOp ∧
    s.statusWord.extractLsb' 24 8 = 0#8 ∧
    (s.ErrorRecord → s.phase ≠ .error →
      s.statusWord.extractLsb' 4 4 = 0#4 ∧ s.statusWord.extractLsb' 16 8 = 0#8)) ∧
  (Phase.value .idle = 0#4 ∧ Phase.value .counted = 1#4 ∧ Phase.value .heaped = 2#4 ∧
    Phase.value .built = 3#4 ∧ Phase.value .encoded = 4#4 ∧ Phase.value .decoded = 5#4 ∧
    Phase.value .done = 6#4 ∧ Phase.value .error = 7#4) ∧
  (ErrCode.value .noError = 0#4 ∧ ErrCode.value .domain = 1#4 ∧ ErrCode.value .capacity = 2#4 ∧
    ErrCode.value .decodeCorrupt = 3#4 ∧ ErrCode.value .treeCorrupt = 4#4 ∧
    ErrCode.value .symbolAbsent = 5#4 ∧ ErrCode.value .mismatch = 6#4 ∧ ErrCode.value .sequence = 7#4 ∧
    ErrCode.value .illegalCmd = 8#4)

/-- R62: with BUSY = 0, a read of each register returns the value shown, a CMD write latches a command,
and a write to a read-only register is ignored. -/
def Obligations.RegisterBlock : Prop :=
  ∀ (s : State) (v : Word), s.busy = false →
    (s.hostRead 0x000).readData = 0x48554631#32 ∧
    (s.hostRead 0x004).readData = BitVec.ofNat 32 s.inbuf.length ∧
    (s.hostRead 0x008).readData = BitVec.ofNat 32 s.code.words.length ∧
    (s.hostRead 0x00C).readData = 0x7E20205F#32 ∧
    (s.hostRead 0x010).readData = 0#32 ∧
    (s.hostRead 0x014).readData = s.statusWord ∧
    (s.hostRead 0x018).readData = s.errInfo ∧
    (s.hostRead 0x01C).readData = s.distinct.setWidth 32 ∧
    (s.hostRead 0x020).readData = s.heap.size.setWidth 32 ∧
    (s.hostRead 0x024).readData = s.tree.size.setWidth 32 ∧
    (s.hostRead 0x028).readData = s.root.setWidth 32 ∧
    (s.hostRead 0x02C).readData = s.code.bitlen ∧
    (s.hostRead 0x030).readData = s.out.count.setWidth 32 ∧
    s.hostWrite 0x010 v = { s with pending := some v, busy := true } ∧
    (∀ off ∈ [0x000, 0x004, 0x008, 0x00C, 0x014, 0x018, 0x01C, 0x020, 0x024, 0x028, 0x02C, 0x030],
      s.hostWrite off v = s)

/-- R63, R64, R67: with BUSY = 0, the HIST, HEAP, TREE and CODEBUF windows read the arrays; a CODEBUF write
sets the word. -/
def Obligations.ArrayWindows : Prop :=
  ∀ (s : State), s.busy = false → s.params.legal = true →
    (∀ i : Fin 95, (s.hostRead (0x400 + 4 * i.val)).readData = s.hist[i]) ∧
    (∀ j < 95, ∀ w < 8, (s.hostRead (0x1000 + 32 * j + 4 * w)).readData =
      (if w = 0 then (s.heap.nodeAt j).symbolSet.extractLsb' 0 32
       else if w = 1 then (s.heap.nodeAt j).symbolSet.extractLsb' 32 32
       else if w = 2 then (s.heap.nodeAt j).symbolSet.extractLsb' 64 32
       else if w = 3 then (s.heap.nodeAt j).weight
       else if w = 4 then 0#8 ++ (s.heap.nodeAt j).insertedAt ++ (s.heap.nodeAt j).right ++ (s.heap.nodeAt j).left
       else 0#32)) ∧
    (∀ j < 189, ∀ w < 8, (s.hostRead (0x2000 + 32 * j + 4 * w)).readData =
      (if w = 0 then (s.tree.nodeAt j).symbolSet.extractLsb' 0 32
       else if w = 1 then (s.tree.nodeAt j).symbolSet.extractLsb' 32 32
       else if w = 2 then (s.tree.nodeAt j).symbolSet.extractLsb' 64 32
       else if w = 3 then (s.tree.nodeAt j).weight
       else if w = 4 then 0#8 ++ (s.tree.nodeAt j).insertedAt ++ (s.tree.nodeAt j).right ++ (s.tree.nodeAt j).left
       else 0#32)) ∧
    (∀ w x, s.code.words[w]? = some x → (s.hostRead (0x100000 + 4 * w)).readData = x) ∧
    (∀ w v, w < s.codeWords →
      s.hostWrite (0x100000 + 4 * w) v = { s with code := { s.code with words := s.code.words.set w v } })

/-- R65: with BUSY = 0, lane j of word k of INBUF and OUTBUF is the symbol at position 4k+j, 0 at positions
≥ N; a write to an INBUF word sets exactly its lanes at positions < N. -/
def Obligations.SymbolLanes : Prop :=
  ∀ (s : State) (k : Nat), s.busy = false → s.params.legal = true → s.wf → k < (s.inputLen + 3) / 4 →
    (∀ j < 4, (s.hostRead (0x10000 + 4 * k)).readData.extractLsb' (8 * j) 8 = s.inbuf.getD (4 * k + j) 0#8 ∧
      (s.hostRead (0x20000 + 4 * k)).readData.extractLsb' (8 * j) 8 = s.out.bytes.getD (4 * k + j) 0#8) ∧
    (∀ v, s.hostWrite (0x10000 + 4 * k) v = { s with inbuf := (s.hostWrite (0x10000 + 4 * k) v).inbuf } ∧
      (s.hostWrite (0x10000 + 4 * k) v).inbuf.length = s.inputLen ∧
      ∀ p < s.inputLen, (s.hostWrite (0x10000 + 4 * k) v).inbuf[p]? =
        (if p / 4 = k then some (v.extractLsb' (8 * (p % 4)) 8) else s.inbuf[p]?))

/-- R68: a read of a reserved offset returns 0, with BUSY 0 or 1 (R71), a read of CMD returns 0 with
BUSY = 0, and a write to a reserved offset or to a read-only location has no effect. -/
def Obligations.ReservedAndReadOnlyOffsets : Prop :=
  ∀ (s : State) (off : Nat) (v : Word), s.params.legal = true → off % 4 = 0 → off < 0x200000 →
    (s.ReservedOffset off → (s.hostRead off).readData = 0#32) ∧
    (s.busy = false → (s.hostRead 0x010).readData = 0#32) ∧
    (¬ s.HostWritable off → s.hostWrite off v = s)

/-- R70: a host write during BUSY to CMD, INBUF or CODEBUF sets OVERRUN and does nothing else; to any other
location it does nothing. -/
def Obligations.WriteDuringBusyIsDiscarded : Prop :=
  ∀ (s : State) (off : Nat) (v : Word), s.params.legal = true → s.busy = true → off % 4 = 0 → off < 0x200000 →
    s.hostWrite off v = (if s.HostWritable off then { s with overrun := true } else s)

/-- R71, R72: during BUSY, reads of ID, CFG_N, CFG_CW, CFG_DOM, STATUS and reserved offsets return their
values and every other read takes the next free value; a read changes nothing but the value the host holds
and the count of free values. The free value is Config.busyDraw (log entry 6): the statement holds whatever
it is. -/
def Obligations.HostReads : Prop :=
  (∀ (s : State) (off : Nat), s.hostRead off =
    { s with readData := (s.hostRead off).readData, draws := (s.hostRead off).draws }) ∧
  (∀ s : State, s.busy = true →
    (s.hostRead 0x000).readData = 0x48554631#32 ∧
    (s.hostRead 0x004).readData = BitVec.ofNat 32 s.inbuf.length ∧
    (s.hostRead 0x008).readData = BitVec.ofNat 32 s.code.words.length ∧
    (s.hostRead 0x00C).readData = 0x7E20205F#32 ∧ (s.hostRead 0x014).readData = s.statusWord) ∧
  (∀ (s : State) (off : Nat), s.params.legal = true → s.busy = true → off % 4 = 0 → off < 0x200000 →
    off ≠ 0x000 → off ≠ 0x004 → off ≠ 0x008 → off ≠ 0x00C → off ≠ 0x014 →
    (s.ReservedOffset off → s.hostRead off = { s with readData := 0#32 }) ∧
    (¬ s.ReservedOffset off →
      s.hostRead off = { s with readData := Config.busyDraw s.draws, draws := s.draws + 1 })) ∧
  (∀ (s : State) (off : Nat), s.busy = false →
    ((s.hostRead off).hostRead off).readData = (s.hostRead off).readData)

/-- R69: inside the window and out of reset, an access is performed exactly when it is 32 bits wide at an
offset that is a multiple of 4; any other is refused. The events of a step perform it. -/
def Obligations.OnlyAlignedWordAccesses : Prop :=
  (∀ (s : State) (a : Access), s.rstN = true → s.base ≤ a.addr → a.addr < s.base + 0x200000 →
    ((a.bytes = 4 ∧ (a.addr - s.base) % 4 = 0) →
      s.hostAccess a = .next (if a.write then s.hostWrite (a.addr - s.base) a.data
        else s.hostRead (a.addr - s.base))) ∧
    (¬ (a.bytes = 4 ∧ (a.addr - s.base) % 4 = 0) → s.hostAccess a = .refused .unsupportedAccess)) ∧
  (∀ (s : State) (a : Access) (rest : List Event), s.events = .access a :: rest →
    step s = ({ s with events := rest } : State).hostAccess a)

/-! ### Reset -/

/-- R250, R251, R252: rst_n low and then high leaves the reset values of R51, whatever command was pending;
INBUF is unchanged, and while rst_n is low every access is refused. -/
def Obligations.ResetLeavesTheResetState : Prop :=
  ∀ s : State,
    s.driveResetLow.driveResetHigh =
      { s with
        rstN := true
        pending := none
        busy := false
        overrun := false
        phase := .idle
        errCode := .noError
        errOp := 0#8
        errInfo := 0#32
        distinct := 0#7
        hist := zeroHist
        heap := emptyHeap
        tree := emptyTree
        root := 0xFF#8
        code := { words := List.replicate s.code.words.length 0#32, bitlen := 0#32 }
        out := { bytes := List.replicate s.inbuf.length 0#8, count := 0#17 } } ∧
    (∀ rest, s.events = .resetLow :: rest →
      step s = .next ({ s with events := rest } : State).driveResetLow) ∧
    (∀ rest, s.events = .resetHigh :: rest →
      step s = .next ({ s with events := rest } : State).driveResetHigh) ∧
    (∀ a, s.driveResetLow.hostAccess a = .refused .accessInReset)

/-! ### Invariants -/

/-- R7, R22 to R24, R28: every step keeps the instance's parameters legal, the arrays' lengths, BUSY = 1
exactly while a command is latched, and the error registers 0 outside ERROR. -/
def Obligations.BasicSoundnessKept : Prop :=
  ∀ s t : State, s.Basic → step s = .next t → t.Basic

/-- R51, R251: the state after power-on of every legal instance, and State.reset, meet the invariant. The
contents of INBUF are free values there (log entry 2). -/
def Obligations.InvariantAtPowerOn : Prop :=
  (∀ p : Params, p.legal = true → (State.powerOn p).Inv) ∧ State.reset.Inv

/-- R31 to R36, R129, R132, R133, R146, R150 to R152: every step of host, pins and block keeps the invariant
of the whole block. -/
def Obligations.InvariantKept : Prop :=
  ∀ s t : State, s.Inv → step s = .next t → t.Inv

/-- R270, R134: in a state that meets the invariant every command completes, and no step is a fault. -/
def Obligations.EveryCommandCompletes : Prop :=
  ∀ s : State, s.Inv → (∀ i, ∃ t, exec i s = .next t) ∧ (∀ f, step s ≠ .fault f)
end

