-- ==== Sys2Proof/Laws/Bus.lean ====
section
/-!
SUPPORT. What a host access can do, said once (20_memory.md R66 to R72, 45_control.md R205).
-/

namespace Sys2Proof.Machine

/-- A host access that is performed is a 32-bit access in the window out of reset, a write or a read. -/
theorem hostAccess_next {s t : State} {a : Access} (h : s.hostAccess a = .next t) :
    s.rstN = true ∧ s.inWindow a = true ∧ s.supports a = true ∧
      t = if a.write then s.hostWrite (a.addr - s.base) a.data else s.hostRead (a.addr - s.base) := by
  unfold State.hostAccess at h
  split at h
  · cases h
  split at h
  · cases h
  split at h
  · cases h
  split at h <;> simp_all

/-- A host access never faults. -/
theorem hostAccess_no_fault {s : State} {a : Access} {f : Fault} : s.hostAccess a ≠ .fault f := by
  unfold State.hostAccess
  split
  · simp
  split
  · simp
  split
  · simp
  split <;> simp

/-- A host write is discarded with OVERRUN, or ignored, or latches a command, or writes INBUF lanes or one
CODEBUF word. -/
theorem hostWrite_cases (s : State) (off : Nat) (v : Word) :
    (s.busy = true ∧ s.hostWrite off v = { s with overrun := true }) ∨ s.hostWrite off v = s ∨
    (s.busy = false ∧
      (s.hostWrite off v = { s with pending := some v, busy := true } ∨
       (∃ k, s.hostWrite off v = { s with inbuf := writeLanes s.inbuf k v }) ∨
       ∃ w, s.hostWrite off v = { s with code := { s.code with words := s.code.words.set w v } })) := by
  unfold State.hostWrite
  split
  · rename_i hb
    split
    · exact .inl ⟨hb, rfl⟩
    · exact .inr (.inl rfl)
  · rename_i hb
    have hb : s.busy = false := by simpa using hb
    right
    cases s.locationAt off
    case cmd => exact .inr ⟨hb, .inl rfl⟩
    case inbufWord k => exact .inr ⟨hb, .inr (.inl ⟨k, rfl⟩)⟩
    case codeWord w => exact .inr ⟨hb, .inr (.inr ⟨w, rfl⟩)⟩
    all_goals exact .inl rfl

/-- A host read changes only what the host holds and the count of draws. -/
theorem hostRead_cases (s : State) (off : Nat) :
    s.hostRead off = { s with readData := s.locationValue (s.locationAt off) } ∨
    s.hostRead off = { s with readData := Config.busyDraw s.draws, draws := s.draws + 1 } := by
  unfold State.hostRead
  split <;> simp

end Sys2Proof.Machine
end

