-- ==== Sys2Proof/Laws/State.lean ====
section
/-!
SUPPORT. What each update of State does to each field: one lemma per field per update, each by rfl, so
that no later proof unfolds a record update.
-/

namespace Sys2Proof.Machine

/-! ### State.putHist -/

@[simp] theorem State.putHist_base (s : State) (h : Hist) : (s.putHist h).base = s.base := rfl
@[simp] theorem State.putHist_rstN (s : State) (h : Hist) : (s.putHist h).rstN = s.rstN := rfl
@[simp] theorem State.putHist_pending (s : State) (h : Hist) : (s.putHist h).pending = s.pending := rfl
@[simp] theorem State.putHist_busy (s : State) (h : Hist) : (s.putHist h).busy = s.busy := rfl
@[simp] theorem State.putHist_overrun (s : State) (h : Hist) : (s.putHist h).overrun = s.overrun := rfl
@[simp] theorem State.putHist_phase (s : State) (h : Hist) : (s.putHist h).phase = s.phase := rfl
@[simp] theorem State.putHist_errCode (s : State) (h : Hist) : (s.putHist h).errCode = s.errCode := rfl
@[simp] theorem State.putHist_errOp (s : State) (h : Hist) : (s.putHist h).errOp = s.errOp := rfl
@[simp] theorem State.putHist_errInfo (s : State) (h : Hist) : (s.putHist h).errInfo = s.errInfo := rfl
@[simp] theorem State.putHist_distinct (s : State) (h : Hist) : (s.putHist h).distinct = s.distinct := rfl
@[simp] theorem State.putHist_hist (s : State) (h : Hist) : (s.putHist h).hist = h := rfl
@[simp] theorem State.putHist_heap (s : State) (h : Hist) : (s.putHist h).heap = s.heap := rfl
@[simp] theorem State.putHist_tree (s : State) (h : Hist) : (s.putHist h).tree = s.tree := rfl
@[simp] theorem State.putHist_root (s : State) (h : Hist) : (s.putHist h).root = s.root := rfl
@[simp] theorem State.putHist_inbuf (s : State) (h : Hist) : (s.putHist h).inbuf = s.inbuf := rfl
@[simp] theorem State.putHist_code (s : State) (h : Hist) : (s.putHist h).code = s.code := rfl
@[simp] theorem State.putHist_out (s : State) (h : Hist) : (s.putHist h).out = s.out := rfl
@[simp] theorem State.putHist_events (s : State) (h : Hist) : (s.putHist h).events = s.events := rfl
@[simp] theorem State.putHist_readData (s : State) (h : Hist) : (s.putHist h).readData = s.readData := rfl
@[simp] theorem State.putHist_draws (s : State) (h : Hist) : (s.putHist h).draws = s.draws := rfl

/-! ### State.putHeap -/

@[simp] theorem State.putHeap_base (s : State) (h : Heap) : (s.putHeap h).base = s.base := rfl
@[simp] theorem State.putHeap_rstN (s : State) (h : Heap) : (s.putHeap h).rstN = s.rstN := rfl
@[simp] theorem State.putHeap_pending (s : State) (h : Heap) : (s.putHeap h).pending = s.pending := rfl
@[simp] theorem State.putHeap_busy (s : State) (h : Heap) : (s.putHeap h).busy = s.busy := rfl
@[simp] theorem State.putHeap_overrun (s : State) (h : Heap) : (s.putHeap h).overrun = s.overrun := rfl
@[simp] theorem State.putHeap_phase (s : State) (h : Heap) : (s.putHeap h).phase = s.phase := rfl
@[simp] theorem State.putHeap_errCode (s : State) (h : Heap) : (s.putHeap h).errCode = s.errCode := rfl
@[simp] theorem State.putHeap_errOp (s : State) (h : Heap) : (s.putHeap h).errOp = s.errOp := rfl
@[simp] theorem State.putHeap_errInfo (s : State) (h : Heap) : (s.putHeap h).errInfo = s.errInfo := rfl
@[simp] theorem State.putHeap_distinct (s : State) (h : Heap) : (s.putHeap h).distinct = s.distinct := rfl
@[simp] theorem State.putHeap_hist (s : State) (h : Heap) : (s.putHeap h).hist = s.hist := rfl
@[simp] theorem State.putHeap_heap (s : State) (h : Heap) : (s.putHeap h).heap = h := rfl
@[simp] theorem State.putHeap_tree (s : State) (h : Heap) : (s.putHeap h).tree = s.tree := rfl
@[simp] theorem State.putHeap_root (s : State) (h : Heap) : (s.putHeap h).root = s.root := rfl
@[simp] theorem State.putHeap_inbuf (s : State) (h : Heap) : (s.putHeap h).inbuf = s.inbuf := rfl
@[simp] theorem State.putHeap_code (s : State) (h : Heap) : (s.putHeap h).code = s.code := rfl
@[simp] theorem State.putHeap_out (s : State) (h : Heap) : (s.putHeap h).out = s.out := rfl
@[simp] theorem State.putHeap_events (s : State) (h : Heap) : (s.putHeap h).events = s.events := rfl
@[simp] theorem State.putHeap_readData (s : State) (h : Heap) : (s.putHeap h).readData = s.readData := rfl
@[simp] theorem State.putHeap_draws (s : State) (h : Heap) : (s.putHeap h).draws = s.draws := rfl

/-! ### State.putTree -/

@[simp] theorem State.putTree_base (s : State) (t : Tree) : (s.putTree t).base = s.base := rfl
@[simp] theorem State.putTree_rstN (s : State) (t : Tree) : (s.putTree t).rstN = s.rstN := rfl
@[simp] theorem State.putTree_pending (s : State) (t : Tree) : (s.putTree t).pending = s.pending := rfl
@[simp] theorem State.putTree_busy (s : State) (t : Tree) : (s.putTree t).busy = s.busy := rfl
@[simp] theorem State.putTree_overrun (s : State) (t : Tree) : (s.putTree t).overrun = s.overrun := rfl
@[simp] theorem State.putTree_phase (s : State) (t : Tree) : (s.putTree t).phase = s.phase := rfl
@[simp] theorem State.putTree_errCode (s : State) (t : Tree) : (s.putTree t).errCode = s.errCode := rfl
@[simp] theorem State.putTree_errOp (s : State) (t : Tree) : (s.putTree t).errOp = s.errOp := rfl
@[simp] theorem State.putTree_errInfo (s : State) (t : Tree) : (s.putTree t).errInfo = s.errInfo := rfl
@[simp] theorem State.putTree_distinct (s : State) (t : Tree) : (s.putTree t).distinct = s.distinct := rfl
@[simp] theorem State.putTree_hist (s : State) (t : Tree) : (s.putTree t).hist = s.hist := rfl
@[simp] theorem State.putTree_heap (s : State) (t : Tree) : (s.putTree t).heap = s.heap := rfl
@[simp] theorem State.putTree_tree (s : State) (t : Tree) : (s.putTree t).tree = t := rfl
@[simp] theorem State.putTree_root (s : State) (t : Tree) : (s.putTree t).root = s.root := rfl
@[simp] theorem State.putTree_inbuf (s : State) (t : Tree) : (s.putTree t).inbuf = s.inbuf := rfl
@[simp] theorem State.putTree_code (s : State) (t : Tree) : (s.putTree t).code = s.code := rfl
@[simp] theorem State.putTree_out (s : State) (t : Tree) : (s.putTree t).out = s.out := rfl
@[simp] theorem State.putTree_events (s : State) (t : Tree) : (s.putTree t).events = s.events := rfl
@[simp] theorem State.putTree_readData (s : State) (t : Tree) : (s.putTree t).readData = s.readData := rfl
@[simp] theorem State.putTree_draws (s : State) (t : Tree) : (s.putTree t).draws = s.draws := rfl

/-! ### State.putCode -/

@[simp] theorem State.putCode_base (s : State) (c : CodeStream) : (s.putCode c).base = s.base := rfl
@[simp] theorem State.putCode_rstN (s : State) (c : CodeStream) : (s.putCode c).rstN = s.rstN := rfl
@[simp] theorem State.putCode_pending (s : State) (c : CodeStream) : (s.putCode c).pending = s.pending := rfl
@[simp] theorem State.putCode_busy (s : State) (c : CodeStream) : (s.putCode c).busy = s.busy := rfl
@[simp] theorem State.putCode_overrun (s : State) (c : CodeStream) : (s.putCode c).overrun = s.overrun := rfl
@[simp] theorem State.putCode_phase (s : State) (c : CodeStream) : (s.putCode c).phase = s.phase := rfl
@[simp] theorem State.putCode_errCode (s : State) (c : CodeStream) : (s.putCode c).errCode = s.errCode := rfl
@[simp] theorem State.putCode_errOp (s : State) (c : CodeStream) : (s.putCode c).errOp = s.errOp := rfl
@[simp] theorem State.putCode_errInfo (s : State) (c : CodeStream) : (s.putCode c).errInfo = s.errInfo := rfl
@[simp] theorem State.putCode_distinct (s : State) (c : CodeStream) : (s.putCode c).distinct = s.distinct := rfl
@[simp] theorem State.putCode_hist (s : State) (c : CodeStream) : (s.putCode c).hist = s.hist := rfl
@[simp] theorem State.putCode_heap (s : State) (c : CodeStream) : (s.putCode c).heap = s.heap := rfl
@[simp] theorem State.putCode_tree (s : State) (c : CodeStream) : (s.putCode c).tree = s.tree := rfl
@[simp] theorem State.putCode_root (s : State) (c : CodeStream) : (s.putCode c).root = s.root := rfl
@[simp] theorem State.putCode_inbuf (s : State) (c : CodeStream) : (s.putCode c).inbuf = s.inbuf := rfl
@[simp] theorem State.putCode_code (s : State) (c : CodeStream) : (s.putCode c).code = c := rfl
@[simp] theorem State.putCode_out (s : State) (c : CodeStream) : (s.putCode c).out = s.out := rfl
@[simp] theorem State.putCode_events (s : State) (c : CodeStream) : (s.putCode c).events = s.events := rfl
@[simp] theorem State.putCode_readData (s : State) (c : CodeStream) : (s.putCode c).readData = s.readData := rfl
@[simp] theorem State.putCode_draws (s : State) (c : CodeStream) : (s.putCode c).draws = s.draws := rfl

/-! ### State.putOut -/

@[simp] theorem State.putOut_base (s : State) (o : Output) : (s.putOut o).base = s.base := rfl
@[simp] theorem State.putOut_rstN (s : State) (o : Output) : (s.putOut o).rstN = s.rstN := rfl
@[simp] theorem State.putOut_pending (s : State) (o : Output) : (s.putOut o).pending = s.pending := rfl
@[simp] theorem State.putOut_busy (s : State) (o : Output) : (s.putOut o).busy = s.busy := rfl
@[simp] theorem State.putOut_overrun (s : State) (o : Output) : (s.putOut o).overrun = s.overrun := rfl
@[simp] theorem State.putOut_phase (s : State) (o : Output) : (s.putOut o).phase = s.phase := rfl
@[simp] theorem State.putOut_errCode (s : State) (o : Output) : (s.putOut o).errCode = s.errCode := rfl
@[simp] theorem State.putOut_errOp (s : State) (o : Output) : (s.putOut o).errOp = s.errOp := rfl
@[simp] theorem State.putOut_errInfo (s : State) (o : Output) : (s.putOut o).errInfo = s.errInfo := rfl
@[simp] theorem State.putOut_distinct (s : State) (o : Output) : (s.putOut o).distinct = s.distinct := rfl
@[simp] theorem State.putOut_hist (s : State) (o : Output) : (s.putOut o).hist = s.hist := rfl
@[simp] theorem State.putOut_heap (s : State) (o : Output) : (s.putOut o).heap = s.heap := rfl
@[simp] theorem State.putOut_tree (s : State) (o : Output) : (s.putOut o).tree = s.tree := rfl
@[simp] theorem State.putOut_root (s : State) (o : Output) : (s.putOut o).root = s.root := rfl
@[simp] theorem State.putOut_inbuf (s : State) (o : Output) : (s.putOut o).inbuf = s.inbuf := rfl
@[simp] theorem State.putOut_code (s : State) (o : Output) : (s.putOut o).code = s.code := rfl
@[simp] theorem State.putOut_out (s : State) (o : Output) : (s.putOut o).out = o := rfl
@[simp] theorem State.putOut_events (s : State) (o : Output) : (s.putOut o).events = s.events := rfl
@[simp] theorem State.putOut_readData (s : State) (o : Output) : (s.putOut o).readData = s.readData := rfl
@[simp] theorem State.putOut_draws (s : State) (o : Output) : (s.putOut o).draws = s.draws := rfl

/-! ### State.setPhase -/

@[simp] theorem State.setPhase_base (s : State) (p : Phase) : (s.setPhase p).base = s.base := rfl
@[simp] theorem State.setPhase_rstN (s : State) (p : Phase) : (s.setPhase p).rstN = s.rstN := rfl
@[simp] theorem State.setPhase_pending (s : State) (p : Phase) : (s.setPhase p).pending = s.pending := rfl
@[simp] theorem State.setPhase_busy (s : State) (p : Phase) : (s.setPhase p).busy = s.busy := rfl
@[simp] theorem State.setPhase_overrun (s : State) (p : Phase) : (s.setPhase p).overrun = s.overrun := rfl
@[simp] theorem State.setPhase_phase (s : State) (p : Phase) : (s.setPhase p).phase = p := rfl
@[simp] theorem State.setPhase_errCode (s : State) (p : Phase) : (s.setPhase p).errCode = s.errCode := rfl
@[simp] theorem State.setPhase_errOp (s : State) (p : Phase) : (s.setPhase p).errOp = s.errOp := rfl
@[simp] theorem State.setPhase_errInfo (s : State) (p : Phase) : (s.setPhase p).errInfo = s.errInfo := rfl
@[simp] theorem State.setPhase_distinct (s : State) (p : Phase) : (s.setPhase p).distinct = s.distinct := rfl
@[simp] theorem State.setPhase_hist (s : State) (p : Phase) : (s.setPhase p).hist = s.hist := rfl
@[simp] theorem State.setPhase_heap (s : State) (p : Phase) : (s.setPhase p).heap = s.heap := rfl
@[simp] theorem State.setPhase_tree (s : State) (p : Phase) : (s.setPhase p).tree = s.tree := rfl
@[simp] theorem State.setPhase_root (s : State) (p : Phase) : (s.setPhase p).root = s.root := rfl
@[simp] theorem State.setPhase_inbuf (s : State) (p : Phase) : (s.setPhase p).inbuf = s.inbuf := rfl
@[simp] theorem State.setPhase_code (s : State) (p : Phase) : (s.setPhase p).code = s.code := rfl
@[simp] theorem State.setPhase_out (s : State) (p : Phase) : (s.setPhase p).out = s.out := rfl
@[simp] theorem State.setPhase_events (s : State) (p : Phase) : (s.setPhase p).events = s.events := rfl
@[simp] theorem State.setPhase_readData (s : State) (p : Phase) : (s.setPhase p).readData = s.readData := rfl
@[simp] theorem State.setPhase_draws (s : State) (p : Phase) : (s.setPhase p).draws = s.draws := rfl

/-! ### State.takeError -/

@[simp] theorem State.takeError_base (s : State) (op : BitVec 8) (r : Raise) : (s.takeError op r).base = s.base := rfl
@[simp] theorem State.takeError_rstN (s : State) (op : BitVec 8) (r : Raise) : (s.takeError op r).rstN = s.rstN := rfl
@[simp] theorem State.takeError_pending (s : State) (op : BitVec 8) (r : Raise) : (s.takeError op r).pending = s.pending := rfl
@[simp] theorem State.takeError_busy (s : State) (op : BitVec 8) (r : Raise) : (s.takeError op r).busy = s.busy := rfl
@[simp] theorem State.takeError_overrun (s : State) (op : BitVec 8) (r : Raise) : (s.takeError op r).overrun = s.overrun := rfl
@[simp] theorem State.takeError_phase (s : State) (op : BitVec 8) (r : Raise) : (s.takeError op r).phase = .error := rfl
@[simp] theorem State.takeError_errCode (s : State) (op : BitVec 8) (r : Raise) : (s.takeError op r).errCode = r.code := rfl
@[simp] theorem State.takeError_errOp (s : State) (op : BitVec 8) (r : Raise) : (s.takeError op r).errOp = op := rfl
@[simp] theorem State.takeError_errInfo (s : State) (op : BitVec 8) (r : Raise) : (s.takeError op r).errInfo = r.info := rfl
@[simp] theorem State.takeError_distinct (s : State) (op : BitVec 8) (r : Raise) : (s.takeError op r).distinct = s.distinct := rfl
@[simp] theorem State.takeError_hist (s : State) (op : BitVec 8) (r : Raise) : (s.takeError op r).hist = s.hist := rfl
@[simp] theorem State.takeError_heap (s : State) (op : BitVec 8) (r : Raise) : (s.takeError op r).heap = s.heap := rfl
@[simp] theorem State.takeError_tree (s : State) (op : BitVec 8) (r : Raise) : (s.takeError op r).tree = s.tree := rfl
@[simp] theorem State.takeError_root (s : State) (op : BitVec 8) (r : Raise) : (s.takeError op r).root = s.root := rfl
@[simp] theorem State.takeError_inbuf (s : State) (op : BitVec 8) (r : Raise) : (s.takeError op r).inbuf = s.inbuf := rfl
@[simp] theorem State.takeError_code (s : State) (op : BitVec 8) (r : Raise) : (s.takeError op r).code = s.code := rfl
@[simp] theorem State.takeError_out (s : State) (op : BitVec 8) (r : Raise) : (s.takeError op r).out = s.out := rfl
@[simp] theorem State.takeError_events (s : State) (op : BitVec 8) (r : Raise) : (s.takeError op r).events = s.events := rfl
@[simp] theorem State.takeError_readData (s : State) (op : BitVec 8) (r : Raise) : (s.takeError op r).readData = s.readData := rfl
@[simp] theorem State.takeError_draws (s : State) (op : BitVec 8) (r : Raise) : (s.takeError op r).draws = s.draws := rfl

/-! ### State.leaveError -/

@[simp] theorem State.leaveError_base (s : State) : (s.leaveError).base = s.base := rfl
@[simp] theorem State.leaveError_rstN (s : State) : (s.leaveError).rstN = s.rstN := rfl
@[simp] theorem State.leaveError_pending (s : State) : (s.leaveError).pending = s.pending := rfl
@[simp] theorem State.leaveError_busy (s : State) : (s.leaveError).busy = s.busy := rfl
@[simp] theorem State.leaveError_overrun (s : State) : (s.leaveError).overrun = false := rfl
@[simp] theorem State.leaveError_phase (s : State) : (s.leaveError).phase = .idle := rfl
@[simp] theorem State.leaveError_errCode (s : State) : (s.leaveError).errCode = .noError := rfl
@[simp] theorem State.leaveError_errOp (s : State) : (s.leaveError).errOp = 0#8 := rfl
@[simp] theorem State.leaveError_errInfo (s : State) : (s.leaveError).errInfo = 0#32 := rfl
@[simp] theorem State.leaveError_distinct (s : State) : (s.leaveError).distinct = s.distinct := rfl
@[simp] theorem State.leaveError_hist (s : State) : (s.leaveError).hist = s.hist := rfl
@[simp] theorem State.leaveError_heap (s : State) : (s.leaveError).heap = s.heap := rfl
@[simp] theorem State.leaveError_tree (s : State) : (s.leaveError).tree = s.tree := rfl
@[simp] theorem State.leaveError_root (s : State) : (s.leaveError).root = s.root := rfl
@[simp] theorem State.leaveError_inbuf (s : State) : (s.leaveError).inbuf = s.inbuf := rfl
@[simp] theorem State.leaveError_code (s : State) : (s.leaveError).code = s.code := rfl
@[simp] theorem State.leaveError_out (s : State) : (s.leaveError).out = s.out := rfl
@[simp] theorem State.leaveError_events (s : State) : (s.leaveError).events = s.events := rfl
@[simp] theorem State.leaveError_readData (s : State) : (s.leaveError).readData = s.readData := rfl
@[simp] theorem State.leaveError_draws (s : State) : (s.leaveError).draws = s.draws := rfl

/-! ### State.initialise -/

@[simp] theorem State.initialise_base (s : State) : (s.initialise).base = s.base := rfl
@[simp] theorem State.initialise_rstN (s : State) : (s.initialise).rstN = s.rstN := rfl
@[simp] theorem State.initialise_pending (s : State) : (s.initialise).pending = s.pending := rfl
@[simp] theorem State.initialise_busy (s : State) : (s.initialise).busy = s.busy := rfl
@[simp] theorem State.initialise_overrun (s : State) : (s.initialise).overrun = false := rfl
@[simp] theorem State.initialise_phase (s : State) : (s.initialise).phase = .idle := rfl
@[simp] theorem State.initialise_errCode (s : State) : (s.initialise).errCode = .noError := rfl
@[simp] theorem State.initialise_errOp (s : State) : (s.initialise).errOp = 0#8 := rfl
@[simp] theorem State.initialise_errInfo (s : State) : (s.initialise).errInfo = 0#32 := rfl
@[simp] theorem State.initialise_distinct (s : State) : (s.initialise).distinct = 0#7 := rfl
@[simp] theorem State.initialise_hist (s : State) : (s.initialise).hist = zeroHist := rfl
@[simp] theorem State.initialise_heap (s : State) : (s.initialise).heap = emptyHeap := rfl
@[simp] theorem State.initialise_tree (s : State) : (s.initialise).tree = emptyTree := rfl
@[simp] theorem State.initialise_root (s : State) : (s.initialise).root = Config.none := rfl
@[simp] theorem State.initialise_inbuf (s : State) : (s.initialise).inbuf = s.inbuf := rfl
@[simp] theorem State.initialise_code (s : State) : (s.initialise).code = { words := List.replicate s.codeWords 0#32, bitlen := 0#32 } := rfl
@[simp] theorem State.initialise_out (s : State) : (s.initialise).out = { bytes := List.replicate s.inputLen 0#8, count := 0#17 } := rfl
@[simp] theorem State.initialise_events (s : State) : (s.initialise).events = s.events := rfl
@[simp] theorem State.initialise_readData (s : State) : (s.initialise).readData = s.readData := rfl
@[simp] theorem State.initialise_draws (s : State) : (s.initialise).draws = s.draws := rfl

/-! ### State.complete -/

@[simp] theorem State.complete_base (s : State) : (s.complete).base = s.base := rfl
@[simp] theorem State.complete_rstN (s : State) : (s.complete).rstN = s.rstN := rfl
@[simp] theorem State.complete_pending (s : State) : (s.complete).pending = none := rfl
@[simp] theorem State.complete_busy (s : State) : (s.complete).busy = false := rfl
@[simp] theorem State.complete_overrun (s : State) : (s.complete).overrun = s.overrun := rfl
@[simp] theorem State.complete_phase (s : State) : (s.complete).phase = s.phase := rfl
@[simp] theorem State.complete_errCode (s : State) : (s.complete).errCode = s.errCode := rfl
@[simp] theorem State.complete_errOp (s : State) : (s.complete).errOp = s.errOp := rfl
@[simp] theorem State.complete_errInfo (s : State) : (s.complete).errInfo = s.errInfo := rfl
@[simp] theorem State.complete_distinct (s : State) : (s.complete).distinct = s.distinct := rfl
@[simp] theorem State.complete_hist (s : State) : (s.complete).hist = s.hist := rfl
@[simp] theorem State.complete_heap (s : State) : (s.complete).heap = s.heap := rfl
@[simp] theorem State.complete_tree (s : State) : (s.complete).tree = s.tree := rfl
@[simp] theorem State.complete_root (s : State) : (s.complete).root = s.root := rfl
@[simp] theorem State.complete_inbuf (s : State) : (s.complete).inbuf = s.inbuf := rfl
@[simp] theorem State.complete_code (s : State) : (s.complete).code = s.code := rfl
@[simp] theorem State.complete_out (s : State) : (s.complete).out = s.out := rfl
@[simp] theorem State.complete_events (s : State) : (s.complete).events = s.events := rfl
@[simp] theorem State.complete_readData (s : State) : (s.complete).readData = s.readData := rfl
@[simp] theorem State.complete_draws (s : State) : (s.complete).draws = s.draws := rfl

/-! ### State.latch -/

@[simp] theorem State.latch_base (s : State) (c : Word) : (s.latch c).base = s.base := rfl
@[simp] theorem State.latch_rstN (s : State) (c : Word) : (s.latch c).rstN = s.rstN := rfl
@[simp] theorem State.latch_pending (s : State) (c : Word) : (s.latch c).pending = some c := rfl
@[simp] theorem State.latch_busy (s : State) (c : Word) : (s.latch c).busy = true := rfl
@[simp] theorem State.latch_overrun (s : State) (c : Word) : (s.latch c).overrun = s.overrun := rfl
@[simp] theorem State.latch_phase (s : State) (c : Word) : (s.latch c).phase = s.phase := rfl
@[simp] theorem State.latch_errCode (s : State) (c : Word) : (s.latch c).errCode = s.errCode := rfl
@[simp] theorem State.latch_errOp (s : State) (c : Word) : (s.latch c).errOp = s.errOp := rfl
@[simp] theorem State.latch_errInfo (s : State) (c : Word) : (s.latch c).errInfo = s.errInfo := rfl
@[simp] theorem State.latch_distinct (s : State) (c : Word) : (s.latch c).distinct = s.distinct := rfl
@[simp] theorem State.latch_hist (s : State) (c : Word) : (s.latch c).hist = s.hist := rfl
@[simp] theorem State.latch_heap (s : State) (c : Word) : (s.latch c).heap = s.heap := rfl
@[simp] theorem State.latch_tree (s : State) (c : Word) : (s.latch c).tree = s.tree := rfl
@[simp] theorem State.latch_root (s : State) (c : Word) : (s.latch c).root = s.root := rfl
@[simp] theorem State.latch_inbuf (s : State) (c : Word) : (s.latch c).inbuf = s.inbuf := rfl
@[simp] theorem State.latch_code (s : State) (c : Word) : (s.latch c).code = s.code := rfl
@[simp] theorem State.latch_out (s : State) (c : Word) : (s.latch c).out = s.out := rfl
@[simp] theorem State.latch_events (s : State) (c : Word) : (s.latch c).events = s.events := rfl
@[simp] theorem State.latch_readData (s : State) (c : Word) : (s.latch c).readData = s.readData := rfl
@[simp] theorem State.latch_draws (s : State) (c : Word) : (s.latch c).draws = s.draws := rfl

/-! ### State.noteOverrun -/

@[simp] theorem State.noteOverrun_base (s : State) : (s.noteOverrun).base = s.base := rfl
@[simp] theorem State.noteOverrun_rstN (s : State) : (s.noteOverrun).rstN = s.rstN := rfl
@[simp] theorem State.noteOverrun_pending (s : State) : (s.noteOverrun).pending = s.pending := rfl
@[simp] theorem State.noteOverrun_busy (s : State) : (s.noteOverrun).busy = s.busy := rfl
@[simp] theorem State.noteOverrun_overrun (s : State) : (s.noteOverrun).overrun = true := rfl
@[simp] theorem State.noteOverrun_phase (s : State) : (s.noteOverrun).phase = s.phase := rfl
@[simp] theorem State.noteOverrun_errCode (s : State) : (s.noteOverrun).errCode = s.errCode := rfl
@[simp] theorem State.noteOverrun_errOp (s : State) : (s.noteOverrun).errOp = s.errOp := rfl
@[simp] theorem State.noteOverrun_errInfo (s : State) : (s.noteOverrun).errInfo = s.errInfo := rfl
@[simp] theorem State.noteOverrun_distinct (s : State) : (s.noteOverrun).distinct = s.distinct := rfl
@[simp] theorem State.noteOverrun_hist (s : State) : (s.noteOverrun).hist = s.hist := rfl
@[simp] theorem State.noteOverrun_heap (s : State) : (s.noteOverrun).heap = s.heap := rfl
@[simp] theorem State.noteOverrun_tree (s : State) : (s.noteOverrun).tree = s.tree := rfl
@[simp] theorem State.noteOverrun_root (s : State) : (s.noteOverrun).root = s.root := rfl
@[simp] theorem State.noteOverrun_inbuf (s : State) : (s.noteOverrun).inbuf = s.inbuf := rfl
@[simp] theorem State.noteOverrun_code (s : State) : (s.noteOverrun).code = s.code := rfl
@[simp] theorem State.noteOverrun_out (s : State) : (s.noteOverrun).out = s.out := rfl
@[simp] theorem State.noteOverrun_events (s : State) : (s.noteOverrun).events = s.events := rfl
@[simp] theorem State.noteOverrun_readData (s : State) : (s.noteOverrun).readData = s.readData := rfl
@[simp] theorem State.noteOverrun_draws (s : State) : (s.noteOverrun).draws = s.draws := rfl

/-! ### Lengths -/

@[simp] theorem State.inputLen_eq (s : State) : s.inputLen = s.inbuf.length := rfl

@[simp] theorem State.codeWords_eq (s : State) : s.codeWords = s.code.words.length := rfl

/-- Reset is INIT and the end of the pending command (70_reset_and_hazards.md R251). -/
theorem State.applyReset_eq (s : State) : s.applyReset = s.initialise.complete := rfl

/-- What the fetch of a placed command sees. -/
theorem State.withFetchWord_fetch (s : State) (nbits w : Nat) :
    (s.withFetchWord nbits w).pending = some (commandWord nbits w) ∧ (s.withFetchWord nbits w).busy = true ∧
    (s.withFetchWord nbits w).rstN = true ∧ (s.withFetchWord nbits w).events = [] := ⟨rfl, rfl, rfl, rfl⟩

end Sys2Proof.Machine
end

