-- ==== Sys2Proof/Laws/Ops.lean ====
section
/-!
SUPPORT. What the shared operations can do, said once: binding pieces of pseudocode, running one over a
component, taking an error, the guard of a component command, the block's turn.
-/

namespace Sys2Proof.Machine

/-! ### Pieces of pseudocode in a row -/

/-- A sequence ends normally exactly when both pieces do. -/
theorem act_bind_ok {ε σ α β : Type} {x : EStateM ε σ α} {f : α → EStateM ε σ β} {s t : σ} {b : β} :
    (x >>= f) s = .ok b t ↔ ∃ a u, x s = .ok a u ∧ f a u = .ok b t := by
  change EStateM.bind x f s = _ ↔ _
  unfold EStateM.bind
  cases h : x s <;> simp

/-- A sequence stops where its first piece stops, or where the second stops after it. -/
theorem act_bind_error {ε σ α β : Type} {x : EStateM ε σ α} {f : α → EStateM ε σ β} {s t : σ} {e : ε} :
    (x >>= f) s = .error e t ↔ x s = .error e t ∨ ∃ a u, x s = .ok a u ∧ f a u = .error e t := by
  change EStateM.bind x f s = _ ↔ _
  unfold EStateM.bind
  cases h : x s <;> simp

@[simp] theorem act_pure {ε σ α : Type} (a : α) (s : σ) : (pure a : EStateM ε σ α) s = .ok a s := rfl

@[simp] theorem act_get {ε σ : Type} (s : σ) : (get : EStateM ε σ σ) s = .ok s s := rfl

@[simp] theorem act_set {ε σ : Type} (s t : σ) : (set t : EStateM ε σ PUnit) s = .ok ⟨⟩ t := rfl

@[simp] theorem act_modify {ε σ : Type} (f : σ → σ) (s : σ) : (modify f : EStateM ε σ PUnit) s = .ok ⟨⟩ (f s) := rfl

@[simp] theorem act_throw {ε σ α : Type} (e : ε) (s : σ) : (throw e : EStateM ε σ α) s = .error e s := rfl

@[simp] theorem raise_run {σ α : Type} (code : ErrCode) (info : Word) (s : σ) :
    (raise code info : Act σ α) s = .error (.raise { code := code, info := info }) s := rfl

@[simp] theorem raiseLsbEmpty_run {σ α : Type} (s : σ) :
    (raiseLsbEmpty : Act σ α) s = .error (.raise { code := .treeCorrupt, info := 0xFFFFFFFF#32 }) s := rfl

@[simp] theorem stuck_run {σ α : Type} (f : Fault) (s : σ) : (stuck f : Act σ α) s = .error (.stuck f) s := rfl

/-- A reader ends normally exactly when it answers, and changes nothing. -/
theorem ofRead_ok {σ α : Type} {x : Except Stop α} {s t : σ} {a : α} :
    (ofRead x : Act σ α) s = .ok a t ↔ x = .ok a ∧ t = s := by
  unfold ofRead
  cases x <;> simp [eq_comm]

/-- A reader stops exactly when it stops, and changes nothing. -/
theorem ofRead_error {σ α : Type} {x : Except Stop α} {s t : σ} {e : Stop} :
    (ofRead x : Act σ α) s = .error e t ↔ x = .error e ∧ t = s := by
  unfold ofRead
  cases x <;> simp [eq_comm]

/-- A raise-only piece ends normally where it does. -/
theorem ofSure_ok {σ α : Type} {x : SureAct σ α} {s t : σ} {a : α} :
    (ofSure x : Act σ α) s = .ok a t ↔ x s = .ok a t := by
  unfold ofSure
  cases x s <;> simp

/-- A raise-only piece stops by a raise only. -/
theorem ofSure_error {σ α : Type} {x : SureAct σ α} {s t : σ} {e : Stop} :
    (ofSure x : Act σ α) s = .error e t ↔ ∃ r, e = .raise r ∧ x s = .error r t := by
  unfold ofSure
  cases x s <;> simp
  · tauto

/-- A piece over a component ends normally where it does, with only that component written. -/
theorem onPart_ok {ε σ τ α : Type} {get : σ → τ} {put : τ → σ → σ} {x : EStateM ε τ α} {s t : σ} {a : α} :
    onPart get put x s = .ok a t ↔ ∃ u, x (get s) = .ok a u ∧ t = put u s := by
  unfold onPart
  cases x (get s) <;> simp [eq_comm]

/-- A piece over a component stops where it does, with only that component written. -/
theorem onPart_error {ε σ τ α : Type} {get : σ → τ} {put : τ → σ → σ} {x : EStateM ε τ α} {s t : σ} {e : ε} :
    onPart get put x s = .error e t ↔ ∃ u, x (get s) = .error e u ∧ t = put u s := by
  unfold onPart
  cases x (get s) <;> simp [eq_comm]

/-! ### Stages and answers -/

/-- A stage ends normally where its body does. -/
theorem inStage_ok {op : BitVec 8} {body : Act State Unit} {s t : State} :
    inStage op body s = .ok () t ↔ body s = .ok () t := by
  unfold inStage
  cases h : body s with
  | ok a u => simp
  | error e u => cases e <;> simp

/-- A stage that stops by a raise has taken the error of its body under its own opcode. -/
theorem inStage_raise {op : BitVec 8} {body : Act State Unit} {s t : State} {r : Raise} :
    inStage op body s = .error (.raise r) t ↔ ∃ u, body s = .error (.raise r) u ∧ t = u.takeError op r := by
  unfold inStage
  cases h : body s with
  | ok a u => simp
  | error e u =>
    cases e with
    | raise r' =>
      simp only [EStateM.Result.error.injEq, Stop.raise.injEq]
      constructor
      · rintro ⟨rfl, rfl⟩
        exact ⟨u, ⟨rfl, rfl⟩, rfl⟩
      · rintro ⟨v, ⟨rfl, rfl⟩, rfl⟩
        exact ⟨rfl, rfl⟩
    | stuck f => simp

/-- A stage is stuck where its body is. -/
theorem inStage_stuck {op : BitVec 8} {body : Act State Unit} {s t : State} {f : Fault} :
    inStage op body s = .error (.stuck f) t ↔ body s = .error (.stuck f) t := by
  unfold inStage
  cases h : body s with
  | ok a u => simp
  | error e u => cases e <;> simp

/-- A command's answer is a next state exactly when its pseudocode completed or raised. -/
theorem answer_next {r : EStateM.Result Stop State Unit} {t : State} :
    answer r = .next t ↔ r = .ok () t ∨ ∃ e, r = .error (.raise e) t := by
  unfold answer
  cases r with
  | ok a u => simp
  | error e u => cases e <;> simp

/-- A command never answers a refusal. -/
theorem answer_refused {r : EStateM.Result Stop State Unit} {why : Refusal} : answer r ≠ .refused why := by
  unfold answer
  cases r with
  | ok a u => simp
  | error e u => cases e <;> simp

/-- Everything a component command can answer as a next state: the discard in ERROR, SEQUENCE, its
body's end, or its body's raise taken under its opcode. -/
theorem component_next {op : BitVec 8} {need : Phase} {body : Act State Unit} {s t : State}
    (h : component op need body s = .next t) :
    (s.phase = .error ∧ t = s) ∨
    (s.phase ≠ .error ∧ s.phase ≠ need ∧ t = s.takeError op (sequenceRaise s.phase)) ∨
    (s.phase ≠ .error ∧ s.phase = need ∧ body s = .ok () t) ∨
    (s.phase ≠ .error ∧ s.phase = need ∧ ∃ r u, body s = .error (.raise r) u ∧ t = u.takeError op r) := by
  unfold component at h
  split at h
  · simp_all
  · split at h
    · rename_i he hn
      rcases answer_next.1 h with hok | ⟨r, hr⟩
      · exact .inr (.inr (.inl ⟨he, hn, inStage_ok.1 hok⟩))
      · obtain ⟨u, hu, rfl⟩ := inStage_raise.1 hr
        exact .inr (.inr (.inr ⟨he, hn, r, u, hu, rfl⟩))
    · simp_all

/-- Everything a raise-only component command can do: it always has a next state. -/
theorem sureComponent_next {op : BitVec 8} {need : Phase} {body : SureAct State Unit} {s t : State}
    (h : sureComponent op need body s = .next t) :
    (s.phase = .error ∧ t = s) ∨
    (s.phase ≠ .error ∧ s.phase ≠ need ∧ t = s.takeError op (sequenceRaise s.phase)) ∨
    (s.phase ≠ .error ∧ s.phase = need ∧ body s = .ok () t) ∨
    (s.phase ≠ .error ∧ s.phase = need ∧ ∃ r u, body s = .error r u ∧ t = u.takeError op r) := by
  unfold sureComponent at h
  split at h
  · simp_all
  · split at h
    · rename_i he hn
      simp only [Host.Outcome.next.injEq] at h
      unfold settle at h
      split at h
      · simp_all
      · rename_i r u hu
        exact .inr (.inr (.inr ⟨he, hn, r, u, hu, h.symm⟩))
    · simp_all

/-- In its phase a component command answers what its body does. -/
theorem component_run {op : BitVec 8} {need : Phase} {body : Act State Unit} {s : State}
    (hn : s.phase = need) (he : need ≠ .error) : component op need body s = answer (inStage op body s) := by
  simp [component, hn, he]

/-- In its phase a raise-only component command leaves what its body leaves. -/
theorem sureComponent_run {op : BitVec 8} {need : Phase} {body : SureAct State Unit} {s : State}
    (hn : s.phase = need) (he : need ≠ .error) :
    sureComponent op need body s = .next (settle op (body s)) := by
  simp [sureComponent, hn, he]

/-! ### The block's turn -/

/-- Completing is a next state exactly when the command's answer is. -/
theorem completed_next {r : Host.Outcome State Fault Refusal} {t : State} :
    completed r = .next t ↔ ∃ u, r = .next u ∧ t = u.complete := by
  unfold completed
  cases r <;> simp [eq_comm]

/-- The three things the block's turn can be as a next state. -/
theorem blockTurn_next {s t : State} (h : blockTurn s = .next t) :
    t = s ∨ (∃ c i u, s.rstN = true ∧ s.pending = some c ∧ decodeWord c = .legal i ∧ exec i s = .next u ∧
      t = u.complete) ∨
    (∃ c why, s.rstN = true ∧ s.pending = some c ∧ decodeWord c = .illegal why ∧
      t = (s.illegalCommand c).complete) := by
  unfold blockTurn at h
  split at h
  · rename_i hr
    split at h
    · rename_i c hc
      unfold runCommand at h
      split at h
      · rename_i i hi
        obtain ⟨u, hu, rfl⟩ := completed_next.1 h
        exact .inr (.inl ⟨c, i, u, hr, hc, hi, hu, rfl⟩)
      · rename_i why hw
        simp only [Host.Outcome.next.injEq] at h
        exact .inr (.inr ⟨c, why, hr, hc, hw, h.symm⟩)
    · simp_all
  · simp_all

/-- The events of a step, and the block's turn when none is left. -/
theorem step_nil {s : State} (h : s.events = []) : step s = blockTurn s := by simp [step, nextStep, h]

theorem step_cons {s : State} {e : Event} {rest : List Event} (h : s.events = e :: rest) :
    step s = takeEvent e { s with events := rest } := by simp [step, nextStep, h]

end Sys2Proof.Machine
end

