-- ==== Sys2Proof/Laws/Heap.lean ====
section
/-!
SUPPORT. The heap primitives: HEAP_SIZE and the slots from HEAP_SIZE on are kept by sifting, sifting only
permutes the slots, and the loop bounds are enough (41_heap.md R122 to R127).
-/

namespace Sys2Proof.Machine

/-! ### Reading and writing slots -/

theorem Heap.read_ok {h : Heap} {j : Nat} {n : Node} : h.read j = .ok n ↔ h.slots[j]? = some n := by
  unfold Heap.read
  cases h.slots[j]? <;> simp

theorem heapWrite_ok {j : Nat} {n : Node} {h h' : Heap} {u : Unit} :
    heapWrite j n h = .ok u h' ↔ j < 95 ∧ h' = { h with slots := h.slots.setIfInBounds j n } := by
  unfold heapWrite
  by_cases hj : j < 95 <;> simp [hj, eq_comm]

theorem heapWrite_error {j : Nat} {n : Node} {h h' : Heap} {e : Stop} :
    heapWrite j n h = .error e h' ↔ 95 ≤ j ∧ e = .stuck .noSuchElement ∧ h' = h := by
  unfold heapWrite
  by_cases hj : j < 95 <;> simp [hj, eq_comm]
  · omega

/-- Two heaps that differ at most by a rearrangement of the slots below HEAP_SIZE. -/
structure Heap.Rearranged (h h' : Heap) : Prop where
  size : h'.size = h.size
  perm : h'.slots.toList.Perm h.slots.toList
  rest : ∀ j, h.size.toNat ≤ j → h'.slots[j]? = h.slots[j]?

theorem Heap.Rearranged.refl (h : Heap) : h.Rearranged h := ⟨rfl, .refl _, fun _ _ => rfl⟩

theorem Heap.Rearranged.trans {h h' h'' : Heap} (a : h.Rearranged h') (b : h'.Rearranged h'') :
    h.Rearranged h'' :=
  ⟨b.size.trans a.size, b.perm.trans a.perm, fun j hj =>
    (b.rest j (by rw [a.size]; exact hj)).trans (a.rest j hj)⟩

/-- Swapping two slots that can be read never stops, and exchanges the two nodes. -/
theorem heapSwap_run {h : Heap} {i j : Nat} {a b : Node} (ha : h.slots[i]? = some a)
    (hb : h.slots[j]? = some b) :
    heapSwap i j h = .ok () { h with slots := (h.slots.setIfInBounds i b).setIfInBounds j a } := by
  have hi : i < 95 := (Vector.getElem?_eq_some_iff.1 ha).1
  have hj : j < 95 := (Vector.getElem?_eq_some_iff.1 hb).1
  refine act_bind_ok.2 ⟨h, h, rfl, act_bind_ok.2 ⟨a, h, ofRead_ok.2 ⟨Heap.read_ok.2 ha, rfl⟩, ?_⟩⟩
  refine act_bind_ok.2 ⟨b, h, ofRead_ok.2 ⟨Heap.read_ok.2 hb, rfl⟩, ?_⟩
  exact act_bind_ok.2 ⟨(), _, heapWrite_ok.2 ⟨hi, rfl⟩, heapWrite_ok.2 ⟨hj, rfl⟩⟩

/-- Swapping two slots below HEAP_SIZE rearranges the heap. -/
theorem swapped_rearranged {h : Heap} {i j : Nat} {a b : Node} (ha : h.slots[i]? = some a)
    (hb : h.slots[j]? = some b) (hi : i < h.size.toNat) (hj : j < h.size.toNat) :
    h.Rearranged { h with slots := (h.slots.setIfInBounds i b).setIfInBounds j a } := by
  obtain ⟨hi', ha'⟩ := Vector.getElem?_eq_some_iff.1 ha
  obtain ⟨hj', hb'⟩ := Vector.getElem?_eq_some_iff.1 hb
  refine ⟨rfl, ?_, fun k hk => ?_⟩
  · have hs : (h.slots.setIfInBounds i b).setIfInBounds j a = h.slots.swap i j hi' hj' := by
      ext k hk : 1
      simp only [Vector.getElem_setIfInBounds, Vector.getElem_swap, ha', hb']
      by_cases h1 : j = k <;> by_cases h2 : i = k <;> simp_all [eq_comm]
    simp only [hs]
    exact Vector.perm_iff_toList_perm.1 (Vector.swap_perm hi' hj')
  · simp only [Vector.getElem?_setIfInBounds]
    rw [if_neg (by omega), if_neg (by omega)]

/-! ### Choosing a child -/

/-- The chosen slot is one of the two, and the second only when it is below HEAP_SIZE. -/
theorem Heap.smallerOf_ok {h : Heap} {m c x : Nat} (hx : h.smallerOf m c = .ok x) :
    x = m ∨ (x = c ∧ c < h.size.toNat) := by
  unfold Heap.smallerOf at hx
  split at hx
  · cases hk : h.keyLess c m with
    | error e => simp [hk, bind, Except.bind] at hx
    | ok b =>
      simp only [hk, bind, Except.bind, pure, Except.pure, Except.ok.injEq] at hx
      cases b <;> simp_all
  · simp_all [pure, Except.pure]

/-- One pass of SiftDown, as it stands in R122: from slot `i` to the chosen slot `m`. -/
theorem siftDown_succ_ok {fuel i : Nat} {h h' : Heap} (hs : siftDown (fuel + 1) i h = .ok () h') :
    ∃ c m, h.smallerOf i (2 * i + 1) = .ok c ∧ h.smallerOf c (2 * i + 2) = .ok m ∧
      ((m = i ∧ h' = h) ∨ (m ≠ i ∧ ∃ u, heapSwap i m h = .ok () u ∧ siftDown fuel m u = .ok () h')) := by
  unfold siftDown at hs
  simp only [act_bind_ok, ofRead_ok, act_get, EStateM.Result.ok.injEq] at hs
  obtain ⟨_, _, ⟨rfl, rfl⟩, c, _, ⟨hc, rfl⟩, m, _, ⟨hm, rfl⟩, hs⟩ := hs
  refine ⟨c, m, hc, hm, ?_⟩
  split at hs
  · rename_i he
    simp only [act_pure, EStateM.Result.ok.injEq, true_and] at hs
    exact .inl ⟨he, hs.symm⟩
  · rename_i he
    obtain ⟨_, u, hu, hs⟩ := act_bind_ok.1 hs
    exact .inr ⟨he, u, hu, hs⟩

/-- SiftDown of an occupied slot rearranges the heap. -/
theorem siftDown_rearranged {fuel i : Nat} {h h' : Heap} (hi : i < h.size.toNat)
    (hs : siftDown fuel i h = .ok () h') : h.Rearranged h' := by
  induction fuel generalizing i h with
  | zero =>
    obtain rfl : h = h' := by simpa [siftDown] using hs
    exact .refl h
  | succ fuel ih =>
    obtain ⟨c, m, hc, hm, ⟨rfl, rfl⟩ | ⟨hne, u, hu, hs⟩⟩ := siftDown_succ_ok hs
    · exact .refl h'
    · have hm' : m < h.size.toNat := by
        rcases Heap.smallerOf_ok hm with rfl | ⟨rfl, h1⟩
        · rcases Heap.smallerOf_ok hc with rfl | ⟨rfl, h1⟩
          · exact absurd rfl hne
          · exact h1
        · exact h1
      have hx := hu
      unfold heapSwap at hx
      simp only [act_bind_ok, ofRead_ok, act_get, EStateM.Result.ok.injEq, Heap.read_ok] at hx
      obtain ⟨_, _, ⟨rfl, rfl⟩, a, _, ⟨ha, rfl⟩, b, _, ⟨hb, rfl⟩, -⟩ := hx
      rw [heapSwap_run ha hb] at hu
      simp only [EStateM.Result.ok.injEq, true_and] at hu
      subst hu
      have hr := swapped_rearranged ha hb hi hm'
      exact hr.trans (ih (by rw [hr.size]; exact hm') hs)

/-- The loop bound of SiftDown is enough: from slot `i`, any two bounds of at least HEAP_SIZE − i give
the same result (every pass moves to a larger slot below HEAP_SIZE). -/
theorem siftDown_bound {f g i : Nat} {h : Heap} (hf : h.size.toNat ≤ f + i) (hg : h.size.toNat ≤ g + i) :
    siftDown f i h = siftDown g i h := by
  induction f generalizing g i h with
  | zero =>
    cases g with
    | zero => rfl
    | succ g =>
      have h1 : h.smallerOf i (2 * i + 1) = .ok i := by simp [Heap.smallerOf, pure, Except.pure]; omega
      have h2 : h.smallerOf i (2 * i + 2) = .ok i := by simp [Heap.smallerOf, pure, Except.pure]; omega
      change _ = EStateM.bind _ _ h
      simp [EStateM.bind, h1, h2, ofRead, siftDown, bind]
  | succ f ih =>
    cases g with
    | zero =>
      have h1 : h.smallerOf i (2 * i + 1) = .ok i := by simp [Heap.smallerOf, pure, Except.pure]; omega
      have h2 : h.smallerOf i (2 * i + 2) = .ok i := by simp [Heap.smallerOf, pure, Except.pure]; omega
      change EStateM.bind _ _ h = _
      simp [EStateM.bind, h1, h2, ofRead, siftDown, bind]
    | succ g =>
      change EStateM.bind _ _ h = EStateM.bind _ _ h
      simp only [EStateM.bind, bind, ofRead]
      cases hc : h.smallerOf i (2 * i + 1) with
      | error e => rfl
      | ok c =>
        simp only
        cases hm : h.smallerOf c (2 * i + 2) with
        | error e => rfl
        | ok m =>
          simp only
          split
          · rfl
          · rename_i hne
            have hgt : i < m ∧ m < h.size.toNat := by
              rcases Heap.smallerOf_ok hm with rfl | ⟨rfl, h1⟩
              · rcases Heap.smallerOf_ok hc with rfl | ⟨rfl, h1⟩
                · exact absurd rfl hne
                · exact ⟨by omega, h1⟩
              · exact ⟨by omega, h1⟩
            simp only [EStateM.bind]
            cases hu : heapSwap i m h with
            | error e u => rfl
            | ok a u =>
              have hsz : u.size = h.size := by
                unfold heapSwap at hu
                simp only [act_bind_ok, ofRead_ok, act_get, EStateM.Result.ok.injEq, heapWrite_ok] at hu
                obtain ⟨_, _, ⟨rfl, rfl⟩, _, _, ⟨_, rfl⟩, _, _, ⟨_, rfl⟩, _, _, ⟨_, rfl⟩, _, rfl⟩ := hu
                rfl
              exact ih (by rw [hsz]; omega) (by rw [hsz]; omega)

end Sys2Proof.Machine
end

