-- ==== Sys2Proof/Laws/Memory.lean ====
section
/-!
SUPPORT. The arrays: every operation that writes one keeps its length (so State.wf), a bit read after a
bit write, symbol lanes.
-/

namespace Sys2Proof.Machine

/-! ### Lengths -/

@[simp] theorem bitWrite_length (ws : List Word) (o : Nat) (b : Bool) : (bitWrite ws o b).length = ws.length := by
  simp [bitWrite]

@[simp] theorem packBit_length (c : CodeStream) (b : Bool) : (packBit c b).words.length = c.words.length := by
  simp [packBit]

@[simp] theorem pack_length (c : CodeStream) (code : List Bool) : (pack c code).words.length = c.words.length := by
  induction code generalizing c with
  | nil => rfl
  | cons b rest ih => exact (ih (packBit c b)).trans (packBit_length c b)

@[simp] theorem writeLanes_length (bytes : List Byte) (k : Nat) (v : Word) :
    (writeLanes bytes k v).length = bytes.length := by simp [writeLanes]

/-- ENCODE's loop keeps CODE_WORDS, however it ends. -/
theorem encodeLoop_length (t : Tree) (root : Index) (bytes : List Byte) (k : Nat) (c c' : CodeStream)
    (h : encodeLoop t root k bytes c = .ok () c' ∨ ∃ e, encodeLoop t root k bytes c = .error e c') :
    c'.words.length = c.words.length := by
  induction bytes generalizing k c with
  | nil =>
    rcases h with h | ⟨e, h⟩ <;> simp [encodeLoop] at h
    rw [h]
  | cons b rest ih =>
    unfold encodeLoop at h
    cases hd : domainIndex b with
    | none =>
      simp only [hd, raise_run] at h
      rcases h with h | ⟨e, h⟩ <;> simp at h
      rw [h.2]
    | some i =>
      simp only [hd, act_bind_ok, act_bind_error, ofRead_ok, ofRead_error] at h
      rcases h with ⟨code, u, ⟨_, rfl⟩, cs, v, hv, h⟩ | ⟨e, ⟨_, rfl⟩ | ⟨code, u, ⟨_, rfl⟩, hv | ⟨cs, v, hv, h⟩⟩⟩
      · obtain ⟨rfl, rfl⟩ : u = cs ∧ u = v := by simpa using hv
        split at h
        · simp at h
        · obtain ⟨_, w, hw, h⟩ := act_bind_ok.1 h
          obtain rfl : pack u code = w := by simpa using hw
          simpa using ih _ _ (.inl h)
      · rfl
      · simp at hv
      · obtain ⟨rfl, rfl⟩ : u = cs ∧ u = v := by simpa using hv
        split at h
        · simp only [raise_run, EStateM.Result.error.injEq] at h
          rw [h.2]
        · rcases act_bind_error.1 h with hw | ⟨_, w, hw, h⟩
          · simp at hw
          · obtain rfl : pack u code = w := by simpa using hw
            simpa using ih _ _ (.inr ⟨e, h⟩)

/-- EmitSymbol keeps the length of OUTBUF. -/
theorem emitSymbol_length (n : Node) (o : Nat) (x x' : Output)
    (h : emitSymbol n o x = .ok () x' ∨ ∃ e, emitSymbol n o x = .error e x') :
    x'.bytes.length = x.bytes.length := by
  unfold emitSymbol at h
  simp only [act_bind_ok, act_bind_error] at h
  rcases h with ⟨a, u, hu, h⟩ | ⟨e, hu | ⟨a, u, hu, h⟩⟩
  · obtain ⟨rfl, rfl⟩ : x = a ∧ x = u := by simpa using hu
    split at h
    · simp at h
    · cases hl : lsb n.symbolSet <;> simp [hl] at h
      simp [← h]
  · simp at hu
  · obtain ⟨rfl, rfl⟩ : x = a ∧ x = u := by simpa using hu
    split at h
    · simp only [raise_run, EStateM.Result.error.injEq] at h
      rw [h.2]
    · cases hl : lsb n.symbolSet <;> simp [hl] at h
      rw [h.2]

/-- DECODE's loop keeps the length of OUTBUF, however it ends. -/
theorem decodeLoop_length (t : Tree) (c : CodeStream) (r : Node) (fuel o : Nat) (x x' : Output)
    (h : decodeLoop t c r fuel o x = .ok () x' ∨ ∃ e, decodeLoop t c r fuel o x = .error e x') :
    x'.bytes.length = x.bytes.length := by
  induction fuel generalizing o x with
  | zero => rcases h with h | ⟨e, h⟩ <;> simp [decodeLoop] at h; rw [h]
  | succ fuel ih =>
    unfold decodeLoop at h
    split at h
    · simp only [act_bind_ok, act_bind_error, ofRead_ok, ofRead_error] at h
      rcases h with ⟨y, u, ⟨_, rfl⟩, _, v, hv, h⟩ | ⟨e, ⟨_, rfl⟩ | ⟨y, u, ⟨_, rfl⟩, hv | ⟨_, v, hv, h⟩⟩⟩
      · exact (ih _ _ (.inl h)).trans (emitSymbol_length _ _ _ _ (.inl hv))
      · rfl
      · exact emitSymbol_length _ _ _ _ (.inr ⟨e, hv⟩)
      · exact (ih _ _ (.inr ⟨e, h⟩)).trans (emitSymbol_length _ _ _ _ (.inl hv))
    · rcases h with h | ⟨e, h⟩ <;> simp at h
      rw [h]

/-! ### State.wf -/

theorem initialise_wf (s : State) : s.initialise.wf := by simp [State.wf]

theorem applyReset_wf (s : State) : s.applyReset.wf := initialise_wf s

theorem powerOn_wf (p : Params) : (State.powerOn p).wf := by simp [State.wf, State.powerOn, State.cleared]

theorem reset_wf : State.reset.wf := powerOn_wf _

/-- A host write of any location keeps the lengths of the arrays. -/
theorem storeAt_wf (s : State) (v : Word) (l : Location) (h : s.wf) : (s.storeAt v l).wf := by
  cases l <;> simpa [State.storeAt, State.wf] using h

/-- A host read keeps the block, so the lengths of its arrays. -/
theorem hostRead_wf (s : State) (off : Nat) (h : s.wf) : (s.hostRead off).wf := by
  unfold State.hostRead
  split <;> exact h

/-- A host write keeps the lengths of the arrays. -/
theorem hostWrite_wf (s : State) (off : Nat) (v : Word) (h : s.wf) : (s.hostWrite off v).wf := by
  unfold State.hostWrite
  split
  · split <;> exact h
  · exact storeAt_wf s v _ h

/-! ### Bits -/

theorem putBit_getLsbD (w : Word) (i j : Nat) (b : Bool) (hi : i < 32) :
    (putBit w i b).getLsbD j = if j = i then b else w.getLsbD j := by
  unfold putBit
  by_cases hj : j = i
  · subst hj
    cases b <;> simp [hi]
  · by_cases hj32 : j < 32
    · cases b <;> simp [hj, hj32]
    · cases b <;> simp [BitVec.getLsbD_of_ge _ _ (Nat.le_of_not_lt hj32), hj]

/-- A stream bit read after a stream bit write: the bit written at its own offset, the old bit elsewhere
(43_encode.md R166). -/
theorem bitRead_bitWrite (ws : List Word) (o o' : Nat) (b : Bool) (ho : o < 32 * ws.length) :
    bitRead (bitWrite ws o b) o' = if o' = o then some b else bitRead ws o' := by
  unfold bitRead bitWrite
  simp only [Config.wordBits, List.getElem?_modify]
  have hlt : o / 32 < ws.length := by omega
  by_cases hw : o / 32 = o' / 32
  · simp only [← hw, List.getElem?_eq_getElem hlt, if_true, Option.map_some, Option.map_eq_map]
    rw [putBit_getLsbD _ _ _ _ (by omega)]
    by_cases he : o' = o
    · simp [he]
    · rw [if_neg he, if_neg (by omega)]
  · simp only [hw, if_false]
    have he : o' ≠ o := fun h => hw (by rw [h])
    simp [he]

/-- Reading a byte of INBUF after a write of INBUF word k (20_memory.md R65). -/
theorem writeLanes_getElem? (bytes : List Byte) (k p : Nat) (v : Word) :
    (writeLanes bytes k v)[p]? =
      if p / 4 = k ∧ p < bytes.length then some (v.extractLsb' (8 * (p % 4)) 8) else bytes[p]? := by
  unfold writeLanes
  simp only [List.getElem?_set, List.length_set]
  have hp : p = 4 * (p / 4) + p % 4 := by omega
  have hr : p % 4 = 0 ∨ p % 4 = 1 ∨ p % 4 = 2 ∨ p % 4 = 3 := by omega
  by_cases hk : p / 4 = k
  · by_cases hl : p < bytes.length
    · subst hk
      rcases hr with h | h | h | h <;> rw [h] at hp ⊢ <;> simp [hl] <;> repeat' (first | rfl | omega | split)
    · have : bytes[p]? = none := by simp; omega
      simp only [hl, and_false, if_false, this]
      repeat' split
      all_goals first | rfl | omega
  · simp only [hk, false_and, if_false]
    repeat' split
    all_goals first | rfl | omega

end Sys2Proof.Machine
end

