-- ==== Sys2Proof/Laws/Operands.lean ====
section
/-!
SUPPORT. What the operand forms can do, said once: symbols and domain indices (40_count.md R113), `lsb`,
leaves and malformed nodes (00_scope.md R12).
-/

namespace Sys2Proof.Machine

/-- A byte has a domain index exactly when it is in the domain, and then it is the index's symbol. -/
theorem domainIndex_eq_some {c : Byte} {i : Fin Config.domainSize} :
    domainIndex c = some i ↔ c = symbolByte i.val := by
  obtain ⟨i, hi⟩ := i
  have hi : i < 95 := hi
  unfold domainIndex symbolByte
  rw [← BitVec.toNat_inj, BitVec.toNat_ofNat]
  split
  · rename_i h
    have h1 : 0x20 ≤ c.toNat := h.1
    rw [Option.some.injEq, Fin.mk.injEq]
    show c.toNat - 0x20 = i ↔ _ = (0x20 + i) % 2 ^ 8
    omega
  · rename_i h
    have h1 : ¬ (0x20 ≤ c.toNat ∧ c.toNat ≤ 0x7E) := h
    simp only [reduceCtorEq, false_iff]
    show ¬ _ = (0x20 + i) % 2 ^ 8
    omega

/-- No domain index exactly outside the domain. -/
theorem domainIndex_eq_none {c : Byte} : domainIndex c = none ↔ inDomain c = false := by
  unfold domainIndex inDomain
  split <;> simp_all

@[simp] theorem domainIndex_symbolByte (i : Fin Config.domainSize) : domainIndex (symbolByte i.val) = some i :=
  domainIndex_eq_some.2 rfl

theorem lowestFrom_eq_some {s : SymbolSet} {todo i j : Nat} :
    lowestFrom s todo i = some j ↔
      i ≤ j ∧ j < i + todo ∧ s.getLsbD j = true ∧ ∀ k, i ≤ k → k < j → s.getLsbD k = false := by
  induction todo generalizing i with
  | zero => simp [lowestFrom]; omega
  | succ todo ih =>
    unfold lowestFrom
    split
    · rename_i h
      refine ⟨fun e => ?_, fun ⟨h1, _, _, h4⟩ => ?_⟩
      · obtain rfl : i = j := by simpa using e
        exact ⟨le_refl _, by omega, h, fun k a b => absurd b (by omega)⟩
      · rcases Nat.lt_or_eq_of_le h1 with h5 | rfl
        · simp [h4 i (le_refl _) h5] at h
        · rfl
    · rename_i h
      rw [ih]
      refine ⟨fun ⟨h1, h2, h3, h4⟩ => ⟨by omega, by omega, h3, fun k a b => ?_⟩,
        fun ⟨h1, h2, h3, h4⟩ => ⟨?_, by omega, h3, fun k a b => h4 k (by omega) b⟩⟩
      · rcases Nat.lt_or_eq_of_le a with h5 | rfl
        · exact h4 k (by omega) b
        · simpa using h
      · rcases Nat.lt_or_eq_of_le h1 with h5 | rfl
        · omega
        · simp [h3] at h

/-- `lsb(s)` is the smallest index in `s` (R12). -/
theorem lsb_eq_some {s : SymbolSet} {j : Nat} :
    lsb s = some j ↔ j < 95 ∧ s.getLsbD j = true ∧ ∀ k < j, s.getLsbD k = false := by
  unfold lsb
  rw [lowestFrom_eq_some]
  simp [Config.domainSize]

/-- The set with only bit `i` has the single index `i` (R12). -/
theorem singletonSet_getLsbD (i : Fin Config.domainSize) (k : Nat) :
    (singletonSet i).getLsbD k = decide (k = i.val) := by
  have hi : i.val < 95 := i.isLt
  simp only [singletonSet, BitVec.getLsbD_twoPow]
  by_cases h : i.val = k
  · simp [← h, hi]
  · simp [h, Ne.symm h]

@[simp] theorem lsb_singletonSet (i : Fin Config.domainSize) : lsb (singletonSet i) = some i.val := by
  rw [lsb_eq_some]
  refine ⟨i.isLt, by simp [singletonSet_getLsbD], fun k h => ?_⟩
  simp [singletonSet_getLsbD]
  omega

/-- A set has no lsb exactly when it is empty. -/
theorem lsb_eq_none {s : SymbolSet} : lsb s = none ↔ s = 0#95 := by
  constructor
  · intro h
    by_contra hne
    obtain ⟨j, hj⟩ : ∃ j, s.getLsbD j = true := by
      by_contra hall
      exact hne (BitVec.eq_of_getLsbD_eq fun i _ => by
        simpa using (not_exists.1 hall i))
    have hex : ∃ j, s.getLsbD j = true := ⟨j, hj⟩
    classical
    have hs := Nat.find_spec hex
    have hm := fun k (hk : k < Nat.find hex) => Nat.find_min hex hk
    have : lsb s = some (Nat.find hex) :=
      lsb_eq_some.2 ⟨BitVec.lt_of_getLsbD hs, hs, fun k hk => by simpa using hm k hk⟩
    simp [this] at h
  · rintro rfl
    by_contra h
    obtain ⟨j, hj⟩ := Option.ne_none_iff_exists'.1 h
    simpa using (lsb_eq_some.1 hj).2.1

/-- A leaf has no child (R12). -/
theorem isLeaf_iff {n : Node} : n.isLeaf = true ↔ n.left = 0xFF#8 ∧ n.right = 0xFF#8 := by
  simp [Node.isLeaf]

/-- A malformed node has exactly one child (R12). -/
theorem isMalformed_iff {n : Node} : n.isMalformed = true ↔ ¬ (n.left = 0xFF#8 ↔ n.right = 0xFF#8) := by
  by_cases hl : n.left = 0xFF#8 <;> by_cases hr : n.right = 0xFF#8 <;> simp [Node.isMalformed, hl, hr]

end Sys2Proof.Machine
end

