-- ==== Sys2Proof/Laws/PerInstr.lean ====
section
/-!
SUPPORT. One lemma per command about its word (30_encoding.md R90, R91, R93).
-/

namespace Sys2Proof.Laws.Encoding

/-- The command's word is legal and has the two fields of R90: `rsv` is 0 and `op` is the opcode, one of
the map's. The command has no operand that could be ill formed (R91). -/
def Statement (i : Instr) : Prop :=
  i.wellFormed = true ∧ legalWord (encodeWord i) = true ∧ rsvField (encodeWord i) = 0#24 ∧
    opField (encodeWord i) = opcode i ∧ commandOf (opcode i) = some i

theorem nop : Statement .nop := by unfold Statement; decide

theorem init : Statement .init := by unfold Statement; decide

theorem count : Statement .count := by unfold Statement; decide

theorem heapify : Statement .heapify := by unfold Statement; decide

theorem merge : Statement .merge := by unfold Statement; decide

theorem build : Statement .build := by unfold Statement; decide

theorem encode : Statement .encode := by unfold Statement; decide

theorem decode : Statement .decode := by unfold Statement; decide

theorem verify : Statement .verify := by unfold Statement; decide

theorem run : Statement .run := by unfold Statement; decide

end Sys2Proof.Laws.Encoding
end

