-- ==== Sys2Proof/Laws/Tree.lean ====
section
/-!
SUPPORT. The tree builder's primitives, said once: where TreeAppend puts a node and when a node of the heap
is appended (42_tree.md R140, R141).
-/

namespace Sys2Proof.Machine

/-- TreeAppend ends normally exactly with a free slot: the node with its new index stands at the old
TREE_SIZE, and TREE_SIZE is one more. -/
theorem treeAppend_ok {n n' : Node} {t t' : Tree} :
    treeAppend n t = .ok n' t' ↔
      t.size.toNat < 189 ∧ n' = { n with insertedAt := t.size } ∧
        t' = { slots := t.slots.setIfInBounds t.size.toNat n', size := t.size + 1#8 } := by
  unfold treeAppend
  by_cases h : t.size.toNat < 189
  · simp only [Config.treeCap, h, if_true, EStateM.Result.ok.injEq, true_and]
    exact ⟨fun ⟨h1, h2⟩ => ⟨h1.symm, by rw [← h1]; exact h2.symm⟩, fun ⟨h1, h2⟩ => ⟨h1.symm, by rw [h2, h1]⟩⟩
  · simp [Config.treeCap, h]

/-- TreeAppend stops exactly when no slot is free, and changes nothing. -/
theorem treeAppend_error {n : Node} {t t' : Tree} {e : Stop} :
    treeAppend n t = .error e t' ↔ 189 ≤ t.size.toNat ∧ e = .stuck .noSuchElement ∧ t' = t := by
  unfold treeAppend
  by_cases h : t.size.toNat < 189
  · simp [Config.treeCap, h]
  · simp [Config.treeCap, h, eq_comm]
    omega

/-- A new node is appended. -/
theorem appendIfNew_new {n n' : Node} {s s' : State} (h : n.insertedAt = 0xFF#8) :
    appendIfNew n s = .ok n' s' ↔ ∃ t, treeAppend n s.tree = .ok n' t ∧ s' = { s with tree := t } := by
  unfold appendIfNew
  rw [if_pos h]
  exact onPart_ok

/-- A node already in TREE keeps its index, and nothing changes. -/
theorem appendIfNew_old {n : Node} {s : State} (h : n.insertedAt ≠ 0xFF#8) : appendIfNew n s = .ok n s := by
  unfold appendIfNew
  rw [if_neg h]
  rfl

end Sys2Proof.Machine
end

