-- ==== Sys2Proof/Tests/Slice0.lean ====
section
/-!
SUPPORT. Tests of one step or one decoding each, expected values from 95_test_vectors.md and the encoding
tables, and for every statement with hypotheses a named witness that meets them.
-/

namespace Sys2Proof.Tests

-- One theorem at a time: each kernel evaluation would otherwise hold a thread with its own large stack.
set_option Elab.async false

open Sys2Proof Sys2Proof.Machine

/-! ### Helpers -/

/-- The answer is a next state that passes `p`. -/
def nextHas (r : Host.Outcome State Fault Refusal) (p : State → Bool) : Bool :=
  match r with
  | .next t => p t
  | _ => false

theorem exists_next {r : Host.Outcome State Fault Refusal} {p : State → Bool} (h : nextHas r p = true) :
    ∃ t, r = .next t ∧ p t = true := by
  unfold nextHas at h
  split at h
  · exact ⟨_, rfl, h⟩
  · cases h

/-- The answer is the given fault. -/
def faultIs (r : Host.Outcome State Fault Refusal) (f : Fault) : Bool :=
  match r with
  | .fault g => g == f
  | _ => false

theorem eq_fault {r : Host.Outcome State Fault Refusal} {f : Fault} (h : faultIs r f = true) : r = .fault f := by
  unfold faultIs at h
  split at h
  · simp_all
  · cases h

/-- CodeOf answered the given code. -/
def codeIs (r : Except Stop (List Bool)) (code : List Bool) : Bool :=
  match r with
  | .ok c => c == code
  | .error _ => false

theorem eq_code {r : Except Stop (List Bool)} {code : List Bool} (h : codeIs r code = true) : r = .ok code := by
  unfold codeIs at h
  split at h
  · simp_all
  · cases h

/-- CodeOf raised the given error. -/
def codeRaises (r : Except Stop (List Bool)) (e : Raise) : Bool :=
  match r with
  | .error (.raise r) => r == e
  | _ => false

theorem eq_raise {r : Except Stop (List Bool)} {e : Raise} (h : codeRaises r e = true) :
    r = .error (.raise e) := by
  unfold codeRaises at h
  split at h
  · simp_all
  · cases h

/-- `codes` are the codes of `bytes` from position `k` on. -/
def checkCodes (s : State) : Nat → List Byte → List (List Bool) → Bool
  | _, [], [] => true
  | k, c :: cs, code :: codes =>
    (match domainIndex c with
      | some i => codeIs (codeOf s.tree s.root i k) code
      | none => false) && checkCodes s (k + 1) cs codes
  | _, [], _ :: _ => false
  | _, _ :: _, [] => false

theorem codesFrom_of_check (s : State) (k : Nat) (bytes : List Byte) (codes : List (List Bool))
    (h : checkCodes s k bytes codes = true) :
    codes.length = bytes.length ∧ ∀ j c, bytes[j]? = some c →
      ∃ i code, domainIndex c = some i ∧ codes[j]? = some code ∧ codeOf s.tree s.root i (k + j) = .ok code := by
  induction bytes generalizing k codes with
  | nil => cases codes with
    | nil => simp
    | cons => simp [checkCodes] at h
  | cons b bs ih => cases codes with
    | nil => simp [checkCodes] at h
    | cons code rest =>
      simp only [checkCodes, Bool.and_eq_true] at h
      obtain ⟨h1, h2⟩ := h
      obtain ⟨hl, hr⟩ := ih (k + 1) rest h2
      refine ⟨by simp [hl], fun j c hj => ?_⟩
      cases j with
      | zero =>
        obtain rfl : b = c := by simpa using hj
        cases hd : domainIndex b with
        | none => simp [hd] at h1
        | some i =>
          simp only [hd] at h1
          exact ⟨i, code, rfl, rfl, eq_code h1⟩
      | succ j =>
        obtain ⟨i, code', hi, hc, ho⟩ := hr j c (by simpa using hj)
        exact ⟨i, code', hi, by simpa using hc, by rw [show k + (j + 1) = k + 1 + j by omega]; exact ho⟩

theorem codesOf_of_check {s : State} {bytes : List Byte} {codes : List (List Bool)}
    (h : checkCodes s 0 bytes codes = true) : s.CodesOf bytes codes := by
  obtain ⟨hl, hr⟩ := codesFrom_of_check s 0 bytes codes h
  exact ⟨hl, fun k c hk => by simpa using hr k c hk⟩

theorem codesFor_of_check {s : State} {is : List (Fin 95)} {codes : List (List Bool)}
    (hl : codes.length = is.length)
    (h : ((is.zip codes).all fun x => codeIs (codeOf s.tree s.root x.1 0) x.2) = true) : s.CodesFor is codes := by
  refine ⟨hl, fun k i hk => ?_⟩
  obtain ⟨hlt, hi⟩ := List.getElem?_eq_some_iff.1 hk
  have hc : k < codes.length := hl ▸ hlt
  refine ⟨codes[k], 0, List.getElem?_eq_getElem hc, eq_code ?_⟩
  have hz : (is.zip codes)[k]? = some (i, codes[k]) := by
    simp [List.getElem?_zip_eq_some, hk, hc]
  exact List.all_eq_true.1 h _ (List.mem_of_getElem? hz)

/-- Domain indices of 'a', 'b', 'c', 'z' (95_test_vectors.md). -/
abbrev symA : Fin 95 := ⟨0x41, by decide⟩
abbrev symB : Fin 95 := ⟨0x42, by decide⟩
abbrev symC : Fin 95 := ⟨0x43, by decide⟩
abbrev symZ : Fin 95 := ⟨0x5A, by decide⟩

/-- A leaf of weight `w`, appended at `j` (0xFF: not yet). -/
def leafAt (i : Fin 95) (w : Nat) (j : Index) : Node :=
  { symbolSet := singletonSet i, weight := BitVec.ofNat 32 w, left := 0xFF#8, right := 0xFF#8, insertedAt := j }

/-- "aaab" (vectors V-*-1) just after reset, N = 4, CODE_WORDS = 1. -/
def fresh : State := State.cleared 0 [0x61#8, 0x61#8, 0x61#8, 0x62#8] 1

/-- After COUNT: V-COUNT-1. -/
def counted : State :=
  { fresh with phase := .counted, distinct := 2#7, hist := (zeroHist.set 0x41 3#32).set 0x42 1#32 }

/-- After HEAPIFY: V-HEAP-1. -/
def heaped : State :=
  { counted with
    phase := .heaped
    heap :=
      { slots := (emptyHeap.slots.set 0 (leafAt symB 1 0xFF#8)).set 1 (leafAt symA 3 0xFF#8), size := 2#7 } }

/-- The merge node {a,b}4, left 0, right 1, at index 2 (V-TREE-1). -/
def rootAB : Node :=
  { symbolSet := singletonSet symA ||| singletonSet symB, weight := 4#32, left := 0#8, right := 1#8,
    insertedAt := 2#8 }

/-- After BUILD: V-TREE-1. -/
def built : State :=
  { counted with
    phase := .built
    heap := { slots := emptyHeap.slots.set 0 rootAB, size := 1#7 }
    tree :=
      { slots := ((emptyTree.slots.set 0 (leafAt symB 1 0#8)).set 1 (leafAt symA 3 1#8)).set 2 rootAB, size := 3#8 }
    root := 2#8 }

/-- After ENCODE: V-ENC-1. -/
def encoded : State := { built with phase := .encoded, code := { words := [0xE0000000#32], bitlen := 4#32 } }

/-- After DECODE. -/
def decoded : State := { encoded with phase := .decoded, out := { bytes := encoded.inbuf, count := 4#17 } }

/-- "zzzz" after COUNT: V-COUNT-6 (D = 1). -/
def countedZ : State :=
  { State.cleared 0 (List.replicate 4 0x7A#8) 1 with
    phase := .counted, distinct := 1#7, hist := zeroHist.set 0x5A 4#32 }

/-- After HEAPIFY: V-HEAP-3. -/
def heapedZ : State :=
  { countedZ with
    phase := .heaped, heap := { slots := emptyHeap.slots.set 0 (leafAt symZ 4 0xFF#8), size := 1#7 } }

/-- After MERGE: V-TREE-3. -/
def builtZ : State :=
  { countedZ with
    phase := .built
    heap := { slots := emptyHeap.slots.set 0 (leafAt symZ 4 0#8), size := 1#7 }
    tree := { slots := emptyTree.slots.set 0 (leafAt symZ 4 0#8), size := 1#8 }
    root := 0#8 }

/-- "abcc" after HEAPIFY: leaves a1, b1, c2. -/
def heaped3 : State :=
  { State.cleared 0 [0x61#8, 0x62#8, 0x63#8, 0x63#8] 1 with
    phase := .heaped
    distinct := 3#7
    hist := ((zeroHist.set 0x41 1#32).set 0x42 1#32).set 0x43 2#32
    heap :=
      { slots := ((emptyHeap.slots.set 0 (leafAt symA 1 0xFF#8)).set 1 (leafAt symB 1 0xFF#8)).set 2
          (leafAt symC 2 0xFF#8)
        size := 3#7 } }

/-- "abcc" built by hand from R141: pops a1, b1, then {a,b}2 (key (2, 65)) before c2 (key (2, 67)). -/
def built3 : State :=
  { heaped3 with
    phase := .encoded
    tree :=
      { slots :=
          ((((emptyTree.slots.set 0 (leafAt symA 1 0#8)).set 1 (leafAt symB 1 1#8)).set 2
            { symbolSet := singletonSet symA ||| singletonSet symB, weight := 2#32, left := 0#8, right := 1#8,
              insertedAt := 2#8 }).set 3 (leafAt symC 2 3#8)).set 4
            { symbolSet := singletonSet symA ||| singletonSet symB ||| singletonSet symC, weight := 4#32,
              left := 2#8, right := 3#8, insertedAt := 4#8 }
        size := 5#8 }
    root := 4#8
    code := { words := [0x80000000#32], bitlen := 2#32 } }

/-- `s` with the word `c` latched. -/
def withPending (s : State) (c : Word) : State := { s with pending := some c, busy := true }

/-! ### Decoding: the words of 30_encoding.md R92 bit by bit -/

theorem test_decode_nop : decodeWord 0b00000000000000000000000000000000#32 = .legal .nop := by decide
theorem test_decode_init : decodeWord 0b00000000000000000000000000000001#32 = .legal .init := by decide
theorem test_decode_count : decodeWord 0b00000000000000000000000000000010#32 = .legal .count := by decide
theorem test_decode_heapify : decodeWord 0b00000000000000000000000000000011#32 = .legal .heapify := by decide
theorem test_decode_merge : decodeWord 0b00000000000000000000000000000100#32 = .legal .merge := by decide
theorem test_decode_build : decodeWord 0b00000000000000000000000000000101#32 = .legal .build := by decide
theorem test_decode_encode : decodeWord 0b00000000000000000000000000000110#32 = .legal .encode := by decide
theorem test_decode_decode : decodeWord 0b00000000000000000000000000000111#32 = .legal .decode := by decide
theorem test_decode_verify : decodeWord 0b00000000000000000000000000001000#32 = .legal .verify := by decide
theorem test_decode_run : decodeWord 0b00000000000000000000000000001001#32 = .legal .run := by decide

/-- R94: the first reserved opcode, and every reserved bit. -/
theorem test_decode_reserved_opcode : decodeWord 0x0000000A#32 = .illegal .unassignedOpcode := by decide
theorem test_decode_reserved_bits : decodeWord 0x00000102#32 = .illegal .reservedBits ∧
    decodeWord 0x80000009#32 = .illegal .reservedBits := by decide

theorem test_decodeTableWord : decodeTableWord 32 9 = some .run ∧ decodeTableWord 32 0x102 = none := by decide

/-! ### WellFormed refuses what is ill formed -/

theorem test_legalWord : legalWord 0x00000009#32 = true := by decide
theorem test_reservedClear_refuses : reservedClear 0x00000102#32 = false := by decide
theorem test_opcodeAssigned_refuses : opcodeAssigned 0x0000000A#32 = false := by decide
theorem test_wellFormed : Instr.wellFormed .merge = true := by decide
theorem test_inputLenOk_refuses : Params.inputLenOk ⟨0, 1, 0⟩ = false ∧ Params.inputLenOk ⟨65537, 1, 0⟩ = false := by
  decide
theorem test_codeWordsOk_refuses :
    Params.codeWordsOk ⟨1, 0, 0⟩ = false ∧ Params.codeWordsOk ⟨1, 262145, 0⟩ = false := by decide
theorem test_baseOk_refuses : Params.baseOk ⟨1, 1, 0x100000⟩ = false := by decide

/-! ### One step each, from the vectors of 95_test_vectors.md -/

/-- V-CTL-2. -/
theorem test_nop : nextHas (exec .nop built) (fun t => t == built) = true := by decide +kernel

/-- V-CTL-4: INIT out of ERROR clears HIST and the error, and leaves INBUF. -/
theorem test_init : nextHas (exec .init { counted with phase := .error, errCode := .domain, errOp := 2#8 })
    (fun t => t.statusWord == 0#32 && t.hist[0x41] == 0#32 && t.inbuf == counted.inbuf) = true := by decide +kernel

/-- V-COUNT-1. -/
theorem test_count : nextHas (exec .count fresh) (fun t => t == counted) = true := by decide +kernel

/-- V-COUNT-4: tab at position 2. -/
theorem test_count_domain :
    nextHas (exec .count { fresh with inbuf := [0x61#8, 0x61#8, 0x09#8, 0x62#8] })
      (fun t => t.statusWord == 0x00020714#32 && t.errInfo == 2#32 && t.hist[0x41] == 2#32 &&
        t.distinct == 0#7) = true := by decide +kernel

/-- V-HEAP-1: the leaves [a3, b1] are swapped. -/
theorem test_heapify : nextHas (exec .heapify counted) (fun t => t == heaped) = true := by decide +kernel

/-- V-HEAP-5: HEAPIFY in IDLE. -/
theorem test_heapify_sequence : nextHas (exec .heapify fresh)
    (fun t => t.statusWord == 0x00030774#32 && t.errInfo == 0#32) = true := by decide +kernel

/-- V-TREE-1. -/
theorem test_merge : nextHas (exec .merge heaped) (fun t => t == built) = true := by decide +kernel

/-- V-TREE-5: MERGE in BUILT. -/
theorem test_merge_sequence : nextHas (exec .merge built)
    (fun t => t.statusWord == 0x00040774#32 && t.errInfo == 3#32) = true := by decide +kernel

/-- V-TREE-3 by BUILD: the lone leaf is appended at finalisation. -/
theorem test_build_lone : nextHas (exec .build heapedZ) (fun t => t == builtZ) = true := by decide +kernel

/-- R141 by hand on "abcc": the tree of `built3`. -/
theorem test_build_three : nextHas (exec .build heaped3)
    (fun t => t.tree == built3.tree && t.root == 4#8 && t.phase == .built) = true := by decide +kernel

/-- V-ENC-1, V-ENC-10: CODEBUF is cleared first. -/
theorem test_encode : nextHas (exec .encode { built with code := { words := [0xFFFFFFFF#32], bitlen := 0#32 } })
    (fun t => t == encoded) = true := by decide +kernel

/-- V-ENC-8: 'c' at position 3 is not in the tree. -/
theorem test_encode_absent : nextHas (exec .encode { built with inbuf := [0x61#8, 0x61#8, 0x61#8, 0x63#8] })
    (fun t => t.statusWord == 0x00060754#32 && t.errInfo == 3#32 && t.code.bitlen == 3#32 &&
      t.code.words == [0xE0000000#32]) = true := by decide +kernel

/-- 44_decode.md R180, example. -/
theorem test_decode : nextHas (exec .decode encoded) (fun t => t == decoded) = true := by decide +kernel

/-- V-DEC-6: a 1 bit at offset 2 with a leaf root. -/
theorem test_decode_lone_one :
    nextHas (exec .decode { builtZ with phase := .encoded, code := { words := [0x20000000#32], bitlen := 4#32 } })
      (fun t => t.statusWord == 0x00070734#32 && t.errInfo == 3#32 && t.out.count == 2#17 &&
        t.out.bytes == [0x7A#8, 0x7A#8, 0#8, 0#8]) = true := by decide +kernel

/-- 44_decode.md R190, example. -/
theorem test_verify : nextHas (exec .verify decoded) (fun t => t.statusWord == 0x00000608#32) = true := by
  decide +kernel

/-- V-DEC-8: INBUF[0] rewritten. -/
theorem test_verify_mismatch :
    nextHas (exec .verify { decoded with inbuf := [0x62#8, 0x61#8, 0x61#8, 0x62#8] })
      (fun t => t.statusWord == 0x00080764#32 && t.errInfo == 0#32) = true := by decide +kernel

/-- P1. -/
theorem test_run : nextHas (exec .run fresh)
    (fun t => t.statusWord == 0x00000608#32 && t.code == encoded.code && t.out == decoded.out &&
      t.tree == built.tree) = true := by decide +kernel

/-- P3: the domain error names COUNT's opcode. -/
theorem test_run_domain : nextHas (exec .run { fresh with inbuf := [0x61#8, 0x61#8, 0x09#8, 0x62#8] })
    (fun t => t.statusWord == 0x00020714#32 && t.errInfo == 2#32) = true := by decide +kernel

/-- V-CTL-5, as a step: an illegal word, and BUSY cleared after it. -/
theorem test_step_illegal : nextHas (step (withPending fresh 0x0000000A#32))
    (fun t => t.statusWord == 0x000A0784#32 && t.errInfo == 0x0000000A#32) = true := by decide +kernel

/-- V-CTL-3, as a step: discarded in ERROR. -/
theorem test_step_discard :
    nextHas (step (withPending { fresh with phase := .error, errCode := .domain, errOp := 2#8 } 0x00000002#32))
      (fun t => t.statusWord == 0x00020714#32) = true := by decide +kernel

/-- V-CTL-8: a CMD write during BUSY sets OVERRUN and keeps PENDING. -/
theorem test_write_during_busy :
    nextHas (step { withPending built 0x6#32 with events := [.access ⟨true, 0x010, 4, 0#32⟩] })
      (fun t => t.overrun && t.pending == some 0x6#32) = true := by decide +kernel

/-- V-CTL-1: ROOT and an unused slot's words after reset. -/
theorem test_read_reset : (State.reset.hostRead 0x028).readData = 0x000000FF#32 ∧
    (State.reset.hostRead 0x100C).readData = 0xFFFFFFFF#32 ∧
    (State.reset.hostRead 0x1010).readData = 0x00FFFFFF#32 := by decide +kernel

/-- P1: TREE[2] words 2 and 4. -/
theorem test_read_tree : (built.hostRead 0x2048).readData = 0x00000006#32 ∧
    (built.hostRead 0x2050).readData = 0x00020100#32 := by decide +kernel

/-- V-CTL-11's lanes: N = 3, a write of all ones leaves lane 3 at 0. -/
theorem test_lanes :
    (((State.cleared 0 [0x61#8, 0x62#8, 0x63#8] 1).hostWrite 0x10000 0xFFFFFFFF#32).hostRead 0x10000).readData =
      0x00FFFFFF#32 := by decide +kernel

/-- The first step after reset runs the placed command: HEAPIFY raises SEQUENCE in IDLE. -/
theorem test_withFetchWord : nextHas (step (State.reset.withFetchWord 32 3))
    (fun t => t.statusWord == 0x00030774#32) = true := by decide +kernel

/-! ### Witnesses: the hypotheses of each statement can be met together -/

theorem wit_StepRunsTheDecodedCommand_nil : ∃ (s : State) (c : Word) (i : Instr) (rest : List Event),
    s.BlockHasTurn rest ∧ s.rstN = true ∧ s.pending = some c ∧ decodeWord c = .legal i :=
  ⟨withPending fresh 2#32, 2#32, .count, [], .inl ⟨rfl, rfl⟩, rfl, rfl, rfl⟩

theorem wit_StepRunsTheDecodedCommand_block : ∃ (s : State) (c : Word) (i : Instr) (rest : List Event),
    s.BlockHasTurn rest ∧ s.rstN = true ∧ s.pending = some c ∧ decodeWord c = .legal i :=
  ⟨{ withPending fresh 2#32 with events := [.block] }, 2#32, .count, [], .inr rfl, rfl, rfl, rfl⟩

theorem wit_IllegalWordRaisesIllegalCmd : ∃ (s : State) (c : Word) (why : Reject) (rest : List Event),
    s.BlockHasTurn rest ∧ s.rstN = true ∧ s.pending = some c ∧ decodeWord c = .illegal why ∧ s.phase ≠ .error :=
  ⟨withPending fresh 10#32, 10#32, .unassignedOpcode, [], .inl ⟨rfl, rfl⟩, rfl, rfl, rfl, by decide⟩

theorem wit_ErrorPhaseDiscards_legal : ∃ (i : Instr) (p : Phase) (s : State), requiredPhase i = some p ∧ s.phase = .error :=
  ⟨.count, .idle, { fresh with phase := .error }, rfl, rfl⟩

theorem wit_ErrorPhaseDiscards_illegal : ∃ (s : State) (c : Word) (why : Reject) (rest : List Event),
    s.BlockHasTurn rest ∧ s.rstN = true ∧ s.pending = some c ∧ decodeWord c = .illegal why ∧ s.phase = .error :=
  ⟨{ withPending fresh 0xFF#32 with phase := .error }, 0xFF#32, .unassignedOpcode, [], .inl ⟨rfl, rfl⟩, rfl, rfl,
    rfl, rfl⟩

theorem wit_WrongPhaseRaisesSequence : ∃ (i : Instr) (p : Phase) (s : State), requiredPhase i = some p ∧ s.phase ≠ p ∧
    s.phase ≠ .error :=
  ⟨.verify, .decoded, { fresh with phase := .done }, rfl, by decide, by decide⟩

theorem wit_PhaseAfterCommand : ∃ (i : Instr) (s t : State), (i = .merge → 1 ≤ s.heap.size.toNat) ∧ exec i s = .next t :=
  have ⟨t, h, _⟩ := exists_next test_build_lone
  ⟨.build, heapedZ, t, by simp, h⟩

theorem wit_PhaseAfterCommand_merge : ∃ s t : State, 1 ≤ s.heap.size.toNat ∧ exec .merge s = .next t :=
  have ⟨t, h, _⟩ := exists_next test_merge
  ⟨heaped, t, by decide, h⟩

theorem wit_IdleBlockKeepsState_pending : ∃ (s : State) (rest : List Event), s.BlockHasTurn rest ∧
    s.pending = none :=
  ⟨fresh, [], .inl ⟨rfl, rfl⟩, rfl⟩

theorem wit_IdleBlockKeepsState_reset : ∃ (s : State) (rest : List Event), s.BlockHasTurn rest ∧
    s.rstN = false :=
  ⟨{ withPending fresh 2#32 with rstN := false }, [], .inl ⟨rfl, rfl⟩, rfl⟩

theorem wit_NopChangesNothing : ∃ s : State, s.busy = true := ⟨withPending fresh 0#32, rfl⟩

theorem wit_CountMakesTheHistogram : ∃ s : State, s.phase = .idle ∧ s.hist = Vector.replicate 95 0#32 ∧
    (∀ c ∈ s.inbuf, 0x20 ≤ c.toNat ∧ c.toNat ≤ 0x7E) ∧ 1 ≤ s.inbuf.length ∧ s.inbuf.length ≤ 65536 :=
  ⟨State.cleared 0 [0x20#8, 0x7E#8, 0x7E#8] 1, rfl, rfl, by decide, by decide, by decide⟩

theorem wit_CountStopsAtTheFirstBadByte : ∃ (s : State) (k : Nat) (c : Byte), s.phase = .idle ∧
    s.hist = Vector.replicate 95 0#32 ∧ s.inbuf.length ≤ 65536 ∧ s.inbuf[k]? = some c ∧
    ¬ (0x20 ≤ c.toNat ∧ c.toNat ≤ 0x7E) ∧ ∀ d ∈ s.inbuf.take k, 0x20 ≤ d.toNat ∧ d.toNat ≤ 0x7E :=
  ⟨State.cleared 0 [0x61#8, 0x61#8, 0x7F#8, 0x62#8] 1, 2, 0x7F#8, rfl, rfl, by decide, rfl, by decide, by decide⟩

theorem wit_HeapifyBuildsTheHeap : ∃ s : State, s.phase = .counted := ⟨counted, rfl⟩

theorem wit_PopReturnsTheLeast : ∃ h : Heap, h.Sound ∧ 1 ≤ h.size.toNat :=
  ⟨heaped.heap, by decide +kernel, by decide⟩

theorem wit_PopReturnsTheLeast_last : ∃ h : Heap, h.Sound ∧ h.size.toNat = 1 :=
  ⟨heapedZ.heap, by decide +kernel, by decide⟩

theorem wit_InsertKeepsTheHeap : ∃ (h : Heap) (n : Node), h.Sound ∧ h.size.toNat ≤ 94 ∧ n.symbolSet ≠ 0#95 ∧
    ∀ m ∈ h.occupied, keyOf m ≠ keyOf n :=
  ⟨heaped.heap, leafAt symC 1 0xFF#8, by decide +kernel, by decide, by decide, by decide +kernel⟩

/-- The invariant of "aaab" in HEAPED. -/
theorem heaped_inv : heaped.Inv := by
  refine ⟨⟨by decide, by decide, by decide, by decide⟩, by decide +kernel, by decide, by decide, fun _ => ?_,
    by decide⟩
  refine ⟨⟨by decide +kernel, by decide +kernel, by decide +kernel⟩, by decide, by decide +kernel,
    by decide +kernel, by decide +kernel, by decide +kernel, by decide +kernel, by decide +kernel, ?_,
    by decide +kernel, by decide +kernel, by decide⟩
  exact ⟨by decide +kernel, by decide +kernel⟩

/-- The invariant of "zzzz" in HEAPED. -/
theorem heapedZ_inv : heapedZ.Inv := by
  refine ⟨⟨by decide, by decide, by decide, by decide⟩, by decide +kernel, by decide, by decide, fun _ => ?_,
    by decide⟩
  refine ⟨⟨by decide +kernel, by decide +kernel, by decide +kernel⟩, by decide, by decide +kernel,
    by decide +kernel, by decide +kernel, by decide +kernel, by decide +kernel, by decide +kernel, ?_,
    by decide +kernel, by decide +kernel, by decide⟩
  exact ⟨by decide +kernel, by decide +kernel⟩

/-- The invariant of "aaab" in BUILT. -/
theorem built_inv : built.Inv := by
  refine ⟨⟨by decide, by decide, by decide, by decide⟩, by decide +kernel, by decide, by decide, by decide,
    fun _ => ?_⟩
  refine ⟨⟨by decide +kernel, by decide +kernel, by decide +kernel⟩, by decide, by decide +kernel, ?_,
    by decide +kernel, by decide +kernel, by decide +kernel, by decide +kernel, by decide +kernel⟩
  exact ⟨by decide +kernel, by decide +kernel⟩

theorem wit_MergeCompletes : ∃ s : State, s.Inv ∧ s.phase = .heaped := ⟨heapedZ, heapedZ_inv, rfl⟩

/-- The node of the leaves `i` and `j` of weight 1, children at `l` and `r`, at its own index `k`. -/
def pairAt (i j : Fin 95) (l r k : Index) : Node :=
  { symbolSet := singletonSet i ||| singletonSet j, weight := 2#32, left := l, right := r, insertedAt := k }

/-- "abcc" after one MERGE, by hand from R141: {a,b}2 at index 2 and the new leaf c2. -/
def heapedOldNew : State :=
  { heaped3 with
    heap :=
      { slots := (emptyHeap.slots.set 0 (pairAt symA symB 0#8 1#8 2#8)).set 1 (leafAt symC 2 0xFF#8), size := 2#7 }
    tree :=
      { slots := ((emptyTree.slots.set 0 (leafAt symA 1 0#8)).set 1 (leafAt symB 1 1#8)).set 2
          (pairAt symA symB 0#8 1#8 2#8)
        size := 3#8 } }

/-- "aabc" after one MERGE, by hand from R141: the new leaf a2 and {b,c}2 at index 2. -/
def heapedNewOld : State :=
  { State.cleared 0 [0x61#8, 0x61#8, 0x62#8, 0x63#8] 1 with
    phase := .heaped
    distinct := 3#7
    hist := ((zeroHist.set 0x41 2#32).set 0x42 1#32).set 0x43 1#32
    heap :=
      { slots := (emptyHeap.slots.set 0 (leafAt symA 2 0xFF#8)).set 1 (pairAt symB symC 0#8 1#8 2#8), size := 2#7 }
    tree :=
      { slots := ((emptyTree.slots.set 0 (leafAt symB 1 0#8)).set 1 (leafAt symC 1 1#8)).set 2
          (pairAt symB symC 0#8 1#8 2#8)
        size := 3#8 } }

/-- "abcz" after two MERGEs, by hand from R141: {a,b}2 at index 2 and {c,z}2 at index 5. -/
def heapedOldOld : State :=
  { State.cleared 0 [0x61#8, 0x62#8, 0x63#8, 0x7A#8] 1 with
    phase := .heaped
    distinct := 4#7
    hist := (((zeroHist.set 0x41 1#32).set 0x42 1#32).set 0x43 1#32).set 0x5A 1#32
    heap :=
      { slots := (emptyHeap.slots.set 0 (pairAt symA symB 0#8 1#8 2#8)).set 1 (pairAt symC symZ 3#8 4#8 5#8)
        size := 2#7 }
    tree :=
      { slots :=
          (((((emptyTree.slots.set 0 (leafAt symA 1 0#8)).set 1 (leafAt symB 1 1#8)).set 2
            (pairAt symA symB 0#8 1#8 2#8)).set 3 (leafAt symC 1 3#8)).set 4 (leafAt symZ 1 4#8)).set 5
            (pairAt symC symZ 3#8 4#8 5#8)
        size := 6#8 } }

theorem heapedOldNew_inv : heapedOldNew.Inv := by
  refine ⟨⟨by decide, by decide, by decide, by decide⟩, by decide +kernel, by decide, by decide, fun _ => ?_,
    by decide⟩
  refine ⟨⟨by decide +kernel, by decide +kernel, by decide +kernel⟩, by decide, by decide +kernel,
    by decide +kernel, by decide +kernel, by decide +kernel, by decide +kernel, by decide +kernel, ?_,
    by decide +kernel, by decide +kernel, by decide⟩
  exact ⟨by decide +kernel, by decide +kernel⟩

theorem heapedNewOld_inv : heapedNewOld.Inv := by
  refine ⟨⟨by decide, by decide, by decide, by decide⟩, by decide +kernel, by decide, by decide, fun _ => ?_,
    by decide⟩
  refine ⟨⟨by decide +kernel, by decide +kernel, by decide +kernel⟩, by decide, by decide +kernel,
    by decide +kernel, by decide +kernel, by decide +kernel, by decide +kernel, by decide +kernel, ?_,
    by decide +kernel, by decide +kernel, by decide⟩
  exact ⟨by decide +kernel, by decide +kernel⟩

theorem heapedOldOld_inv : heapedOldOld.Inv := by
  refine ⟨⟨by decide, by decide, by decide, by decide⟩, by decide +kernel, by decide, by decide, fun _ => ?_,
    by decide⟩
  refine ⟨⟨by decide +kernel, by decide +kernel, by decide +kernel⟩, by decide, by decide +kernel,
    by decide +kernel, by decide +kernel, by decide +kernel, by decide +kernel, by decide +kernel, ?_,
    by decide +kernel, by decide +kernel, by decide⟩
  exact ⟨by decide +kernel, by decide +kernel⟩

/-- The two least nodes are both new. -/
theorem wit_MergeJoinsTheTwoLeast_newNew : ∃ (s : State) (a b : Node), s.Inv ∧ s.phase = .heaped ∧
    2 ≤ s.heap.size.toNat ∧ s.heap.occupied = [a, b] ∧ keyBelow a b = true ∧ a.insertedAt = 0xFF#8 ∧
    b.insertedAt = 0xFF#8 :=
  ⟨heaped, leafAt symB 1 0xFF#8, leafAt symA 3 0xFF#8, heaped_inv, rfl, by decide, by decide +kernel,
    by decide +kernel, rfl, rfl⟩

/-- The least node is in TREE, the next is new. -/
theorem wit_MergeJoinsTheTwoLeast_oldNew : ∃ (s : State) (a b : Node), s.Inv ∧ s.phase = .heaped ∧
    2 ≤ s.heap.size.toNat ∧ s.heap.occupied = [a, b] ∧ keyBelow a b = true ∧ a.insertedAt ≠ 0xFF#8 ∧
    b.insertedAt = 0xFF#8 :=
  ⟨heapedOldNew, pairAt symA symB 0#8 1#8 2#8, leafAt symC 2 0xFF#8, heapedOldNew_inv, rfl, by decide,
    by decide +kernel, by decide +kernel, by decide, rfl⟩

/-- The least node is new, the next is in TREE. -/
theorem wit_MergeJoinsTheTwoLeast_newOld : ∃ (s : State) (a b : Node), s.Inv ∧ s.phase = .heaped ∧
    2 ≤ s.heap.size.toNat ∧ s.heap.occupied = [a, b] ∧ keyBelow a b = true ∧ a.insertedAt = 0xFF#8 ∧
    b.insertedAt ≠ 0xFF#8 :=
  ⟨heapedNewOld, leafAt symA 2 0xFF#8, pairAt symB symC 0#8 1#8 2#8, heapedNewOld_inv, rfl, by decide,
    by decide +kernel, by decide +kernel, rfl, by decide⟩

/-- Both are in TREE. -/
theorem wit_MergeJoinsTheTwoLeast_oldOld : ∃ (s : State) (a b : Node), s.Inv ∧ s.phase = .heaped ∧
    2 ≤ s.heap.size.toNat ∧ s.heap.occupied = [a, b] ∧ keyBelow a b = true ∧ a.insertedAt ≠ 0xFF#8 ∧
    b.insertedAt ≠ 0xFF#8 :=
  ⟨heapedOldOld, pairAt symA symB 0#8 1#8 2#8, pairAt symC symZ 3#8 4#8 5#8, heapedOldOld_inv, rfl, by decide,
    by decide +kernel, by decide +kernel, by decide, by decide⟩

theorem wit_LoneLeafIsFinalised : ∃ (s : State) (n : Node), s.phase = .heaped ∧ s.heap.size = 1#7 ∧
    s.heap.slots[0]? = some n ∧ n.insertedAt = 0xFF#8 ∧ s.tree.size = 0#8 :=
  ⟨heapedZ, leafAt symZ 4 0xFF#8, rfl, rfl, by decide +kernel, rfl, rfl⟩

theorem test_merge_three : nextHas (exec .merge heaped3) (fun t => t.phase == .heaped) = true := by decide +kernel

theorem wit_BuildIsRepeatedMerge : ∃ s t : State, s.phase = .heaped ∧ exec .merge s = .next t ∧
    t.phase = .heaped :=
  have ⟨t, h, hp⟩ := exists_next test_merge_three
  ⟨heaped3, t, rfl, h, by simpa using hp⟩

theorem wit_BuildFinishesTheTree : ∃ s : State, s.Inv ∧ s.phase = .heaped := ⟨heaped, heaped_inv, rfl⟩

theorem test_code_a : codeIs (codeOf built.tree built.root symA 0) [true] = true := by decide +kernel

theorem test_code_b : codeIs (codeOf built.tree built.root symB 0) [false] = true := by decide +kernel

theorem test_code_z : codeIs (codeOf builtZ.tree builtZ.root symZ 0) [false] = true := by decide +kernel

theorem wit_CodeOfFollowsTheTree : ∃ (t : Tree) (root : Index) (i : Fin 95) (k : Nat) (code : List Bool), codeOf t root i k = .ok code :=
  ⟨built.tree, built.root, symA, 0, [true], eq_code test_code_a⟩

theorem wit_CodeOfFollowsTheTree_lone : ∃ (t : Tree) (root : Index) (i : Fin 95) (k : Nat) (code : List Bool), codeOf t root i k = .ok code :=
  ⟨builtZ.tree, builtZ.root, symZ, 0, [false], eq_code test_code_z⟩

theorem wit_PrefixFreeCodes : ∃ (t : Tree) (root : Index) (r : Node) (i j : Fin 95) (k k' : Nat)
    (ci cj : List Bool), t.slots[root.toNat]? = some r ∧ r.isLeaf = false ∧ codeOf t root i k = .ok ci ∧
    codeOf t root j k' = .ok cj ∧ i ≠ j :=
  ⟨built.tree, built.root, rootAB, symA, symB, 0, 0, [true], [false], by decide +kernel, rfl,
    eq_code test_code_a, eq_code test_code_b, by decide⟩

theorem wit_CodeOfFindsCountedSymbols_counted : ∃ (s : State) (i : Fin 95), s.Inv ∧ s.phase = .built ∧
    s.hist[i] ≠ 0#32 :=
  ⟨built, symA, built_inv, rfl, by decide +kernel⟩

theorem wit_CodeOfFindsCountedSymbols_absent : ∃ (s : State) (i : Fin 95), s.Inv ∧ s.phase = .built ∧
    s.hist[i] = 0#32 :=
  ⟨built, symC, built_inv, rfl, by decide +kernel⟩

/-- The invariant of "aaab" in COUNTED. -/
theorem counted_inv : counted.Inv := by
  refine ⟨⟨by decide, by decide, by decide, by decide⟩, by decide +kernel, by decide, fun _ => ?_, by decide,
    by decide⟩
  exact ⟨⟨by decide +kernel, by decide +kernel, by decide +kernel⟩, rfl, rfl, rfl⟩

theorem test_build : nextHas (exec .build heaped) (fun t => t == built) = true := by decide +kernel

theorem wit_FrequentSymbolsHaveShorterCodes : ∃ (s t u : State) (i j : Fin 95) (k k' : Nat)
    (ci cj : List Bool), s.Inv ∧ s.phase = .counted ∧ exec .heapify s = .next t ∧ exec .build t = .next u ∧
    codeOf u.tree u.root i k = .ok ci ∧ codeOf u.tree u.root j k' = .ok cj ∧
    s.hist[j].toNat < s.hist[i].toNat := by
  obtain ⟨t, ht, h1⟩ := exists_next test_heapify
  obtain ⟨u, hu, h2⟩ := exists_next test_build
  obtain rfl : t = heaped := by simpa using h1
  obtain rfl : u = built := by simpa using h2
  exact ⟨counted, heaped, built, symA, symB, 0, 0, [true], [false], counted_inv, rfl, ht, hu,
    eq_code test_code_a, eq_code test_code_b, by decide +kernel⟩

theorem wit_PackEqualsFragments : ∃ (c : CodeStream) (code : List Bool), code.length ≤ 32 ∧
    c.bitlen.toNat + code.length ≤ 32 * c.words.length ∧ 32 * c.words.length < 2 ^ 32 ∧
    ∀ o, c.bitlen.toNat ≤ o → o < 32 * c.words.length → bitRead c.words o = some false := by
  refine ⟨{ words := [0x69CF68D0#32, 0#32], bitlen := 30#32 }, [true, true, true, false], by decide, by decide,
    by decide, fun o h1 h2 => ?_⟩
  have h : ∀ o < 64, 30 ≤ o → bitRead [0x69CF68D0#32, 0#32] o = some false := by decide +kernel
  exact h o h2 h1

theorem wit_EncodePacksAllCodes : ∃ (s : State) (codes : List (List Bool)), s.phase = .built ∧
    s.CodesOf s.inbuf codes ∧ codes.flatten.length ≤ s.codeWords * 32 ∧ s.codeWords * 32 < 2 ^ 32 :=
  ⟨built, [[true], [true], [true], [false]], rfl, codesOf_of_check (by decide +kernel), by decide, by decide⟩

theorem wit_EncodeStopsAtTheFirstError_domain : ∃ (s : State) (k : Nat) (c : Byte) (codes : List (List Bool)),
    s.phase = .built ∧ s.inbuf[k]? = some c ∧ s.CodesOf (s.inbuf.take k) codes ∧
    codes.flatten.length ≤ s.codeWords * 32 ∧ s.codeWords * 32 < 2 ^ 32 ∧ domainIndex c = none :=
  ⟨{ built with inbuf := [0x61#8, 0x61#8, 0x61#8, 0x7F#8] }, 3, 0x7F#8, [[true], [true], [true]], rfl, rfl,
    codesOf_of_check (by decide +kernel), by decide, by decide, by decide⟩

/-- "aaab" with the leaf of 'b' given one child: no run makes such a tree. -/
def brokenLeaf : Node := { leafAt symB 1 0#8 with right := 1#8 }

/-- The tree of "aaab" with `brokenLeaf` in it. -/
def brokenTree : Tree := { built.tree with slots := built.tree.slots.set 0 brokenLeaf }

theorem wit_EncodeStopsAtTheFirstError_malformed : ∃ (s : State) (k : Nat) (c : Byte)
    (codes : List (List Bool)) (i : Fin 95) (root n : Node) (p : List Bool), s.phase = .built ∧
    s.inbuf[k]? = some c ∧ s.CodesOf (s.inbuf.take k) codes ∧ codes.flatten.length ≤ s.codeWords * 32 ∧
    s.codeWords * 32 < 2 ^ 32 ∧ domainIndex c = some i ∧ s.tree.slots[s.root.toNat]? = some root ∧
    s.tree.Leads i root p n ∧ p.length ≤ 188 ∧ n.OneChild := by
  refine ⟨{ built with tree := brokenTree }, 3, 0x62#8, [[true], [true], [true]], symB, rootAB, brokenLeaf,
    [false], rfl, rfl, codesOf_of_check (by decide +kernel), by decide, by decide, by decide, by decide +kernel,
    ⟨by decide +kernel, fun q b h => ?_⟩, by decide, by decide⟩
  obtain rfl : q = [] := List.eq_nil_of_length_eq_zero (by have := h.length_le; simpa using this)
  obtain rfl : b = false := by simpa using h
  exact ⟨rootAB, brokenLeaf, rfl, by decide +kernel, by decide +kernel⟩

theorem wit_EncodeStopsAtTheFirstError_absent : ∃ (s : State) (k : Nat) (c : Byte) (codes : List (List Bool))
    (i : Fin 95) (r : Raise), s.phase = .built ∧ s.inbuf[k]? = some c ∧ s.CodesOf (s.inbuf.take k) codes ∧
    codes.flatten.length ≤ s.codeWords * 32 ∧ s.codeWords * 32 < 2 ^ 32 ∧ domainIndex c = some i ∧
    codeOf s.tree s.root i k = .error (.raise r) :=
  ⟨{ built with inbuf := [0x61#8, 0x61#8, 0x61#8, 0x63#8] }, 3, 0x63#8, [[true], [true], [true]], symC,
    { code := .symbolAbsent, info := 3#32 }, rfl, rfl, codesOf_of_check (by decide +kernel), by decide, by decide,
    by decide, eq_raise (by decide +kernel)⟩

theorem wit_EncodeStopsAtTheFirstError_capacity : ∃ (s : State) (k : Nat) (c : Byte) (codes : List (List Bool))
    (i : Fin 95) (code : List Bool), s.phase = .built ∧ s.inbuf[k]? = some c ∧ s.CodesOf (s.inbuf.take k) codes ∧
    codes.flatten.length ≤ s.codeWords * 32 ∧ s.codeWords * 32 < 2 ^ 32 ∧ domainIndex c = some i ∧
    codeOf s.tree s.root i k = .ok code ∧ s.codeWords * 32 < codes.flatten.length + code.length :=
  ⟨{ builtZ with inbuf := List.replicate 33 0x7A#8 }, 32, 0x7A#8, List.replicate 32 [false], symZ, [false], rfl,
    rfl, codesOf_of_check (by decide +kernel), by decide, by decide, by decide, eq_code (by decide +kernel),
    by decide⟩

theorem test_encode_lone : nextHas (exec .encode builtZ) (fun t => t.phase == .encoded) = true := by decide +kernel

theorem wit_BitLengthConservation : ∃ (s t : State) (len : Fin 95 → Nat), s.phase = .built ∧
    s.codeWords * 32 < 2 ^ 32 ∧
    (∀ i : Fin 95, s.hist[i].toNat = s.inbuf.count (BitVec.ofNat 8 (0x20 + i.val))) ∧
    (∀ i k code, codeOf s.tree s.root i k = .ok code → code.length = len i) ∧
    exec .encode s = .next t ∧ t.phase = .encoded := by
  obtain ⟨t, h, hp⟩ := exists_next test_encode_lone
  refine ⟨builtZ, t, fun _ => 1, rfl, by decide, by decide +kernel, fun i k code hc => ?_, h, by simpa using hp⟩
  have hr : builtZ.tree.read builtZ.root = .ok (leafAt symZ 4 0#8) := by
    have hs : builtZ.tree.slots[builtZ.root.toNat]? = some (leafAt symZ 4 0#8) := by decide +kernel
    simp [Tree.read, hs]
  have hl : (leafAt symZ 4 0#8).isLeaf = true := by decide
  simp only [codeOf, hr, hl, bind, Except.bind, if_true] at hc
  split at hc
  · simp only [pure, Except.pure, Except.ok.injEq] at hc
    rw [← hc]
    rfl
  · simp [raiseAt] at hc

theorem wit_DecodeInvertsEncode : ∃ (s : State) (is : List (Fin 95)) (codes : List (List Bool)),
    s.phase = .encoded ∧ s.root.toNat < 189 ∧ is.length ≤ s.inputLen ∧ s.inputLen ≤ 65536 ∧ s.CodesFor is codes ∧
    s.code.bitlen.toNat = codes.flatten.length ∧ StreamStarts s.code.words codes.flatten ∧
    is.length = s.inputLen :=
  ⟨encoded, [symA, symA, symA, symB], [[true], [true], [true], [false]], rfl, by decide, by decide, by decide,
    codesFor_of_check rfl (by decide +kernel), by decide, by unfold StreamStarts; decide +kernel, rfl⟩

/-- Fewer symbols than N, as in V-DEC-4: the stream ends on a code boundary. -/
theorem wit_DecodeInvertsEncode_fewer : ∃ (s : State) (is : List (Fin 95)) (codes : List (List Bool)),
    s.phase = .encoded ∧ s.root.toNat < 189 ∧ is.length ≤ s.inputLen ∧ s.inputLen ≤ 65536 ∧ s.CodesFor is codes ∧
    s.code.bitlen.toNat = codes.flatten.length ∧ StreamStarts s.code.words codes.flatten ∧
    0 < is.length ∧ is.length < s.inputLen :=
  ⟨{ built3 with code := { words := [0x80000000#32], bitlen := 3#32 } }, [symC, symA], [[true], [false, false]], rfl, by decide, by decide, by decide,
    codesFor_of_check rfl (by decide +kernel), by decide, by unfold StreamStarts; decide +kernel, by decide,
    by decide⟩

theorem wit_DecodeStopsOnSurplusSymbol : ∃ (s : State) (is : List (Fin 95)) (codes : List (List Bool)),
    s.phase = .encoded ∧ is.length = s.inputLen + 1 ∧ s.inputLen ≤ 65536 ∧ s.CodesFor is codes ∧
    codes.flatten.length ≤ s.code.bitlen.toNat ∧ StreamStarts s.code.words codes.flatten :=
  ⟨{ encoded with code := { words := [0xE0000000#32], bitlen := 5#32 } }, [symA, symA, symA, symB, symB],
    [[true], [true], [true], [false], [false]], rfl, rfl, by decide, codesFor_of_check rfl (by decide +kernel),
    by decide, by unfold StreamStarts; decide +kernel⟩

theorem wit_DecodeStopsOnTruncatedCode : ∃ (s : State) (is : List (Fin 95)) (codes : List (List Bool))
    (i : Fin 95) (k : Nat) (code p : List Bool), s.phase = .encoded ∧ is.length ≤ s.inputLen ∧
    s.inputLen ≤ 65536 ∧ s.CodesFor is codes ∧ codeOf s.tree s.root i k = .ok code ∧ p <+: code ∧ p ≠ code ∧
    p ≠ [] ∧ s.code.bitlen.toNat = (codes.flatten ++ p).length ∧
    StreamStarts s.code.words (codes.flatten ++ p) :=
  ⟨built3, [symC], [[true]], symA, 0, [false, false], [false], rfl, by decide, by decide,
    codesFor_of_check rfl (by decide +kernel), eq_code (by decide +kernel), by decide, by decide, by decide,
    by decide, by unfold StreamStarts; decide +kernel⟩

theorem wit_DecodeStopsOnTruncatedCode_malformed : ∃ (s : State) (is : List (Fin 95))
    (codes : List (List Bool)) (r n : Node) (p : List Bool), s.phase = .encoded ∧ is.length ≤ s.inputLen ∧
    s.inputLen ≤ 65536 ∧ s.CodesFor is codes ∧ s.tree.slots[s.root.toNat]? = some r ∧
    follow s.tree r p = some n ∧ n.OneChild ∧
    (∀ q m, q <+: p → q ≠ p → follow s.tree r q = some m → ¬ m.OneChild) ∧
    codes.flatten.length < s.code.bitlen.toNat ∧ (codes.flatten ++ p).length ≤ s.code.bitlen.toNat ∧
    StreamStarts s.code.words (codes.flatten ++ p) := by
  refine ⟨{ encoded with tree := brokenTree }, [symA, symA, symA], [[true], [true], [true]], rootAB, brokenLeaf,
    [false], rfl, by decide, by decide, codesFor_of_check rfl (by decide +kernel), by decide +kernel,
    by decide +kernel, by decide, fun q m h hne hm => ?_, by decide, by decide,
    by unfold StreamStarts; decide +kernel⟩
  obtain rfl : q = [] := by
    cases q with
    | nil => rfl
    | cons b q => simp_all
  obtain rfl : rootAB = m := by simpa [follow] using hm
  decide

/-- The root itself has one child: one bit must be left, and none is consumed. -/
theorem wit_DecodeStopsOnTruncatedCode_malformedRoot : ∃ (s : State) (codes : List (List Bool)) (r : Node),
    s.phase = .encoded ∧ s.inputLen ≤ 65536 ∧ s.CodesFor [] codes ∧ s.tree.slots[s.root.toNat]? = some r ∧
    follow s.tree r [] = some r ∧ r.OneChild ∧ codes.flatten.length < s.code.bitlen.toNat :=
  ⟨{ encoded with tree := { encoded.tree with slots := encoded.tree.slots.set 2 { rootAB with left := 0xFF#8 } } },
    [], { rootAB with left := 0xFF#8 }, rfl, by decide, codesFor_of_check rfl rfl, by decide +kernel, rfl,
    by decide, by decide⟩

theorem wit_DecodeStopsOnLoneOne : ∃ (s : State) (r : Node) (i m : Nat), s.phase = .encoded ∧
    s.tree.slots[s.root.toNat]? = some r ∧ r.isLeaf = true ∧ lsb r.symbolSet = some i ∧ m ≤ s.inputLen ∧
    s.inputLen ≤ 65536 ∧ m < s.code.bitlen.toNat ∧
    StreamStarts s.code.words (List.replicate m false ++ [true]) :=
  ⟨{ builtZ with phase := .encoded, code := { words := [0x20000000#32], bitlen := 4#32 } }, leafAt symZ 4 0#8,
    0x5A, 2, rfl, by decide +kernel, by decide, by decide +kernel, by decide, by decide, by decide,
    by unfold StreamStarts; decide +kernel⟩

theorem wit_DecodeStopsOnLoneOne_first : ∃ (s : State) (r : Node) (i : Nat), s.phase = .encoded ∧
    s.tree.slots[s.root.toNat]? = some r ∧ r.isLeaf = true ∧ lsb r.symbolSet = some i ∧
    0 < s.code.bitlen.toNat ∧ StreamStarts s.code.words (List.replicate 0 false ++ [true]) :=
  ⟨{ builtZ with phase := .encoded, code := { words := [0x80000000#32], bitlen := 1#32 } }, leafAt symZ 4 0#8,
    0x5A, rfl, by decide +kernel, by decide, by decide +kernel, by decide, by unfold StreamStarts; decide +kernel⟩

theorem wit_DecCountNeverExceedsN : ∃ s t : State, s.phase = .encoded ∧ s.inputLen ≤ 65536 ∧
    exec .decode s = .next t :=
  have ⟨t, h, _⟩ := exists_next test_decode
  ⟨encoded, t, rfl, by decide, h⟩

theorem wit_DecCountNeverExceedsN_emit : ∃ out : Output, out.count.toNat = out.bytes.length :=
  ⟨decoded.out, by decide⟩

theorem wit_DecoderReadsBelowBitlen_next : ∃ (s t : State) (words : List Word), s.phase = .encoded ∧
    (∀ o < s.code.bitlen.toNat, bitRead words o = bitRead s.code.words o) ∧ words ≠ s.code.words ∧
    exec .decode s = .next t :=
  have ⟨t, h, _⟩ := exists_next test_decode
  ⟨encoded, t, [0xEFFFFFFF#32], rfl, by decide +kernel, by decide, h⟩

theorem wit_DecoderReadsBelowBitlen_fault : ∃ (s : State) (words : List Word) (f : Fault), s.phase = .encoded ∧
    (∀ o < s.code.bitlen.toNat, bitRead words o = bitRead s.code.words o) ∧ exec .decode s = .fault f :=
  ⟨{ encoded with root := 0xFF#8 }, [0xEFFFFFFF#32], .noSuchElement, rfl, by decide +kernel,
    eq_fault (by decide +kernel)⟩

theorem wit_VerifyDecides_equal : ∃ s : State, s.phase = .decoded ∧
    ∀ k c, s.inbuf[k]? = some c → k < s.out.count.toNat ∧ s.out.bytes[k]? = some c := by
  refine ⟨decoded, rfl, fun k c h => ⟨?_, h⟩⟩
  exact (List.getElem?_eq_some_iff.1 h).1

theorem wit_VerifyDecides_first : ∃ (s : State) (k : Nat) (c : Byte), s.phase = .decoded ∧
    s.inbuf[k]? = some c ∧ (s.out.count.toNat ≤ k ∨ s.out.bytes[k]? ≠ some c) ∧
    ∀ j < k, ∀ d, s.inbuf[j]? = some d → j < s.out.count.toNat ∧ s.out.bytes[j]? = some d :=
  ⟨{ decoded with inbuf := [0x62#8, 0x61#8, 0x61#8, 0x62#8] }, 0, 0x62#8, rfl, rfl, .inr (by decide),
    fun j hj => absurd hj (by omega)⟩

theorem wit_VerifyDecides_short : ∃ (s : State) (k : Nat) (c : Byte), s.phase = .decoded ∧
    s.inbuf[k]? = some c ∧ s.out.count.toNat ≤ k ∧
    ∀ j < k, ∀ d, s.inbuf[j]? = some d → j < s.out.count.toNat ∧ s.out.bytes[j]? = some d :=
  ⟨{ decoded with out := { decoded.out with count := 3#17 } }, 3, 0x62#8, rfl, rfl, by decide,
    fun _ hj _ hd => ⟨hj, hd⟩⟩

theorem wit_RunRoundTrip : ∃ s : State, 1 ≤ s.inputLen ∧ s.inputLen ≤ 65536 ∧ s.codeWords ≤ 262144 ∧
    Config.minCodeWords s.inputLen ≤ s.codeWords ∧ ∀ c ∈ s.inbuf, 0x20 ≤ c.toNat ∧ c.toNat ≤ 0x7E :=
  ⟨fresh, by decide, by decide, by decide, by decide, by decide⟩

theorem wit_RunEndsInThreeWays : ∃ s : State, 1 ≤ s.inputLen ∧ s.inputLen ≤ 65536 ∧ s.codeWords ≤ 262144 :=
  ⟨fresh, by decide, by decide, by decide⟩

theorem wit_CommandsKeepInbuf : ∃ (i : Instr) (s t : State), exec i s = .next t :=
  have ⟨t, h, _⟩ := exists_next test_encode_absent
  ⟨.encode, _, t, h⟩

theorem wit_CountAndHeapifyFrame : (∃ s t : State, exec .count s = .next t) ∧ ∃ s t : State, exec .heapify s = .next t :=
  have ⟨t, h, _⟩ := exists_next test_count_domain
  have ⟨u, k, _⟩ := exists_next test_heapify
  ⟨⟨_, t, h⟩, ⟨_, u, k⟩⟩

theorem wit_MergeAndBuildFrame : (∃ s t : State, exec .merge s = .next t) ∧ ∃ s t : State, exec .build s = .next t :=
  have ⟨t, h, _⟩ := exists_next test_merge
  have ⟨u, k, _⟩ := exists_next test_build_lone
  ⟨⟨_, t, h⟩, ⟨_, u, k⟩⟩

theorem wit_StreamCommandsFrame : (∃ s t : State, exec .encode s = .next t) ∧ (∃ s t : State, exec .decode s = .next t) ∧
    ∃ s t : State, exec .verify s = .next t :=
  have ⟨t, h, _⟩ := exists_next test_encode
  have ⟨u, k, _⟩ := exists_next test_decode_lone_one
  have ⟨v, l, _⟩ := exists_next test_verify_mismatch
  ⟨⟨_, t, h⟩, ⟨_, u, k⟩, ⟨_, v, l⟩⟩

theorem wit_OverrunIsSticky_set : ∃ (s : State) (off : Nat), s.params.legal = true ∧ s.busy = true ∧
    off % 4 = 0 ∧ s.HostWritable off :=
  ⟨withPending fresh 2#32, 0x100000, by decide, rfl, by decide, by decide⟩

theorem test_step_init : nextHas (step { withPending fresh 1#32 with overrun := true }) (fun t => !t.overrun) =
    true := by decide +kernel

theorem wit_OverrunIsSticky_clear : ∃ s t : State, step s = .next t ∧ s.overrun = true ∧ t.overrun = false :=
  have ⟨t, h, hp⟩ := exists_next test_step_init
  ⟨_, t, h, rfl, by simpa using hp⟩

theorem wit_OverrunIsSticky_command : ∃ (i : Instr) (s t : State), exec i s = .next t :=
  have ⟨t, h, _⟩ := exists_next test_run
  ⟨.run, _, t, h⟩

theorem wit_OverrunIsSticky_fault : ∃ (i : Instr) (s : State) (f : Fault), exec i s = .fault f :=
  ⟨.decode, { encoded with root := 0xFF#8 }, .noSuchElement, eq_fault (by decide +kernel)⟩

theorem wit_ErrorRegistersKept : ∃ s t : State, step s = .next t :=
  have ⟨t, h, _⟩ := exists_next test_step_illegal
  ⟨_, t, h⟩

theorem test_step_run_out_of_error :
    nextHas (step { withPending fresh 9#32 with phase := .error, errCode := .domain }) (fun t => t.phase == .done) =
      true := by decide +kernel

theorem wit_LeavingErrorNeedsInitRunOrReset : ∃ s t : State, step s = .next t ∧ s.phase = .error ∧
    t.phase ≠ .error := by
  obtain ⟨t, h, hp⟩ := exists_next test_step_run_out_of_error
  refine ⟨_, t, h, rfl, ?_⟩
  rw [show t.phase = .done by simpa using hp]
  decide

theorem wit_HostAccessRaisesNoError : ∃ (s : State) (a : Access) (t : State), s.hostAccess a = .next t :=
  ⟨fresh, ⟨true, 0x010, 4, 9#32⟩, _, rfl⟩

theorem wit_StatusWordFields : ∃ s : State, s.ErrorRecord ∧ s.phase ≠ .error := ⟨fresh, by decide, by decide⟩

theorem wit_RegisterBlock : ∃ s : State, s.busy = false := ⟨fresh, rfl⟩

theorem wit_ArrayWindows : ∃ s : State, s.busy = false ∧ s.params.legal = true ∧ 0 < s.codeWords :=
  ⟨fresh, rfl, by decide, by decide⟩

theorem wit_SymbolLanes : ∃ (s : State) (k : Nat), s.busy = false ∧ s.params.legal = true ∧ s.wf ∧
    k < (s.inputLen + 3) / 4 :=
  ⟨fresh, 0, rfl, by decide, by decide, by decide⟩

theorem wit_ReservedAndReadOnlyOffsets_reserved : ∃ (s : State) (off : Nat), s.params.legal = true ∧
    off % 4 = 0 ∧ off < 0x200000 ∧ s.ReservedOffset off :=
  ⟨fresh, 0x34, by decide, by decide, by decide, by decide⟩

theorem wit_ReservedAndReadOnlyOffsets_readOnly : ∃ (s : State) (off : Nat), s.params.legal = true ∧
    off % 4 = 0 ∧ off < 0x200000 ∧ ¬ s.HostWritable off ∧ s.OutbufOffset off :=
  ⟨fresh, 0x20000, by decide, by decide, by decide, by decide, by decide⟩

theorem wit_WriteDuringBusyIsDiscarded_writable : ∃ (s : State) (off : Nat), s.params.legal = true ∧
    s.busy = true ∧ off % 4 = 0 ∧ off < 0x200000 ∧ s.HostWritable off :=
  ⟨withPending fresh 2#32, 0x10000, by decide, rfl, by decide, by decide, by decide⟩

theorem wit_WriteDuringBusyIsDiscarded_other : ∃ (s : State) (off : Nat), s.params.legal = true ∧
    s.busy = true ∧ off % 4 = 0 ∧ off < 0x200000 ∧ ¬ s.HostWritable off :=
  ⟨withPending fresh 2#32, 0x10004, by decide, rfl, by decide, by decide, by decide⟩

theorem wit_HostReads_reserved : ∃ (s : State) (off : Nat), s.params.legal = true ∧ s.busy = true ∧
    off % 4 = 0 ∧ off < 0x200000 ∧ off ≠ 0 ∧ off ≠ 4 ∧ off ≠ 8 ∧ off ≠ 0xC ∧ off ≠ 0x14 ∧ s.ReservedOffset off :=
  ⟨withPending fresh 2#32, 0x1FFFFC, by decide, rfl, by decide, by decide, by decide, by decide, by decide,
    by decide, by decide, by decide⟩

theorem wit_HostReads_draw : ∃ (s : State) (off : Nat), s.params.legal = true ∧ s.busy = true ∧
    off % 4 = 0 ∧ off < 0x200000 ∧ off ≠ 0 ∧ off ≠ 4 ∧ off ≠ 8 ∧ off ≠ 0xC ∧ off ≠ 0x14 ∧ ¬ s.ReservedOffset off :=
  ⟨withPending fresh 2#32, 0x010, by decide, rfl, by decide, by decide, by decide, by decide, by decide,
    by decide, by decide, by decide⟩

theorem wit_OnlyAlignedWordAccesses_performed : ∃ (s : State) (a : Access), s.rstN = true ∧ s.base ≤ a.addr ∧
    a.addr < s.base + 0x200000 ∧ a.bytes = 4 ∧ (a.addr - s.base) % 4 = 0 :=
  ⟨{ fresh with base := 0x200000 }, ⟨false, 0x3FFFFC, 4, 0#32⟩, rfl, by decide, by decide, rfl, by decide⟩

theorem wit_OnlyAlignedWordAccesses_refused : ∃ (s : State) (a : Access), s.rstN = true ∧ s.base ≤ a.addr ∧
    a.addr < s.base + 0x200000 ∧ ¬ (a.bytes = 4 ∧ (a.addr - s.base) % 4 = 0) :=
  ⟨fresh, ⟨false, 0x016, 2, 0#32⟩, rfl, by decide, by decide, by decide⟩

theorem wit_OnlyAlignedWordAccesses_step : ∃ (s : State) (a : Access) (rest : List Event),
    s.events = .access a :: rest :=
  ⟨{ fresh with events := [.access ⟨false, 0x014, 4, 0#32⟩] }, _, [], rfl⟩

theorem wit_ResetLeavesTheResetState : ∃ (s : State) (rest : List Event), s.events = .resetLow :: rest ∧
    s.busy = true :=
  ⟨{ withPending built 6#32 with events := [.resetLow, .resetHigh] }, [.resetHigh], rfl, rfl⟩

/-- The invariant just after reset of "aaab". -/
theorem fresh_inv : fresh.Inv :=
  ⟨⟨by decide, by decide, by decide, by decide⟩, by decide +kernel, fun _ => by decide +kernel, by decide, by decide,
    by decide⟩

theorem test_step_nop : nextHas (step (withPending built 0#32)) (fun t => t == built) = true := by decide +kernel

theorem wit_BasicSoundnessKept : ∃ s t : State, s.Basic ∧ step s = .next t :=
  have ⟨t, h, _⟩ := exists_next test_step_nop
  ⟨_, t, ⟨by decide, by decide, by decide, by decide⟩, h⟩

theorem wit_InvariantAtPowerOn : Params.legal ⟨65536, 262144, 0x200000⟩ = true := by decide

theorem wit_InvariantKept : ∃ s t : State, s.Inv ∧ step s = .next t :=
  ⟨fresh, fresh, fresh_inv, rfl⟩

theorem wit_EveryCommandCompletes : ∃ s : State, s.Inv ∧ s.phase = .built := ⟨built, built_inv, rfl⟩

end Sys2Proof.Tests
end

/-!
Rules for pieces of pseudocode, each proved once: what holds in the state a piece leaves when it ends
normally, and in the state and of the stop it leaves when it stops.
-/

namespace Sys2Proof.Machine

section Rules

variable {ε σ τ α β : Type}

/-- Started where `P` holds, the piece leaves a state of `Q` when it ends normally, and a stop and a state
of `X` when it stops. -/
structure Triple (P : σ → Prop) (x : EStateM ε σ α) (Q : σ → Prop) (X : ε → σ → Prop) : Prop where
  ok : ∀ {s a t}, P s → x s = .ok a t → Q t
  stop : ∀ {s e t}, P s → x s = .error e t → X e t

/-- The piece keeps `I` however it ends, and its stops meet `E`. -/
abbrev Keeps (I : σ → Prop) (E : ε → Prop) (x : EStateM ε σ α) : Prop :=
  Triple I x I fun e t => I t ∧ E e

/-- A reader of the data stops only as `E` says. -/
abbrev StopsIn (E : ε → Prop) (x : Except ε α) : Prop := ∀ e, x = .error e → E e

variable {P Q R I : σ → Prop} {X Y : ε → σ → Prop} {E : ε → Prop}

namespace Triple

theorem weaken {x : EStateM ε σ α} {P' Q' : σ → Prop} (h : Triple P' x Q' Y) (hp : ∀ s, P s → P' s)
    (hq : ∀ s, Q' s → Q s) (hx : ∀ e s, Y e s → X e s) : Triple P x Q X :=
  ⟨fun hs hr => hq _ (h.ok (hp _ hs) hr), fun hs hr => hx _ _ (h.stop (hp _ hs) hr)⟩

/-- What is known of all states of `P` is known of one of them. -/
theorem at_state {x : EStateM ε σ α} {s : σ} (h : Triple P x Q X) (hs : P s) : Triple (· = s) x Q X :=
  h.weaken (fun _ e => e ▸ hs) (fun _ => id) fun _ _ => id

theorem bind {x : EStateM ε σ α} {f : α → EStateM ε σ β} (hx : Triple P x R X)
    (hf : ∀ a, Triple R (f a) Q X) : Triple P (x >>= f) Q X where
  ok hs hr := by
    obtain ⟨a, u, hu, hr⟩ := act_bind_ok.1 hr
    exact (hf a).ok (hx.ok hs hu) hr
  stop hs hr := by
    rcases act_bind_error.1 hr with hu | ⟨a, u, hu, hr⟩
    · exact hx.stop hs hu
    · exact (hf a).stop (hx.ok hs hu) hr

theorem pure (a : α) : Triple P (pure a : EStateM ε σ α) P X :=
  ⟨fun hs hr => by cases hr; exact hs, nofun⟩

theorem throw {e : ε} (he : E e) : Triple P (throw e : EStateM ε σ α) Q fun e t => P t ∧ E e :=
  ⟨nofun, fun hs hr => by cases hr; exact ⟨hs, he⟩⟩

/-- After `get` the state is the one read. -/
theorem get_bind_eq {f : σ → EStateM ε σ β} (hf : ∀ s, P s → Triple (· = s) (f s) Q X) :
    Triple P (get >>= f) Q X :=
  ⟨fun hs hr => (hf _ hs).ok rfl hr, fun hs hr => (hf _ hs).stop rfl hr⟩

theorem get_bind {f : σ → EStateM ε σ β} (hf : ∀ s, P s → Triple P (f s) Q X) : Triple P (get >>= f) Q X :=
  get_bind_eq fun s hs => (hf s hs).at_state hs

theorem ite {c : Prop} [Decidable c] {x y : EStateM ε σ α} (hx : Triple P x Q X) (hy : Triple P y Q X) :
    Triple P (if c then x else y) Q X := by
  split
  · exact hx
  · exact hy

theorem modify {f : σ → σ} (h : ∀ s, P s → Q (f s)) : Triple P (modify f : EStateM ε σ PUnit) Q X :=
  ⟨fun hs hr => by cases hr; exact h _ hs, nofun⟩

/-- A piece run only under a condition, with what follows it. -/
theorem guarded {c : Prop} [Decidable c] {x : EStateM ε σ Unit} {k : Unit → EStateM ε σ β} (hx : Triple P x P X)
    (hk : ∀ a, Triple P (k a) Q X) : Triple P (if c then x >>= k else k ()) Q X :=
  .ite (hx.bind hk) (hk ())

/-- A piece over a component, seen from the component it starts with. -/
theorem onPart {get : σ → τ} {put : τ → σ → σ} {x : EStateM ε τ α}
    (h : ∀ s, P s → Triple (· = get s) x (fun u => Q (put u s)) fun e u => X e (put u s)) :
    Triple P (onPart get put x) Q X where
  ok hs hr := by
    obtain ⟨u, hu, rfl⟩ := onPart_ok.1 hr
    exact (h _ hs).ok rfl hu
  stop hs hr := by
    obtain ⟨u, hu, rfl⟩ := onPart_error.1 hr
    exact (h _ hs).stop rfl hu

end Triple

/-- A piece over a component keeps what every write of the component keeps. -/
theorem Keeps.onPart {J : τ → Prop} {get : σ → τ} {put : τ → σ → σ} {x : EStateM ε τ α}
    (hx : Keeps J E x) (hget : ∀ s, I s → J (get s)) (hput : ∀ s u, I s → J u → I (put u s)) :
    Keeps I E (onPart get put x) :=
  Triple.onPart fun s hs => (hx.at_state (hget s hs)).weaken (fun _ => id) (fun u => hput s u hs)
    fun _ u hu => ⟨hput s u hs hu.1, hu.2⟩

theorem StopsIn.ok {a : α} : StopsIn E (.ok a) := fun _ h => by cases h

theorem StopsIn.error {e : ε} (he : E e) : StopsIn E (.error e : Except ε α) := fun _ h => by cases h; exact he

theorem StopsIn.bind {x : Except ε α} {f : α → Except ε β} (hx : StopsIn E x) (hf : ∀ a, StopsIn E (f a)) :
    StopsIn E (x >>= f) := by
  cases x with
  | ok a => exact hf a
  | error e => exact .error (hx e rfl)

theorem StopsIn.ite {c : Prop} [Decidable c] {x y : Except ε α} (hx : StopsIn E x) (hy : StopsIn E y) :
    StopsIn E (if c then x else y) := by
  split
  · exact hx
  · exact hy

end Rules

/-- A reader as a piece keeps everything. -/
theorem StopsIn.keeps {σ α : Type} {I : σ → Prop} {E : Stop → Prop} {x : Except Stop α} (hx : StopsIn E x) :
    Keeps I E (ofRead x) where
  ok hs hr := by
    obtain ⟨-, rfl⟩ := ofRead_ok.1 hr
    exact hs
  stop hs hr := by
    obtain ⟨he, rfl⟩ := ofRead_error.1 hr
    exact ⟨hs, hx _ he⟩

/-! ### Raises name an error -/

/-- The raise has a code of its own, not 0 (60_exceptions.md R221). -/
def Raise.Named (r : Raise) : Prop := r.code ≠ .noError

/-- A stop that is a raise names an error. -/
def Stop.Named : Stop → Prop
  | .raise r => r.Named
  | .stuck _ => True

theorem Raise.named_sequence (p : Phase) : (sequenceRaise p).Named := nofun

/-- A raise-only piece as a piece that may be stuck keeps what it kept. -/
theorem Keeps.ofSure {σ α : Type} {I : σ → Prop} {x : SureAct σ α} (hx : Keeps I Raise.Named x) :
    Keeps I Stop.Named (ofSure x) where
  ok hs hr := hx.ok hs (ofSure_ok.1 hr)
  stop hs hr := by
    obtain ⟨r, rfl, hr'⟩ := ofSure_error.1 hr
    exact hx.stop hs hr'

/-! ### COUNT -/

theorem countLoop_keeps (k : Nat) (bytes : List Byte) :
    Keeps (fun _ => True) Raise.Named (countLoop k bytes) := by
  induction bytes generalizing k with
  | nil => exact .pure _
  | cons c rest ih =>
    unfold countLoop
    split
    · exact Triple.bind (Triple.throw nofun) fun _ => ih _
    · exact Triple.bind (.modify fun _ _ => trivial) fun _ => ih _

/-! ### HEAPIFY -/

theorem Heap.read_stops (h : Heap) (j : Nat) : StopsIn Stop.Named (h.read j) := by
  unfold Heap.read
  split
  · exact .ok
  · exact .error trivial

theorem Heap.keyAt_stops (h : Heap) (j : Nat) : StopsIn Stop.Named (h.keyAt j) := by
  refine StopsIn.bind (h.read_stops j) fun n => ?_
  split
  · exact .ok
  · exact .error nofun

theorem Heap.keyLess_stops (h : Heap) (i j : Nat) : StopsIn Stop.Named (h.keyLess i j) :=
  StopsIn.bind (h.keyAt_stops i) fun _ => StopsIn.bind (h.keyAt_stops j) fun _ => .ok

theorem Heap.smallerOf_stops (h : Heap) (m c : Nat) : StopsIn Stop.Named (h.smallerOf m c) :=
  .ite (.bind (h.keyLess_stops c m) fun _ => .ok) .ok

/-- A piece over one component, of which nothing but its stops matters here. -/
abbrev RaisesNamed {σ α : Type} (x : Act σ α) : Prop := Keeps (fun _ => True) Stop.Named x

theorem heapWrite_named (j : Nat) (n : Node) : RaisesNamed (heapWrite j n) where
  ok _ _ := trivial
  stop _ hr := by
    obtain ⟨-, rfl, -⟩ := heapWrite_error.1 hr
    exact ⟨trivial, trivial⟩

theorem heapSwap_named (i j : Nat) : RaisesNamed (heapSwap i j) :=
  .get_bind fun h _ => .bind (h.read_stops i).keeps fun a => .bind (h.read_stops j).keeps fun b =>
    .bind (heapWrite_named i b) fun _ => heapWrite_named j a

theorem siftDown_named (fuel i : Nat) : RaisesNamed (siftDown fuel i) := by
  induction fuel generalizing i with
  | zero => exact .pure ()
  | succ fuel ih =>
    exact .get_bind fun h _ => .bind (h.smallerOf_stops _ _).keeps fun c =>
      .bind (h.smallerOf_stops _ _).keeps fun m =>
        .ite (.pure ()) (.bind (heapSwap_named i m) fun _ => ih m)

theorem siftUp_named (fuel i : Nat) : RaisesNamed (siftUp fuel i) := by
  induction fuel generalizing i with
  | zero => exact .pure ()
  | succ fuel ih =>
    exact .ite (.get_bind fun h _ => .bind (h.keyLess_stops _ _).keeps fun _ =>
      .ite (.bind (heapSwap_named _ _) fun _ => ih _) (.pure ())) (.pure ())

theorem bulkBuildFrom_named (k : Nat) : RaisesNamed (bulkBuildFrom k) := by
  induction k with
  | zero => exact .pure ()
  | succ k ih => exact .get_bind fun _ _ => .bind (siftDown_named _ _) fun _ => ih

theorem setHeapSize_named (n : Nat) : RaisesNamed (setHeapSize n) := .modify fun _ => id

theorem heapPush_named (n : Node) : RaisesNamed (heapPush n) :=
  .get_bind fun _ _ => .bind (heapWrite_named _ n) fun _ => setHeapSize_named _

theorem heapPop_named : RaisesNamed heapPop :=
  .get_bind fun h _ => .bind (h.read_stops 0).keeps fun m => .bind (setHeapSize_named _) fun _ =>
    have last : RaisesNamed (do
      heapWrite (h.size.toNat - 1) unusedNode
      if 0 < h.size.toNat - 1 then siftDown (h.size.toNat - 1) 0
      pure m) := .bind (heapWrite_named _ _) fun _ => .guarded (siftDown_named _ _) fun _ => .pure m
    .ite (.bind (h.read_stops _).keeps fun n => .bind (heapWrite_named 0 n) fun _ => last) last

theorem heapInsert_named (n : Node) : RaisesNamed (heapInsert n) :=
  .bind (heapPush_named n) fun _ => .get_bind fun _ _ => siftUp_named _ _

theorem placeLeaves_named (hist : Hist) (is : List (Fin Config.domainSize)) :
    RaisesNamed (placeLeaves hist is) := by
  induction is with
  | nil => exact .pure ()
  | cons i rest ih => exact .guarded (heapPush_named _) fun _ => ih

theorem heapifyHeap_named (hist : Hist) : RaisesNamed (heapifyHeap hist) :=
  .bind (setHeapSize_named 0) fun _ => .bind (placeLeaves_named hist _) fun _ =>
    .get_bind fun _ _ => bulkBuildFrom_named _

/-! ### MERGE and BUILD -/

theorem treeAppend_named (n : Node) : RaisesNamed (treeAppend n) where
  ok _ _ := trivial
  stop _ hr := by
    obtain ⟨-, rfl, -⟩ := treeAppend_error.1 hr
    exact ⟨trivial, trivial⟩

/-! ### ENCODE -/

theorem Tree.read_stops (t : Tree) (j : Index) : StopsIn Stop.Named (t.read j) := by
  unfold Tree.read
  split
  · exact .ok
  · exact .error trivial

theorem raiseAt_stops {α : Type} {code : ErrCode} (k : Nat) (h : code ≠ .noError) :
    StopsIn Stop.Named (raiseAt code k : Except Stop α) := .error h

theorem codeFrom_stops (t : Tree) (s : Fin Config.domainSize) (k fuel : Nat) (n : Node) :
    StopsIn Stop.Named (codeFrom t s k fuel n) := by
  induction fuel generalizing n with
  | zero =>
    exact .ite (.ite .ok (raiseAt_stops k nofun)) (.ite (raiseAt_stops k nofun) (.error trivial))
  | succ fuel ih =>
    exact .ite (.ite .ok (raiseAt_stops k nofun)) (.ite (raiseAt_stops k nofun)
      (.bind (t.read_stops _) fun l => .ite (.bind (ih l) fun _ => .ok)
        (.bind (t.read_stops _) fun r => .bind (ih r) fun _ => .ok)))

theorem codeOf_stops (t : Tree) (root : Index) (s : Fin Config.domainSize) (k : Nat) :
    StopsIn Stop.Named (codeOf t root s k) :=
  .bind (t.read_stops root) fun n => .ite (.ite .ok (raiseAt_stops k nofun)) (codeFrom_stops t s k _ n)

theorem encodeLoop_keeps (t : Tree) (root : Index) (cw k : Nat) (bytes : List Byte) :
    Keeps (fun c => c.words.length = cw) Stop.Named (encodeLoop t root k bytes) := by
  induction bytes generalizing k with
  | nil => exact .pure ()
  | cons b rest ih =>
    unfold encodeLoop
    split
    · exact .throw nofun
    · exact .bind (codeOf_stops t root _ k).keeps fun code => .get_bind fun c hc =>
        .ite (.throw nofun) (.bind (.modify fun _ _ => (pack_length _ _).trans hc) fun _ => ih _)

theorem encodeStream_keeps (t : Tree) (root : Index) (cw : Nat) (inbuf : List Byte) :
    Keeps (fun c => c.words.length = cw) Stop.Named (encodeStream t root inbuf) :=
  .bind (.modify fun _ hc => by simpa using hc) fun _ => encodeLoop_keeps t root cw 0 inbuf

/-! ### DECODE -/

theorem CodeStream.readBit_stops (c : CodeStream) (o : Nat) : StopsIn Stop.Named (c.readBit o) := by
  unfold CodeStream.readBit
  split
  · exact .ok
  · exact .error trivial

theorem descend_stops (t : Tree) (c : CodeStream) (left o : Nat) (n : Node) :
    StopsIn Stop.Named (descend t c left o n) := by
  induction left generalizing o n with
  | zero => exact .ite (raiseAt_stops o nofun) (.ite .ok (raiseAt_stops o nofun))
  | succ left ih =>
    exact .ite (raiseAt_stops o nofun) (.ite .ok
      (.bind (c.readBit_stops o) fun _ => .bind (t.read_stops _) fun n' => ih (o + 1) n'))

theorem nextLeaf_stops (t : Tree) (c : CodeStream) (r : Node) (o : Nat) :
    StopsIn Stop.Named (nextLeaf t c r o) :=
  .ite (.bind (c.readBit_stops o) fun _ => .ite (raiseAt_stops _ nofun) .ok) (descend_stops t c _ o r)

theorem emitSymbol_keeps (len : Nat) (n : Node) (o : Nat) :
    Keeps (fun x => x.bytes.length = len) Stop.Named (emitSymbol n o) := by
  refine .get_bind fun x hx => .ite (.throw nofun) ?_
  split
  · exact .throw nofun
  · exact .modify fun _ _ => by simpa using hx

theorem decodeLoop_keeps (len : Nat) (t : Tree) (c : CodeStream) (r : Node) (fuel o : Nat) :
    Keeps (fun x => x.bytes.length = len) Stop.Named (decodeLoop t c r fuel o) := by
  induction fuel generalizing o with
  | zero => exact .pure ()
  | succ fuel ih =>
    exact .ite (.bind (nextLeaf_stops t c r o).keeps fun x => .bind (emitSymbol_keeps len x.1 x.2) fun _ => ih x.2)
      (.pure ())

/-- DECODE gives OUTBUF the length it is told, whatever it had. -/
theorem decodeStream_length (t : Tree) (root : Index) (c : CodeStream) (n : Nat) :
    Triple (fun _ => True) (decodeStream t root c n) (fun x => x.bytes.length = n)
      fun e x => x.bytes.length = n ∧ e.Named :=
  .bind (.modify fun _ _ => List.length_replicate) fun _ => .bind (t.read_stops root).keeps fun r =>
    decodeLoop_keeps n t c r _ 0

/-! ### The commands' bodies -/

/-! Each body keeps what its own writes keep; the hypotheses name those writes. -/

section Bodies

variable {I : State → Prop}

theorem countBody_keeps (hhist : ∀ s h, I s → I (s.putHist h))
    (hdistinct : ∀ s d, I s → I { s with distinct := d }) (hphase : ∀ s, I s → I (s.setPhase .counted)) : Keeps I Raise.Named countBody :=
  .get_bind fun s _ => .bind ((countLoop_keeps 0 s.inbuf).onPart (fun _ _ => trivial) fun s h hs _ => hhist s h hs)
    fun _ => .bind (.modify fun _ hs => hdistinct _ _ hs) fun _ => .modify hphase

theorem onHeap_keeps {α : Type} {x : Act Heap α} (hx : RaisesNamed x) (hheap : ∀ s h, I s → I (s.putHeap h)) :
    Keeps I Stop.Named (onHeap x) := hx.onPart (fun _ _ => trivial) fun s h hs _ => hheap s h hs

theorem onTree_keeps {α : Type} {x : Act Tree α} (hx : RaisesNamed x) (htree : ∀ s t, I s → I (s.putTree t)) :
    Keeps I Stop.Named (onTree x) := hx.onPart (fun _ _ => trivial) fun s t hs _ => htree s t hs

theorem heapifyBody_keeps (hheap : ∀ s h, I s → I (s.putHeap h)) (hphase : ∀ s, I s → I (s.setPhase .heaped)) :
    Keeps I Stop.Named heapifyBody :=
  .get_bind fun s _ => .bind (onHeap_keeps (heapifyHeap_named s.hist) hheap) fun _ => .modify hphase

theorem appendIfNew_keeps (n : Node) (htree : ∀ s t, I s → I (s.putTree t)) :
    Keeps I Stop.Named (appendIfNew n) := .ite (onTree_keeps (treeAppend_named n) htree) (.pure n)

theorem mergeIteration_keeps (hheap : ∀ s h, I s → I (s.putHeap h)) (htree : ∀ s t, I s → I (s.putTree t)) :
    Keeps I Stop.Named mergeIteration :=
  .bind (onHeap_keeps heapPop_named hheap) fun a => .bind (onHeap_keeps heapPop_named hheap) fun b =>
    .bind (appendIfNew_keeps a htree) fun _ => .bind (appendIfNew_keeps b htree) fun _ =>
      .bind (onTree_keeps (treeAppend_named _) htree) fun m => onHeap_keeps (heapInsert_named m) hheap

variable (hheap : ∀ s h, I s → I (s.putHeap h)) (htree : ∀ s t, I s → I (s.putTree t))
  (hroot : ∀ s r, I s → I { s with root := r }) (hphase : ∀ s, I s → I (s.setPhase .built))
include hheap htree hroot hphase

theorem finalize_keeps : Keeps I Stop.Named finalize := by
  have close (n : Node) : Keeps I Stop.Named (do
      modify fun s => { s with root := n.insertedAt }
      modify (State.setPhase .built)) := .bind (.modify fun _ hs => hroot _ _ hs) fun _ => .modify hphase
  refine .get_bind fun s _ => .bind (s.heap.read_stops 0).keeps fun n => .ite ?_ (.bind (.pure n) close)
  exact .bind (onTree_keeps (treeAppend_named n) htree) fun n => .bind (onHeap_keeps (heapWrite_named 0 n) hheap)
    fun _ => .bind (.pure n) close

theorem mergeBody_keeps : Keeps I Stop.Named mergeBody :=
  .get_bind fun _ _ => .guarded (mergeIteration_keeps hheap htree) fun _ =>
    .get_bind fun _ _ => .ite (finalize_keeps hheap htree hroot hphase) (.pure ())

theorem buildLoop_keeps (fuel : Nat) : Keeps I Stop.Named (buildLoop fuel) := by
  induction fuel with
  | zero => exact .throw trivial
  | succ fuel ih =>
    exact .bind (mergeBody_keeps hheap htree hroot hphase) fun _ => .get_bind fun _ _ => .ite (.pure ()) ih

theorem buildBody_keeps : Keeps I Stop.Named buildBody :=
  .get_bind fun _ _ => buildLoop_keeps hheap htree hroot hphase _

end Bodies

section StreamBodies

variable {I : State → Prop}

theorem encodeBody_keeps (hcode : ∀ s c, I s → c.words.length = s.codeWords → I (s.putCode c))
    (hphase : ∀ s, I s → I (s.setPhase .encoded)) : Keeps I Stop.Named encodeBody :=
  .get_bind fun s _ => .bind (.onPart fun u hu =>
    ((encodeStream_keeps s.tree s.root u.codeWords s.inbuf).at_state rfl).weaken (fun _ => id)
      (fun c => hcode u c hu) fun _ c hc => ⟨hcode u c hu hc.1, hc.2⟩) fun _ => .modify hphase

theorem decodeBody_keeps (hout : ∀ s o, I s → o.bytes.length = s.inputLen → I (s.putOut o))
    (hphase : ∀ s, I s → I (s.setPhase .decoded)) : Keeps I Stop.Named decodeBody := by
  refine .get_bind_eq fun s hs => .bind (.onPart ?_) fun _ => .modify hphase
  rintro s rfl
  exact (decodeStream_length s.tree s.root s.code s.inputLen).weaken (fun _ _ => trivial) (fun o => hout s o hs)
    fun _ o ho => ⟨hout s o hs ho.1, ho.2⟩

theorem verifyBody_keeps (hphase : ∀ s, I s → I (s.setPhase .done)) : Keeps I Raise.Named verifyBody := by
  refine .get_bind fun s hs => ?_
  split
  · exact .throw nofun
  · exact .modify fun _ _ => hphase s hs

end StreamBodies

/-! ### What a command keeps -/

/-- Basic without the handshake, which is the block's turn's to keep. -/
structure State.Recorded (s : State) : Prop where
  legal : s.params.legal = true
  wf : s.wf
  record : s.ErrorRecord

/-- A command's body is running: no error has been taken. -/
structure State.Running (s : State) : Prop extends s.Recorded where
  noError : s.phase ≠ .error

namespace State.Running

theorem putHist (s : State) (h : Hist) (hs : s.Running) : (s.putHist h).Running :=
  ⟨⟨hs.legal, hs.wf, hs.record⟩, hs.noError⟩

theorem setDistinct (s : State) (d : BitVec 7) (hs : s.Running) : ({ s with distinct := d } : State).Running :=
  ⟨⟨hs.legal, hs.wf, hs.record⟩, hs.noError⟩

theorem putHeap (s : State) (h : Heap) (hs : s.Running) : (s.putHeap h).Running :=
  ⟨⟨hs.legal, hs.wf, hs.record⟩, hs.noError⟩

theorem putTree (s : State) (t : Tree) (hs : s.Running) : (s.putTree t).Running :=
  ⟨⟨hs.legal, hs.wf, hs.record⟩, hs.noError⟩

theorem setRoot (s : State) (r : Index) (hs : s.Running) : ({ s with root := r } : State).Running :=
  ⟨⟨hs.legal, hs.wf, hs.record⟩, hs.noError⟩

theorem putCode (s : State) (c : CodeStream) (hs : s.Running) (hc : c.words.length = s.codeWords) :
    (s.putCode c).Running :=
  ⟨⟨by simpa [State.params, hc] using hs.legal, hs.wf, hs.record⟩, hs.noError⟩

theorem putOut (s : State) (o : Output) (hs : s.Running) (ho : o.bytes.length = s.inputLen) :
    (s.putOut o).Running :=
  ⟨⟨hs.legal, ho, hs.record⟩, hs.noError⟩

theorem setPhase {p : Phase} (hp : p ≠ .error) (s : State) (hs : s.Running) : (s.setPhase p).Running :=
  ⟨⟨hs.legal, hs.wf, fun _ => hs.record.1 hs.noError, fun h => absurd h hp⟩, hp⟩

end State.Running

/-- A raise-only component command is a component command. -/
theorem sureComponent_eq_component (op : BitVec 8) (need : Phase) (body : SureAct State Unit) (s : State) :
    sureComponent op need body s = component op need (ofSure body) s := by
  unfold sureComponent component
  split
  · rfl
  split
  · unfold settle inStage ofSure
    cases body s <;> rfl
  · rfl

namespace State.Recorded

variable {s t : State}

theorem takeError (hs : s.Recorded) (op : BitVec 8) {r : Raise} (hr : r.Named) : (s.takeError op r).Recorded :=
  ⟨hs.legal, hs.wf, fun h => absurd rfl h, fun _ => hr⟩

/-- INIT leaves ERROR (60_exceptions.md R227). -/
theorem initialise (hs : s.Recorded) : s.initialise.Running :=
  ⟨⟨by simpa [State.params] using hs.legal, initialise_wf s, fun _ => ⟨rfl, rfl, rfl⟩, nofun⟩, nofun⟩

/-- A component command keeps the record when its body does while it runs, and names the errors it raises. -/
theorem component {op : BitVec 8} {need : Phase} {body : Act State Unit}
    (hb : Keeps State.Running Stop.Named body) (hs : s.Recorded) (h : component op need body s = .next t) :
    t.Recorded := by
  rcases component_next h with ⟨-, rfl⟩ | ⟨-, -, rfl⟩ | ⟨he, -, hok⟩ | ⟨he, -, r, u, hr, rfl⟩
  · exact hs
  · exact hs.takeError op (Raise.named_sequence _)
  · exact (hb.ok ⟨hs, he⟩ hok).toRecorded
  · obtain ⟨hu, hn⟩ := hb.stop ⟨hs, he⟩ hr
    exact hu.toRecorded.takeError op hn

end State.Recorded

theorem countBody_running : Keeps State.Running Raise.Named countBody :=
  countBody_keeps State.Running.putHist State.Running.setDistinct (State.Running.setPhase nofun)

theorem heapifyBody_running : Keeps State.Running Stop.Named heapifyBody :=
  heapifyBody_keeps State.Running.putHeap (State.Running.setPhase nofun)

theorem mergeBody_running : Keeps State.Running Stop.Named mergeBody :=
  mergeBody_keeps State.Running.putHeap State.Running.putTree State.Running.setRoot (State.Running.setPhase nofun)

theorem buildBody_running : Keeps State.Running Stop.Named buildBody :=
  buildBody_keeps State.Running.putHeap State.Running.putTree State.Running.setRoot (State.Running.setPhase nofun)

theorem encodeBody_running : Keeps State.Running Stop.Named encodeBody :=
  encodeBody_keeps State.Running.putCode (State.Running.setPhase nofun)

theorem decodeBody_running : Keeps State.Running Stop.Named decodeBody :=
  decodeBody_keeps State.Running.putOut (State.Running.setPhase nofun)

theorem verifyBody_running : Keeps State.Running Raise.Named verifyBody :=
  verifyBody_keeps (State.Running.setPhase nofun)

/-- A stage of RUN goes on running, or has taken its error. -/
theorem inStage_running (op : BitVec 8) {body : Act State Unit} (hb : Keeps State.Running Stop.Named body) :
    Triple State.Running (inStage op body) State.Running fun e t => ∀ r, e = .raise r → t.Recorded where
  ok hs hr := hb.ok hs (inStage_ok.1 hr)
  stop := by
    rintro s _ t hs hr r rfl
    obtain ⟨u, hu, rfl⟩ := inStage_raise.1 hr
    obtain ⟨hu, hn⟩ := hb.stop hs hu
    exact hu.toRecorded.takeError op hn

/-- RUN starts anywhere, since INIT comes first, and the first error stops it (45_control.md R203). -/
theorem runBody_recorded :
    Triple State.Recorded runBody State.Running fun e t => ∀ r, e = .raise r → t.Recorded :=
  .bind (.modify fun _ hs => hs.initialise) fun _ => .bind (inStage_running _ countBody_running.ofSure) fun _ =>
    .bind (inStage_running _ heapifyBody_running) fun _ => .bind (inStage_running _ buildBody_running) fun _ =>
      .bind (inStage_running _ encodeBody_running) fun _ => .bind (inStage_running _ decodeBody_running) fun _ =>
        inStage_running _ verifyBody_running.ofSure

/-- Every command keeps the parameters, the lengths and the error record. -/
theorem exec_recorded {i : Instr} {s t : State} (hs : s.Recorded) (h : exec i s = .next t) : t.Recorded := by
  cases i with
  | nop => cases h; exact hs
  | init => cases h; exact hs.initialise.toRecorded
  | count => exact hs.component countBody_running.ofSure ((sureComponent_eq_component ..).symm.trans h)
  | heapify => exact hs.component heapifyBody_running h
  | merge => exact hs.component mergeBody_running h
  | build => exact hs.component buildBody_running h
  | encode => exact hs.component encodeBody_running h
  | decode => exact hs.component decodeBody_running h
  | verify => exact hs.component verifyBody_running.ofSure ((sureComponent_eq_component ..).symm.trans h)
  | run =>
    rcases answer_next.1 h with hok | ⟨r, hr⟩
    · exact (runBody_recorded.ok hs hok).toRecorded
    · exact runBody_recorded.stop hs hr r rfl

theorem illegalCommand_recorded {s : State} (hs : s.Recorded) (c : Word) : (s.illegalCommand c).Recorded := by
  unfold State.illegalCommand
  split
  · exact hs
  · exact hs.takeError _ nofun

/-! ### Every step keeps Basic -/

theorem State.Basic.recorded {s : State} (hs : s.Basic) : s.Recorded :=
  have ⟨legal, wf, _, record⟩ := hs
  ⟨legal, wf, record⟩

/-- Completing a command restores the handshake. -/
theorem State.Recorded.complete {s : State} (hs : s.Recorded) : s.complete.Basic :=
  ⟨hs.legal, hs.wf, ⟨rfl, fun _ => rfl⟩, hs.record⟩

/-- The reset state is sound at either level of rst_n (70_reset_and_hazards.md R250). -/
theorem State.Recorded.applyReset {s : State} (hs : s.Recorded) (level : Bool) :
    ({ s.applyReset with rstN := level } : State).Basic :=
  have ⟨legal, wf, _, record⟩ := hs.initialise.toRecorded.complete
  ⟨legal, wf, ⟨rfl, fun _ => rfl⟩, record⟩

theorem blockTurn_basic {s t : State} (hs : s.Basic) (h : blockTurn s = .next t) : t.Basic := by
  rcases blockTurn_next h with rfl | ⟨c, i, u, -, -, -, hu, rfl⟩ | ⟨c, -, -, -, -, rfl⟩
  · exact hs
  · exact (exec_recorded hs.recorded hu).complete
  · exact (illegalCommand_recorded hs.recorded c).complete

theorem hostWrite_basic {s : State} (hs : s.Basic) (hr : s.rstN = true) (off : Nat) (v : Word) :
    (s.hostWrite off v).Basic := by
  obtain ⟨legal, wf, shake, record⟩ := hs
  have hwf := hostWrite_wf s off v wf
  rcases hostWrite_cases s off v with ⟨-, h⟩ | h | ⟨-, h | ⟨k, h⟩ | ⟨w, h⟩⟩ <;> rw [h] at hwf ⊢
  · exact ⟨legal, wf, shake, record⟩
  · exact ⟨legal, wf, shake, record⟩
  · exact ⟨legal, wf, ⟨rfl, fun h => absurd (hr.symm.trans h) nofun⟩, record⟩
  · exact ⟨by simpa [State.params] using legal, hwf, shake, record⟩
  · exact ⟨by simpa [State.params] using legal, hwf, shake, record⟩

theorem hostRead_basic {s : State} (hs : s.Basic) (off : Nat) : (s.hostRead off).Basic := by
  rcases hostRead_cases s off with h | h <;> rw [h] <;> exact hs

theorem hostAccess_basic {s t : State} {a : Access} (hs : s.Basic) (h : s.hostAccess a = .next t) : t.Basic := by
  obtain ⟨hr, -, -, rfl⟩ := hostAccess_next h
  split
  · exact hostWrite_basic hs hr _ _
  · exact hostRead_basic hs _

theorem driveResetHigh_basic {s : State} (hs : s.Basic) : s.driveResetHigh.Basic := by
  unfold State.driveResetHigh
  split
  · exact hs
  · exact hs.recorded.applyReset true

theorem takeEvent_basic {s t : State} {e : Event} (hs : s.Basic) (h : takeEvent e s = .next t) : t.Basic := by
  cases e with
  | access a => exact hostAccess_basic hs h
  | block => exact blockTurn_basic hs h
  | resetLow => cases h; exact hs.recorded.applyReset false
  | resetHigh => cases h; exact driveResetHigh_basic hs

/-- Settles O57, by cases on the next event: each command keeps the record, and the block's turn, the host's
write and reset keep the handshake. -/
theorem basicSoundnessKept : Obligations.BasicSoundnessKept := by
  intro s t hs h
  cases he : s.events with
  | nil => exact blockTurn_basic hs (step_nil he ▸ h)
  | cons e rest => exact takeEvent_basic (s := { s with events := rest }) hs (step_cons he ▸ h)

end Sys2Proof.Machine

/-!
The commands seen alike: one body per component command, what every body's writes keep, and what a command and a
step can answer, each said once.
-/

namespace Sys2Proof.Machine

/-! ### The component commands, seen alike -/

/-- The pseudocode of a component command; NOP, INIT and RUN are none (45_control.md R200). -/
def componentBody : Instr → Act State Unit
  | .count => ofSure countBody
  | .heapify => heapifyBody
  | .merge => mergeBody
  | .build => buildBody
  | .encode => encodeBody
  | .decode => decodeBody
  | .verify => ofSure verifyBody
  | .nop | .init | .run => pure ()

/-- A command with a required phase is the component command of its own opcode and body. -/
theorem exec_component {i : Instr} {p : Phase} (h : requiredPhase i = some p) (s : State) :
    exec i s = component (opcode i) p (componentBody i) s := by
  cases i <;> cases h
  case count => exact sureComponent_eq_component ..
  case verify => exact sureComponent_eq_component ..
  all_goals rfl

/-- In ERROR a component command is discarded. -/
theorem exec_component_discards {i : Instr} {p : Phase} {s : State} (h : requiredPhase i = some p)
    (he : s.phase = .error) : exec i s = .next s := by
  rw [exec_component h, component, if_pos he]

/-- Outside its phase a component command raises SEQUENCE. -/
theorem exec_component_sequence {i : Instr} {p : Phase} {s : State} (h : requiredPhase i = some p)
    (hp : s.phase ≠ p) (he : s.phase ≠ .error) :
    exec i s = .next (s.takeError (opcode i) (sequenceRaise s.phase)) := by
  rw [exec_component h, component, if_neg he, if_neg hp]

/-- A step in which the block has the turn is the block's turn. -/
theorem step_blockHasTurn {s : State} {rest : List Event} (h : s.BlockHasTurn rest) :
    step s = blockTurn { s with events := rest } := by
  rcases h with ⟨he, rfl⟩ | he
  · rw [step_nil he, ← he]
  · exact step_cons he

/-- The block's turn on an illegal word. -/
theorem blockTurn_illegal {s : State} {c : Word} {why : Reject} (hr : s.rstN = true) (hc : s.pending = some c)
    (hd : decodeWord c = .illegal why) : blockTurn s = .next (s.illegalCommand c).complete := by
  simp only [blockTurn, hr, hc, runCommand, hd, if_true]

/-- In ERROR an illegal word is discarded. -/
theorem blockTurn_discards {s : State} {c : Word} {why : Reject} (hr : s.rstN = true) (hc : s.pending = some c)
    (hd : decodeWord c = .illegal why) (he : s.phase = .error) : blockTurn s = .next s.complete := by
  rw [blockTurn_illegal hr hc hd, State.illegalCommand, if_pos he]

/-- Settles O6, by the discard that comes first in every component command and in an illegal word. -/
theorem errorPhaseDiscards : Obligations.ErrorPhaseDiscards := by
  refine ⟨fun i s p hp he => exec_component_discards hp he, fun s c why rest hturn hr hc hd he => ?_⟩
  rw [step_blockHasTurn hturn]
  exact blockTurn_discards hr hc hd he

/-- Settles O7, by the phase check that precedes every component command's body. -/
theorem wrongPhaseRaisesSequence : Obligations.WrongPhaseRaisesSequence :=
  fun _ _ _ h hp he => exec_component_sequence h hp he

/-! ### What the writes of every body keep -/

/-- The writes of the commands' bodies keep `I`: the arrays CODEBUF and OUTBUF keep their lengths. -/
structure KeptByWrites (I : State → Prop) : Prop where
  hist : ∀ s h, I s → I (s.putHist h)
  distinct : ∀ s d, I s → I { s with distinct := d }
  heap : ∀ s h, I s → I (s.putHeap h)
  tree : ∀ s t, I s → I (s.putTree t)
  root : ∀ s r, I s → I { s with root := r }
  code : ∀ s c, I s → c.words.length = s.codeWords → I (s.putCode c)
  out : ∀ s o, I s → o.bytes.length = s.inputLen → I (s.putOut o)
  phase : ∀ s p, I s → I (s.setPhase p)

theorem KeptByWrites.componentBody {I : State → Prop} (hI : KeptByWrites I) (i : Instr) :
    Keeps I Stop.Named (componentBody i) := by
  have phase (p : Phase) (s : State) : I s → I (s.setPhase p) := hI.phase s p
  cases i with
  | nop | init | run => exact .pure ()
  | count => exact (countBody_keeps hI.hist hI.distinct (phase _)).ofSure
  | heapify => exact heapifyBody_keeps hI.heap (phase _)
  | merge => exact mergeBody_keeps hI.heap hI.tree hI.root (phase _)
  | build => exact buildBody_keeps hI.heap hI.tree hI.root (phase _)
  | encode => exact encodeBody_keeps hI.code (phase _)
  | decode => exact decodeBody_keeps hI.out (phase _)
  | verify => exact (verifyBody_keeps (phase _)).ofSure

/-! ### Stages and RUN -/

/-- The stop is a fault, or a raise taken as an error in a state of `X`. -/
def TookError (X : Stop → State → Prop) (e : Stop) (t : State) : Prop :=
  ∀ r, e = .raise r → ∃ op u, X e u ∧ t = u.takeError op r

/-- A stage leaves what its body leaves, with its raise taken. -/
theorem Triple.inStage {P Q : State → Prop} {X : Stop → State → Prop} {body : Act State Unit}
    (hb : Triple P body Q X) (op : BitVec 8) : Triple P (inStage op body) Q (TookError X) where
  ok hs hr := hb.ok hs (inStage_ok.1 hr)
  stop := by
    rintro s _ t hs hr r rfl
    obtain ⟨u, hu, rfl⟩ := inStage_raise.1 hr
    exact ⟨op, u, hb.stop hs hu, rfl⟩

/-- RUN goes from INIT through the phases to DONE, or stops with the first error taken
(45_control.md R203, R204); `I p` is what is known in phase `p`. -/
theorem runBody_triple {P : State → Prop} {I : Phase → State → Prop} {X : Stop → State → Prop}
    (init : ∀ s, P s → I .idle s.initialise)
    (count : Triple (I .idle) (componentBody .count) (I .counted) X)
    (heapify : Triple (I .counted) (componentBody .heapify) (I .heaped) X)
    (build : Triple (I .heaped) (componentBody .build) (I .built) X)
    (encode : Triple (I .built) (componentBody .encode) (I .encoded) X)
    (decode : Triple (I .encoded) (componentBody .decode) (I .decoded) X)
    (verify : Triple (I .decoded) (componentBody .verify) (I .done) X) :
    Triple P runBody (I .done) (TookError X) :=
  .bind (.modify init) fun _ => .bind (count.inStage _) fun _ => .bind (heapify.inStage _) fun _ =>
    .bind (build.inStage _) fun _ => .bind (encode.inStage _) fun _ => .bind (decode.inStage _) fun _ =>
      verify.inStage _

/-- RUN keeps, from INIT on, what the writes keep. -/
theorem KeptByWrites.runBody {I : State → Prop} (hI : KeptByWrites I) :
    Triple (fun s => I s.initialise) runBody I (TookError fun e t => I t ∧ e.Named) :=
  runBody_triple (I := fun _ => I) (fun _ => id) (hI.componentBody _) (hI.componentBody _) (hI.componentBody _)
    (hI.componentBody _) (hI.componentBody _) (hI.componentBody _)

/-! ### What a command can answer -/

/-- Everything a command can answer as a next state `t` from `s` (45_control.md R200 to R203). -/
inductive Executed (i : Instr) (s : State) : State → Prop
  | nop : i = .nop → Executed i s s
  | init : i = .init → Executed i s s.initialise
  | ran {t : State} : i = .run → runBody s = .ok () t → Executed i s t
  | runRaised {r : Raise} {t : State} : i = .run → runBody s = .error (.raise r) t → Executed i s t
  | discarded {p : Phase} : requiredPhase i = some p → s.phase = .error → Executed i s s
  | outOfPhase {p : Phase} : requiredPhase i = some p → s.phase ≠ .error → s.phase ≠ p →
      Executed i s (s.takeError (opcode i) (sequenceRaise s.phase))
  | completed {p : Phase} {t : State} : requiredPhase i = some p → s.phase = p → componentBody i s = .ok () t →
      Executed i s t
  | raised {p : Phase} {r : Raise} {u : State} : requiredPhase i = some p → s.phase ≠ .error → s.phase = p →
      componentBody i s = .error (.raise r) u → Executed i s (u.takeError (opcode i) r)

theorem exec_next {i : Instr} {s t : State} (h : exec i s = .next t) : Executed i s t := by
  cases hp : requiredPhase i with
  | some p =>
    rw [exec_component hp] at h
    rcases component_next h with ⟨he, rfl⟩ | ⟨he, hne, rfl⟩ | ⟨-, hsp, hok⟩ | ⟨he, hsp, r, u, hr, rfl⟩
    · exact .discarded hp he
    · exact .outOfPhase hp he hne
    · exact .completed hp hsp hok
    · exact .raised hp he hsp hr
  | none =>
    cases i with
    | nop => cases h; exact .nop rfl
    | init => cases h; exact .init rfl
    | run => exact (answer_next.1 h).elim (.ran rfl) fun ⟨_, hr⟩ => .runRaised rfl hr
    | count | heapify | merge | build | encode | decode | verify => cases hp

/-- Every command keeps what the writes keep, when an error taken keeps it too and, for INIT and RUN, so do
INIT's values. -/
theorem KeptByWrites.exec {I : State → Prop} (hI : KeptByWrites I) {i : Instr} {s t : State}
    (herror : ∀ u op r, I u → I (u.takeError op r)) (hinit : i = .init ∨ i = .run → I s.initialise) (hs : I s)
    (h : exec i s = .next t) : I t := by
  cases exec_next h with
  | nop | discarded => exact hs
  | init hi => exact hinit (.inl hi)
  | ran hi hok => exact hI.runBody.ok (hinit (.inr hi)) hok
  | runRaised hi hr =>
    obtain ⟨op, u, ⟨hu, -⟩, rfl⟩ := hI.runBody.stop (hinit (.inr hi)) hr _ rfl
    exact herror _ _ _ hu
  | outOfPhase => exact herror _ _ _ hs
  | completed _ _ hok => exact (hI.componentBody i).ok hs hok
  | raised _ _ _ hr => exact herror _ _ _ ((hI.componentBody i).stop hs hr).1

/-! ### What no command writes -/

/-- The states agree on INBUF, the parameters, the handshake and the outside (10_state.md R22, R30, R45). -/
structure State.SameOutside (s t : State) : Prop where
  inbuf : t.inbuf = s.inbuf
  codeWords : t.codeWords = s.codeWords
  base : t.base = s.base
  rstN : t.rstN = s.rstN
  pending : t.pending = s.pending
  busy : t.busy = s.busy
  events : t.events = s.events
  readData : t.readData = s.readData
  draws : t.draws = s.draws

namespace State.SameOutside

theorem refl (s : State) : s.SameOutside s := ⟨rfl, rfl, rfl, rfl, rfl, rfl, rfl, rfl, rfl⟩

theorem keptByWrites (s : State) : KeptByWrites s.SameOutside where
  hist _ _ hu := { hu with }
  distinct _ _ hu := { hu with }
  heap _ _ hu := { hu with }
  tree _ _ hu := { hu with }
  root _ _ hu := { hu with }
  code _ _ hu hc := { hu with codeWords := hc.trans hu.codeWords }
  out _ _ hu _ := { hu with }
  phase _ _ hu := { hu with }

theorem takeError {s u : State} (op : BitVec 8) (r : Raise) (hu : s.SameOutside u) :
    s.SameOutside (u.takeError op r) := { hu with }

theorem initialise (s : State) : s.SameOutside s.initialise :=
  { refl s with codeWords := List.length_replicate }

theorem exec {i : Instr} {s t : State} (h : exec i s = .next t) : s.SameOutside t :=
  (keptByWrites s).exec (fun _ op r => takeError op r) (fun _ => initialise s) (refl s) h

end State.SameOutside

/-- Settles O40: the writes of the bodies, an error taken and INIT's values all leave the outside alone. -/
theorem commandsKeepInbuf : Obligations.CommandsKeepInbuf := fun _ _ _ h =>
  have hu := State.SameOutside.exec h
  ⟨hu.inbuf, hu.codeWords, hu.base, hu.rstN, hu.pending, hu.busy, hu.events, hu.readData, hu.draws⟩

/-! ### What a step can do -/

/-- An opcode is only its own command's. -/
theorem eq_opcode_of_commandOf {op : BitVec 8} {i : Instr} (h : commandOf op = some i) : op = opcode i := by
  unfold commandOf at h
  split at h <;> cases h <;> exact BitVec.eq_of_toNat_eq ‹_›

/-- A word decodes only to the command whose word it is (30_encoding.md R93). -/
theorem eq_encodeWord_of_decode {c : Word} {i : Instr} (h : decodeWord c = .legal i) : c = encodeWord i := by
  unfold decodeWord at h
  split at h
  · rename_i hrsv
    split at h
    · rename_i hi
      cases h
      have hop := congrArg BitVec.toNat (eq_opcode_of_commandOf hi)
      have hrsv := congrArg BitVec.toNat hrsv
      simp only [opField, rsvField, BitVec.extractLsb'_toNat, Nat.shiftRight_eq_div_pow, pow_zero, Nat.div_one,
        BitVec.toNat_ofNat] at hop hrsv
      refine BitVec.eq_of_toNat_eq ?_
      rw [encodeWord, BitVec.toNat_setWidth]
      omega
    · cases h
  · cases h

/-- Everything a step can be: a host access, the block's turn, a reset, or a high rst_n driven high again. -/
theorem step_next {s t : State} (h : step s = .next t) :
    (∃ rest a, State.hostAccess { s with events := rest } a = .next t) ∨
    (∃ rest, s.BlockHasTurn rest ∧ blockTurn { s with events := rest } = .next t) ∨
    (s.ResetNext ∧ ∃ rest level, t = { State.applyReset { s with events := rest } with rstN := level }) ∨
    ∃ rest, t = { s with events := rest } := by
  cases he : s.events with
  | nil => exact .inr (.inl ⟨[], .inl ⟨he, rfl⟩, by rw [step_nil he] at h; rw [← he]; exact h⟩)
  | cons e rest =>
    rw [step_cons he] at h
    cases e with
    | access a => exact .inl ⟨rest, a, h⟩
    | block => exact .inr (.inl ⟨rest, .inr he, h⟩)
    | resetLow =>
      cases h
      exact .inr (.inr (.inl ⟨.inl ⟨rest, he⟩, rest, false, rfl⟩))
    | resetHigh =>
      cases h
      unfold State.driveResetHigh
      split
      · exact .inr (.inr (.inr ⟨rest, rfl⟩))
      · rename_i hr
        exact .inr (.inr (.inl ⟨.inr ⟨rest, he, by simpa using hr⟩, rest, true, rfl⟩))


/-! ### The error registers -/

/-- The error registers are the same. -/
structure State.SameErrors (s t : State) : Prop where
  errCode : t.errCode = s.errCode
  errOp : t.errOp = s.errOp
  errInfo : t.errInfo = s.errInfo

theorem State.SameErrors.refl (s : State) : s.SameErrors s := ⟨rfl, rfl, rfl⟩

theorem State.SameErrors.keptByWrites (s : State) : KeptByWrites s.SameErrors where
  hist _ _ hu := { hu with }
  distinct _ _ hu := { hu with }
  heap _ _ hu := { hu with }
  tree _ _ hu := { hu with }
  root _ _ hu := { hu with }
  code _ _ hu _ := { hu with }
  out _ _ hu _ := { hu with }
  phase _ _ hu := { hu with }

/-- An error stands: PHASE is ERROR and ERR_CODE names it (60_exceptions.md R224). -/
def State.InError (t : State) : Prop := t.phase = .error ∧ t.errCode ≠ .noError

theorem State.inError_takeError (u : State) (op : BitVec 8) {r : Raise} (hr : r.Named) :
    (u.takeError op r).InError := ⟨rfl, hr⟩

/-- A command keeps the error registers, or raises an error (in ERROR only as RUN), or clears them as INIT
or RUN (10_state.md R29). -/
theorem exec_errors {i : Instr} {s t : State} (h : exec i s = .next t) :
    s.SameErrors t ∨ (t.InError ∧ (s.phase ≠ .error ∨ i = .run)) ∨
    (s.initialise.SameErrors t ∧ (i = .init ∨ i = .run)) := by
  have hbody := (State.SameErrors.keptByWrites s).componentBody i
  have hrun := (State.SameErrors.keptByWrites s.initialise).runBody
  cases exec_next h with
  | nop | discarded => exact .inl (.refl _)
  | init hi => exact .inr (.inr ⟨.refl _, .inl hi⟩)
  | ran hi hok => exact .inr (.inr ⟨hrun.ok (.refl _) hok, .inr hi⟩)
  | runRaised hi hr =>
    obtain ⟨op, u, ⟨-, hn⟩, rfl⟩ := hrun.stop (.refl _) hr _ rfl
    exact .inr (.inl ⟨u.inError_takeError op hn, .inr hi⟩)
  | outOfPhase _ he _ => exact .inr (.inl ⟨s.inError_takeError _ (Raise.named_sequence _), .inl he⟩)
  | completed _ _ hok => exact .inl (hbody.ok (.refl s) hok)
  | raised _ he _ hr => exact .inr (.inl ⟨State.inError_takeError _ _ (hbody.stop (.refl s) hr).2, .inl he⟩)

/-- An illegal word is discarded in ERROR, and raises ILLEGAL_CMD elsewhere. -/
theorem illegalCommand_errors (s : State) (c : Word) :
    s.illegalCommand c = s ∨ ((s.illegalCommand c).InError ∧ s.phase ≠ .error) := by
  unfold State.illegalCommand
  split
  · exact .inl rfl
  · rename_i he
    exact .inr ⟨s.inError_takeError _ nofun, he⟩

/-- A host access writes no error register. -/
theorem hostAccess_errors {s t : State} {a : Access} (h : s.hostAccess a = .next t) : s.SameErrors t := by
  obtain ⟨-, -, -, rfl⟩ := hostAccess_next h
  split
  · rcases hostWrite_cases s (a.addr - s.base) a.data with ⟨-, h⟩ | h | ⟨-, h | ⟨k, h⟩ | ⟨w, h⟩⟩ <;> rw [h] <;>
      exact ⟨rfl, rfl, rfl⟩
  · rcases hostRead_cases s (a.addr - s.base) with h | h <;> rw [h] <;> exact ⟨rfl, rfl, rfl⟩

/-- Settles O45, by what a step can be: in the block's turn the latched command keeps, raises or clears. -/
theorem errorRegistersKept : Obligations.ErrorRegistersKept := by
  intro s t h
  rcases step_next h with ⟨rest, a, ha⟩ | ⟨rest, hturn, hb⟩ | ⟨hreset, rest, level, rfl⟩ | ⟨rest, rfl⟩
  · have hu := hostAccess_errors ha
    exact .inl ⟨hu.errCode, hu.errOp, hu.errInfo⟩
  · rcases blockTurn_next hb with rfl | ⟨c, i, u, hr, hc, hi, hu, rfl⟩ | ⟨c, why, hr, hc, hw, rfl⟩
    · exact .inl ⟨rfl, rfl, rfl⟩
    · have hword : s.pending = some (encodeWord i) := eq_encodeWord_of_decode hi ▸ hc
      rcases exec_errors hu with hu | ⟨⟨hp, hn⟩, hi⟩ | ⟨hu, hi⟩
      · exact .inl ⟨hu.errCode, hu.errOp, hu.errInfo⟩
      · exact .inr (.inl ⟨⟨rest, hturn⟩, hr, Option.isSome_of_eq_some hc, hp, hn,
          hi.imp id (by rintro rfl; exact hword)⟩)
      · exact .inr (.inr ⟨hu.errCode, hu.errOp, hu.errInfo, .inr ⟨⟨rest, hturn⟩, hr,
          hi.imp (by rintro rfl; exact hword) (by rintro rfl; exact hword)⟩⟩)
    · rcases illegalCommand_errors { s with events := rest } c with h | ⟨⟨hp, hn⟩, he⟩
      · rw [h]
        exact .inl ⟨rfl, rfl, rfl⟩
      · exact .inr (.inl ⟨⟨rest, hturn⟩, hr, Option.isSome_of_eq_some hc, hp, hn, .inl he⟩)
  · exact .inr (.inr ⟨rfl, rfl, rfl, .inl hreset⟩)
  · exact .inl ⟨rfl, rfl, rfl⟩

end Sys2Proof.Machine

/-!
The heap, run: what each primitive does to a heap whose occupied slots have keys. Keys are compared as numbers, and
the order is the weak one; distinct keys make it strict afterwards.
-/

namespace Sys2Proof.Machine

/-! ### Running pieces in a row -/

theorem act_bind_run {ε σ α β : Type} {x : EStateM ε σ α} {f : α → EStateM ε σ β} {s u : σ} {a : α}
    (h : x s = .ok a u) : (x >>= f) s = f a u := by
  change EStateM.bind x f s = _
  rw [EStateM.bind, h]

theorem ofRead_run {σ α : Type} {x : Except Stop α} {s : σ} {a : α} (h : x = .ok a) :
    (ofRead x : Act σ α) s = .ok a s := ofRead_ok.2 ⟨h, rfl⟩

/-! ### Slots by index -/

/-- A slot of the array, by its index. -/
theorem Heap.slot_eq {h : Heap} {j : Nat} (hj : j < 95) : h.slots[j]? = some (h.nodeAt j) := by
  have hl : j < h.slots.toList.length := by simpa using hj
  rw [Heap.nodeAt, List.getD_eq_getElem _ _ hl, Vector.getElem?_eq_getElem hj, Vector.getElem_toList]

theorem Heap.nodeAt_eq_of_slot {h : Heap} {j : Nat} {n : Node} (hn : h.slots[j]? = some n) : h.nodeAt j = n := by
  have hj := (Vector.getElem?_eq_some_iff.1 hn).1
  exact Option.some.inj ((Heap.slot_eq hj).symm.trans hn)

theorem Heap.nodeAt_of_le {h : Heap} {j : Nat} (hj : 95 ≤ j) : h.nodeAt j = unusedNode := by
  rw [Heap.nodeAt, List.getD_eq_default]
  simpa using hj

/-- HEAP with one slot replaced (41_heap.md R122 to R127 write single slots). -/
def Heap.put (h : Heap) (j : Nat) (n : Node) : Heap := { h with slots := h.slots.setIfInBounds j n }

@[simp] theorem Heap.put_size (h : Heap) (j : Nat) (n : Node) : (h.put j n).size = h.size := rfl

theorem Heap.put_nodeAt {h : Heap} {j k : Nat} {n : Node} (hj : j < 95) :
    (h.put j n).nodeAt k = if j = k then n else h.nodeAt k := by
  obtain hk | hk := Nat.lt_or_ge k 95
  · refine Heap.nodeAt_eq_of_slot ?_
    rw [Heap.put, Vector.getElem?_setIfInBounds, Heap.slot_eq hk]
    split <;> simp_all
  · rw [Heap.nodeAt_of_le hk, Heap.nodeAt_of_le hk, if_neg (by omega)]

/-- The occupied slots, by index. -/
theorem Heap.occupied_eq {h : Heap} (hs : h.size.toNat ≤ 95) :
    h.occupied = (List.range h.size.toNat).map h.nodeAt := by
  refine List.ext_getElem (by simpa [Heap.occupied] using hs) fun j hj hj' => ?_
  have hl : j < h.slots.toList.length := hj.trans_le (by simp [Heap.occupied])
  rw [List.getElem_map, List.getElem_range, Heap.nodeAt, List.getD_eq_getElem _ _ hl]
  exact List.getElem_take

theorem Heap.occupied_length {h : Heap} (hs : h.size.toNat ≤ 95) : h.occupied.length = h.size.toNat := by
  simp [Heap.occupied_eq hs]

theorem Heap.mem_occupied {h : Heap} {n : Node} (hs : h.size.toNat ≤ 95) :
    n ∈ h.occupied ↔ ∃ j < h.size.toNat, h.nodeAt j = n := by
  simp [Heap.occupied_eq hs]

/-- A heap write in range, run. -/
theorem heapWrite_run {h : Heap} {j : Nat} {n : Node} (hj : j < 95) : heapWrite j n h = .ok () (h.put j n) :=
  heapWrite_ok.2 ⟨hj, rfl⟩

theorem setHeapSize_run (n : Nat) (h : Heap) :
    setHeapSize n h = .ok () { h with size := BitVec.ofNat 7 n } := rfl

theorem Heap.read_run {h : Heap} {j : Nat} (hj : j < 95) : h.read j = .ok (h.nodeAt j) :=
  Heap.read_ok.2 (Heap.slot_eq hj)

/-! ### Keys as numbers -/

/-- The key of a node as one number: the weight, then the lsb (41_heap.md R120). -/
def Node.rank (n : Node) : Nat := n.weight.toNat * 95 + (lsb n.symbolSet).getD 0

/-- A node with a nonempty set has a key, whose number is its rank. -/
theorem keyOf_eq {n : Node} (hn : n.symbolSet ≠ 0#95) :
    ∃ i < 95, lsb n.symbolSet = some i ∧ keyOf n = some { weight := n.weight, low := i } ∧
      n.rank = n.weight.toNat * 95 + i := by
  obtain ⟨i, hi⟩ := Option.ne_none_iff_exists'.1 (mt lsb_eq_none.1 hn)
  exact ⟨i, (lsb_eq_some.1 hi).1, hi, by simp [keyOf, hi], by simp [Node.rank, hi]⟩

/-- The order of keys is the order of their numbers. -/
theorem Key.less_iff {a b : Key} (ha : a.low < 95) (hb : b.low < 95) :
    a.less b = true ↔ a.weight.toNat * 95 + a.low < b.weight.toNat * 95 + b.low := by
  simp only [Key.less, Bool.or_eq_true, decide_eq_true_eq, Bool.and_eq_true, beq_iff_eq, BitVec.lt_def,
    ← BitVec.toNat_inj]
  omega

theorem keyBelow_iff {a b : Node} (ha : a.symbolSet ≠ 0#95) (hb : b.symbolSet ≠ 0#95) :
    keyBelow a b = true ↔ a.rank < b.rank := by
  obtain ⟨i, hi, -, hka, hra⟩ := keyOf_eq ha
  obtain ⟨j, hj, -, hkb, hrb⟩ := keyOf_eq hb
  simp only [keyBelow, hka, hkb, hra, hrb]
  exact Key.less_iff hi hj

theorem keyOf_eq_iff {a b : Node} (ha : a.symbolSet ≠ 0#95) (hb : b.symbolSet ≠ 0#95) :
    keyOf a = keyOf b ↔ a.rank = b.rank := by
  obtain ⟨i, hi, -, hka, hra⟩ := keyOf_eq ha
  obtain ⟨j, hj, -, hkb, hrb⟩ := keyOf_eq hb
  simp only [hka, hkb, hra, hrb, Option.some.injEq, Key.mk.injEq, ← BitVec.toNat_inj]
  omega

/-! ### Sifting -/

/-- The occupied slots have keys: HEAP_SIZE fits and no set is empty (41_heap.md R130, R133). -/
structure Heap.Keyed (h : Heap) : Prop where
  fits : h.size.toNat ≤ 95
  nonempty : ∀ j < h.size.toNat, (h.nodeAt j).symbolSet ≠ 0#95

theorem Heap.keyLess_run {h : Heap} (hk : h.Keyed) {i j : Nat} (hi : i < h.size.toNat) (hj : j < h.size.toNat) :
    h.keyLess i j = .ok (decide ((h.nodeAt i).rank < (h.nodeAt j).rank)) := by
  obtain ⟨a, ha, -, hka, hra⟩ := keyOf_eq (hk.nonempty i hi)
  obtain ⟨b, hb, -, hkb, hrb⟩ := keyOf_eq (hk.nonempty j hj)
  have hf := hk.fits
  simp only [Heap.keyLess, Heap.keyAt, Heap.read_run (show i < 95 by omega), Heap.read_run (show j < 95 by omega),
    hka, hkb, bind, Except.bind, pure, Except.pure, hra, hrb, Except.ok.injEq]
  exact Bool.eq_iff_iff.2 ((Key.less_iff ha hb).trans (decide_eq_true_iff).symm)

/-- The line of SiftDown chooses the smaller of the two keys. -/
theorem Heap.smallerOf_run {h : Heap} (hk : h.Keyed) {m c : Nat} (hm : m < h.size.toNat) :
    h.smallerOf m c =
      .ok (if c < h.size.toNat ∧ (h.nodeAt c).rank < (h.nodeAt m).rank then c else m) := by
  unfold Heap.smallerOf
  split
  · rename_i hc
    simp only [Heap.keyLess_run hk hc hm, hc, true_and, bind, Except.bind, pure, Except.pure, decide_eq_true_eq]
  · rename_i hc
    simp only [hc, false_and, if_false, pure, Except.pure]

/-- The heap with two slots exchanged. -/
def Heap.swapped (h : Heap) (i j : Nat) : Heap := (h.put i (h.nodeAt j)).put j (h.nodeAt i)

theorem Heap.swapped_nodeAt {h : Heap} {i j k : Nat} (hi : i < 95) (hj : j < 95) :
    (h.swapped i j).nodeAt k = if k = i then h.nodeAt j else if k = j then h.nodeAt i else h.nodeAt k := by
  rw [Heap.swapped, Heap.put_nodeAt hj, Heap.put_nodeAt hi]
  by_cases h1 : j = k <;> by_cases h2 : i = k <;> simp [h1, h2, eq_comm]

theorem heapSwap_swapped {h : Heap} {i j : Nat} (hi : i < 95) (hj : j < 95) :
    heapSwap i j h = .ok () (h.swapped i j) := heapSwap_run (Heap.slot_eq hi) (Heap.slot_eq hj)

theorem Heap.swapped_rearranged {h : Heap} {i j : Nat} (hs : h.size.toNat ≤ 95) (hi : i < h.size.toNat)
    (hj : j < h.size.toNat) : h.Rearranged (h.swapped i j) :=
  Machine.swapped_rearranged (Heap.slot_eq (by omega)) (Heap.slot_eq (by omega)) hi hj

/-- A rearrangement permutes the occupied slots. -/
theorem Heap.Rearranged.occupied_perm {h h' : Heap} (hr : h.Rearranged h') : h'.occupied.Perm h.occupied := by
  have hrest : h'.slots.toList.drop h.size.toNat = h.slots.toList.drop h.size.toNat := by
    refine List.ext_getElem? fun j => ?_
    simpa [List.getElem?_drop] using hr.rest (h.size.toNat + j) (by omega)
  have hp := hr.perm
  rw [← List.take_append_drop h.size.toNat h'.slots.toList, ← List.take_append_drop h.size.toNat h.slots.toList,
    hrest, List.perm_append_right_iff] at hp
  rwa [Heap.occupied, hr.size]

theorem Heap.Rearranged.keyed {h h' : Heap} (hr : h.Rearranged h') (hk : h.Keyed) : h'.Keyed := by
  have hf : h'.size.toNat ≤ 95 := hr.size ▸ hk.fits
  refine ⟨hf, fun j hj => ?_⟩
  have hmem := hr.occupied_perm.subset ((Heap.mem_occupied hf).2 ⟨j, hj, rfl⟩)
  obtain ⟨i, hi, he⟩ := (Heap.mem_occupied hk.fits).1 hmem
  exact he ▸ hk.nonempty i hi

/-- The keys do not fall from parent to child, where the parent's slot is `k` or later. -/
def Heap.OrderedFrom (h : Heap) (k : Nat) : Prop :=
  ∀ c < h.size.toNat, 0 < c → k ≤ (c - 1) / 2 → (h.nodeAt ((c - 1) / 2)).rank ≤ (h.nodeAt c).rank

/-- In order from slot `k` on but for the node at `i`, which may be too large for its place: its children
are still in order with its parent. -/
structure Heap.SinkingAt (h : Heap) (k i : Nat) : Prop where
  others : ∀ c < h.size.toNat, 0 < c → k ≤ (c - 1) / 2 → (c - 1) / 2 ≠ i →
    (h.nodeAt ((c - 1) / 2)).rank ≤ (h.nodeAt c).rank
  across : ∀ c < h.size.toNat, 0 < i → (c - 1) / 2 = i → k ≤ (i - 1) / 2 →
    (h.nodeAt ((i - 1) / 2)).rank ≤ (h.nodeAt c).rank

/-- One pass of SiftDown at `i` finds the least `m` of the node and its children: it ends when that is the
node, else it exchanges the two and goes on at `m` (41_heap.md R122). -/
theorem siftDown_pass {h : Heap} (hk : h.Keyed) {i : Nat} (hi : i < h.size.toNat) :
    ∃ m, (∀ c < h.size.toNat, 0 < c → (c - 1) / 2 = i → (h.nodeAt m).rank ≤ (h.nodeAt c).rank) ∧
      ((m = i ∧ ∀ fuel, siftDown (fuel + 1) i h = .ok () h) ∨
       ((m - 1) / 2 = i ∧ i < m ∧ m < h.size.toNat ∧ (h.nodeAt m).rank < (h.nodeAt i).rank ∧
        ∀ fuel, siftDown (fuel + 1) i h = siftDown fuel m (h.swapped i m))) := by
  have hfit := hk.fits
  obtain ⟨c, hc⟩ : ∃ c, c =
    if 2 * i + 1 < h.size.toNat ∧ (h.nodeAt (2 * i + 1)).rank < (h.nodeAt i).rank then 2 * i + 1 else i := ⟨_, rfl⟩
  obtain ⟨m, hm⟩ : ∃ m, m =
    if 2 * i + 2 < h.size.toNat ∧ (h.nodeAt (2 * i + 2)).rank < (h.nodeAt c).rank then 2 * i + 2 else c := ⟨_, rfl⟩
  have hcs : c < h.size.toNat := by rw [hc]; split <;> omega
  have hrun (fuel : Nat) : siftDown (fuel + 1) i h = (if m = i then pure () else do
      heapSwap i m
      siftDown fuel m) h := by
    rw [siftDown, act_bind_run (act_get h), act_bind_run (ofRead_run (hc ▸ h.smallerOf_run hk hi)),
      act_bind_run (ofRead_run (hm ▸ h.smallerOf_run hk hcs))]
  refine ⟨m, fun d hd hd0 hdi => ?_, ?_⟩
  · obtain rfl | rfl : d = 2 * i + 1 ∨ d = 2 * i + 2 := by omega
    · rw [hm, hc]; split_ifs <;> omega
    · rw [hm]; split_ifs <;> omega
  · by_cases hmi : m = i
    · exact .inl ⟨hmi, fun fuel => by rw [hrun, if_pos hmi]; rfl⟩
    · have hcase : c = i ∨ (c = 2 * i + 1 ∧ (h.nodeAt c).rank < (h.nodeAt i).rank) := by
        rw [hc]; split_ifs with hlt
        · exact .inr ⟨rfl, hlt.2⟩
        · exact .inl rfl
      have hmcase : m = c ∨ (m = 2 * i + 2 ∧ m < h.size.toNat ∧ (h.nodeAt m).rank < (h.nodeAt c).rank) := by
        rw [hm]; split_ifs with hlt
        · exact .inr ⟨rfl, hlt⟩
        · exact .inl rfl
      obtain ⟨hpar, him, hms, hlt⟩ : (m - 1) / 2 = i ∧ i < m ∧ m < h.size.toNat ∧
          (h.nodeAt m).rank < (h.nodeAt i).rank := by
        rcases hcase with hci | ⟨hci, hltc⟩ <;> rcases hmcase with hmc | ⟨hmc, hms, hltm⟩
        · exact absurd (hmc.trans hci) hmi
        · exact ⟨by omega, by omega, hms, hci ▸ hltm⟩
        · exact ⟨by omega, by omega, hmc ▸ hcs, hmc ▸ hltc⟩
        · exact ⟨by omega, by omega, hms, hltm.trans hltc⟩
      refine .inr ⟨hpar, him, hms, hlt, fun fuel => ?_⟩
      rw [hrun, if_neg hmi, act_bind_run (heapSwap_swapped (by omega) (by omega))]

/-- SiftDown of a node too large for its place ends normally, and puts the heap in order. -/
theorem siftDown_run {fuel k i : Nat} {h : Heap} (hk : h.Keyed) (hf : h.size.toNat ≤ fuel + i) (hki : k ≤ i)
    (hi : i < h.size.toNat) (hs : h.SinkingAt k i) :
    ∃ h', siftDown fuel i h = .ok () h' ∧ h.Rearranged h' ∧ h'.OrderedFrom k := by
  induction fuel generalizing i h with
  | zero => omega
  | succ fuel ih =>
    have hfit := hk.fits
    obtain ⟨m, hleast, ⟨rfl, hrun⟩ | ⟨hpar, him, hms, hlt, hrun⟩⟩ := siftDown_pass hk hi
    · refine ⟨h, hrun fuel, .refl h, fun c hc h0 hkc => ?_⟩
      by_cases hci : (c - 1) / 2 = m
      · exact hci ▸ hleast c hc h0 hci
      · exact hs.others c hc h0 hkc hci
    · have hr := h.swapped_rearranged hfit hi hms
      have hnode {j : Nat} := h.swapped_nodeAt (i := i) (j := m) (k := j) (by omega) (by omega)
      have hsize : (h.swapped i m).size.toNat = h.size.toNat := congrArg _ hr.size
      have hsink : (h.swapped i m).SinkingAt k m := by
        refine ⟨fun c hc h0 hkc hcm => ?_, fun c hc h0 hcm hkm => ?_⟩ <;> rw [hsize] at hc
        · by_cases hc1 : c = m
          · rw [hnode, hnode, hc1, if_pos hpar, if_neg (by omega), if_pos rfl]
            exact hlt.le
          by_cases hci : (c - 1) / 2 = i
          · rw [hnode, hnode, if_pos hci, if_neg (by omega), if_neg hc1]
            exact hleast c hc h0 hci
          rw [hnode, hnode, if_neg hci, if_neg hcm]
          by_cases hc2 : c = i
          · rw [if_pos hc2, hc2]
            exact hs.across m hms (hc2 ▸ h0) hpar (hc2 ▸ hkc)
          · rw [if_neg hc2, if_neg hc1]
            exact hs.others c hc h0 hkc hci
        · rw [hnode, hnode, hpar, if_pos rfl, if_neg (by omega), if_neg (by omega), ← hcm]
          exact hs.others c hc (by omega) (by omega) (by omega)
      obtain ⟨h', hh', hr', ho⟩ := ih (hr.keyed hk) (by omega) (by omega) (by omega) hsink
      exact ⟨h', (hrun fuel).trans hh', hr.trans hr', ho⟩


/-! ### SiftUp -/

/-- In order but for the node at `i`, which may be too small for its place: its children are still in order
with its parent. -/
structure Heap.RisingAt (h : Heap) (i : Nat) : Prop where
  others : ∀ c < h.size.toNat, 0 < c → c ≠ i → (h.nodeAt ((c - 1) / 2)).rank ≤ (h.nodeAt c).rank
  across : ∀ c < h.size.toNat, 0 < i → 0 < c → (c - 1) / 2 = i →
    (h.nodeAt ((i - 1) / 2)).rank ≤ (h.nodeAt c).rank

/-- One pass of SiftUp at `i`, below the root (41_heap.md R123). -/
theorem siftUp_pass {h : Heap} (hk : h.Keyed) {i : Nat} (h0 : 0 < i) (hi : i < h.size.toNat) (fuel : Nat) :
    siftUp (fuel + 1) i h =
      if (h.nodeAt i).rank < (h.nodeAt ((i - 1) / 2)).rank then
        siftUp fuel ((i - 1) / 2) (h.swapped i ((i - 1) / 2))
      else .ok () h := by
  have hfit := hk.fits
  rw [siftUp, if_pos h0, act_bind_run (act_get h), act_bind_run (ofRead_run (h.keyLess_run hk hi (by omega)))]
  by_cases hlt : (h.nodeAt i).rank < (h.nodeAt ((i - 1) / 2)).rank
  · rw [if_pos (decide_eq_true hlt), if_pos hlt, act_bind_run (heapSwap_swapped (by omega) (by omega))]
  · rw [if_neg (by simpa using hlt), if_neg hlt]
    rfl

/-- SiftUp of a node too small for its place ends normally, and puts the heap in order. -/
theorem siftUp_run {fuel i : Nat} {h : Heap} (hk : h.Keyed) (hf : i ≤ fuel) (hi : i < h.size.toNat)
    (hs : h.RisingAt i) : ∃ h', siftUp fuel i h = .ok () h' ∧ h.Rearranged h' ∧ h'.OrderedFrom 0 := by
  have hroot (g : Heap) (hg : g.RisingAt 0) : g.OrderedFrom 0 := fun c hc h0 _ => hg.others c hc h0 (by omega)
  induction fuel generalizing i h with
  | zero =>
    obtain rfl : i = 0 := by omega
    exact ⟨h, rfl, .refl h, hroot h hs⟩
  | succ fuel ih =>
    have hfit := hk.fits
    obtain rfl | h0 := Nat.eq_zero_or_pos i
    · exact ⟨h, by rw [siftUp]; rfl, .refl h, hroot h hs⟩
    obtain ⟨p, hp⟩ : ∃ p, p = (i - 1) / 2 := ⟨_, rfl⟩
    rw [siftUp_pass hk h0 hi, ← hp]
    split
    · rename_i hlt
      have hr := h.swapped_rearranged hfit hi (show p < _ by omega)
      have hnode {j : Nat} := h.swapped_nodeAt (i := i) (j := p) (k := j) (by omega) (by omega)
      have hsize : (h.swapped i p).size.toNat = h.size.toNat := congrArg _ hr.size
      have hrise : (h.swapped i p).RisingAt p := by
        refine ⟨fun c hc hc0 hcp => ?_, fun c hc hp0 hc0 hcp => ?_⟩ <;> rw [hsize] at hc
        · by_cases hc1 : c = i
          · rw [hnode, hnode, hc1, ← hp, if_neg (by omega), if_pos rfl, if_pos rfl]
            exact hlt.le
          rw [hnode, hnode, if_neg hc1, if_neg hcp]
          have hc2 := hs.others c hc hc0 hc1
          by_cases hci : (c - 1) / 2 = i
          · rw [if_pos hci]
            exact hp ▸ hs.across c hc h0 hc0 hci
          by_cases hcp' : (c - 1) / 2 = p
          · rw [if_neg hci, if_pos hcp']
            exact hlt.le.trans (hcp' ▸ hc2)
          · rw [if_neg hci, if_neg hcp']
            exact hc2
        · have hup := hs.others p (by omega) hp0 (by omega)
          rw [hnode, hnode, if_neg (by omega), if_neg (by omega), if_neg (show c ≠ p by omega)]
          split
          · exact hup
          · rename_i hci
            exact hup.trans (hcp ▸ hs.others c hc hc0 hci)
      obtain ⟨h', hh', hr', ho⟩ := ih (hr.keyed hk) (by omega) (by rw [hsize]; omega) hrise
      exact ⟨h', hh', hr.trans hr', ho⟩
    · rename_i hlt
      refine ⟨h, rfl, .refl h, fun c hc hc0 _ => ?_⟩
      by_cases hc1 : c = i
      · rw [hc1, ← hp]
        omega
      · exact hs.others c hc hc0 hc1

/-! ### HeapPop -/

/-- The heap HeapPop sifts: the last node moved to the root, its slot unused, one node less (R126). -/
def Heap.vacated (h : Heap) : Heap :=
  { (h.put 0 (h.nodeAt (h.size.toNat - 1))).put (h.size.toNat - 1) unusedNode with
    size := BitVec.ofNat 7 (h.size.toNat - 1) }

theorem Heap.vacated_size (h : Heap) : h.vacated.size.toNat = h.size.toNat - 1 := by
  have := h.size.isLt
  simp only [Heap.vacated, BitVec.toNat_ofNat]
  omega

theorem Heap.vacated_nodeAt {h : Heap} {k : Nat} (hs : h.size.toNat ≤ 95) :
    h.vacated.nodeAt k = if h.size.toNat - 1 = k then unusedNode else
      if 0 = k then h.nodeAt (h.size.toNat - 1) else h.nodeAt k := by
  have h1 : h.vacated.nodeAt k = ((h.put 0 (h.nodeAt (h.size.toNat - 1))).put (h.size.toNat - 1) unusedNode).nodeAt k :=
    rfl
  rw [h1, Heap.put_nodeAt (by omega), Heap.put_nodeAt (by omega)]

/-- HeapPop is the removal of the root and SiftDown(0). -/
theorem heapPop_eq {h : Heap} (hs : h.size.toNat ≤ 95) :
    heapPop h = (do
      siftDown (h.size.toNat - 1) 0
      pure (h.nodeAt 0)) h.vacated := by
  rw [heapPop, act_bind_run (act_get h), act_bind_run (ofRead_run (Heap.read_run (by omega)))]
  obtain hl | hl := Nat.eq_zero_or_pos (h.size.toNat - 1)
  · simp only [hl, lt_irrefl, if_false]
    rw [act_bind_run (setHeapSize_run 0 h), act_bind_run (heapWrite_run (by omega)), Heap.vacated, hl]
    simp [Heap.put, siftDown]
  · simp only [hl, if_true]
    rw [act_bind_run (setHeapSize_run _ h), act_bind_run (ofRead_run (Heap.read_run (by omega))),
      act_bind_run (heapWrite_run (by omega)), act_bind_run (heapWrite_run (by omega))]
    rfl

/-- What HeapPop takes out is the root. -/
theorem Heap.vacated_perm {h : Heap} (hs : h.size.toNat ≤ 95) (h1 : 1 ≤ h.size.toNat) :
    h.occupied.Perm (h.nodeAt 0 :: h.vacated.occupied) := by
  rw [Heap.occupied_eq hs, Heap.occupied_eq (h.vacated_size ▸ by omega), h.vacated_size]
  obtain ⟨n, hn⟩ : ∃ n, h.size.toNat = n + 1 := ⟨_, (Nat.sub_add_cancel h1).symm⟩
  rw [hn, Nat.add_sub_cancel, List.range_succ_eq_map, List.map_cons, List.map_map]
  refine .cons _ ?_
  cases n with
  | zero => exact .refl _
  | succ n =>
    have hleft : (List.range (n + 1)).map h.vacated.nodeAt =
        h.nodeAt (n + 1) :: (List.range n).map (h.nodeAt ∘ Nat.succ) := by
      rw [List.range_succ_eq_map, List.map_cons, List.map_map, h.vacated_nodeAt hs, if_neg (by omega), if_pos rfl, hn,
        Nat.add_sub_cancel]
      congr 1
      refine List.map_congr_left fun j hj => ?_
      have := List.mem_range.1 hj
      rw [Function.comp, h.vacated_nodeAt hs, if_neg (by omega), if_neg (by omega)]
      rfl
    rw [hleft, List.range_succ, List.map_append]
    exact List.perm_append_singleton _ _

/-- HeapPop of a heap in order takes out the root and leaves a heap in order, the vacated slot unused. -/
theorem heapPop_run {h : Heap} (hk : h.Keyed) (ho : h.OrderedFrom 0) (h1 : 1 ≤ h.size.toNat) :
    ∃ h', heapPop h = .ok (h.nodeAt 0) h' ∧ h.vacated.Rearranged h' ∧ h'.OrderedFrom 0 := by
  have hfit := hk.fits
  have hsize := h.vacated_size
  have hkeyed : h.vacated.Keyed := by
    refine ⟨by omega, fun j hj => ?_⟩
    rw [Heap.vacated_nodeAt hfit]
    split_ifs
    · omega
    · exact hk.nonempty _ (by omega)
    · exact hk.nonempty _ (by omega)
  rw [heapPop_eq hfit]
  obtain hl | hl := Nat.eq_zero_or_pos (h.size.toNat - 1)
  · exact ⟨h.vacated, by rw [hl]; rfl, .refl _, fun c hc _ _ => by omega⟩
  · have hsink : h.vacated.SinkingAt 0 0 := by
      refine ⟨fun c hc h0 _ hp => ?_, fun c hc h0 => absurd h0 (by omega)⟩
      rw [Heap.vacated_nodeAt hfit, Heap.vacated_nodeAt hfit, if_neg (by omega), if_neg (by omega), if_neg (by omega),
        if_neg (by omega)]
      exact ho c (by omega) h0 (by omega)
    obtain ⟨h', hh', hr, ho'⟩ :=
      siftDown_run hkeyed (fuel := h.size.toNat - 1) (by omega) (le_refl 0) (by omega) hsink
    exact ⟨h', act_bind_run hh', hr, ho'⟩

/-! ### HeapInsert -/

/-- The heap with a node put at its end. -/
def Heap.pushed (h : Heap) (n : Node) : Heap :=
  { h.put h.size.toNat n with size := BitVec.ofNat 7 (h.size.toNat + 1) }

theorem Heap.pushed_size {h : Heap} (n : Node) (hs : h.size.toNat < 95) :
    (h.pushed n).size.toNat = h.size.toNat + 1 := by
  simp only [Heap.pushed, BitVec.toNat_ofNat]
  omega

theorem Heap.pushed_nodeAt {h : Heap} {n : Node} {k : Nat} (hs : h.size.toNat < 95) :
    (h.pushed n).nodeAt k = if h.size.toNat = k then n else h.nodeAt k := by
  have h1 : (h.pushed n).nodeAt k = (h.put h.size.toNat n).nodeAt k := rfl
  rw [h1, Heap.put_nodeAt hs]

theorem Heap.pushed_occupied {h : Heap} (n : Node) (hs : h.size.toNat < 95) :
    (h.pushed n).occupied = h.occupied ++ [n] := by
  have hsize := Heap.pushed_size n hs
  rw [Heap.occupied_eq (by omega), Heap.occupied_eq (by omega), hsize, List.range_succ, List.map_append,
    List.map_singleton, Heap.pushed_nodeAt hs, if_pos rfl]
  congr 1
  refine List.map_congr_left fun j hj => ?_
  rw [Heap.pushed_nodeAt hs, if_neg (List.mem_range.1 hj).ne']

theorem Heap.pushed_keyed {h : Heap} {n : Node} (hk : h.Keyed) (hs : h.size.toNat < 95) (hn : n.symbolSet ≠ 0#95) :
    (h.pushed n).Keyed := by
  have hsize := Heap.pushed_size n hs
  refine ⟨by omega, fun j hj => ?_⟩
  rw [Heap.pushed_nodeAt hs]
  split
  · exact hn
  · exact hk.nonempty j (by omega)

theorem heapPush_run {h : Heap} (n : Node) (hs : h.size.toNat < 95) : heapPush n h = .ok () (h.pushed n) := by
  rw [heapPush, act_bind_run (act_get h), act_bind_run (heapWrite_run hs)]
  rfl

/-- HeapInsert into a heap in order leaves a heap in order with the node besides the old ones. -/
theorem heapInsert_run {h : Heap} {n : Node} (hk : h.Keyed) (ho : h.OrderedFrom 0) (hs : h.size.toNat < 95)
    (hn : n.symbolSet ≠ 0#95) :
    ∃ h', heapInsert n h = .ok () h' ∧ (h.pushed n).Rearranged h' ∧ h'.OrderedFrom 0 := by
  have hsize := Heap.pushed_size n hs
  have hrise : (h.pushed n).RisingAt h.size.toNat := by
    refine ⟨fun c hc h0 hcs => ?_, fun c hc h0 h0' hcs => by omega⟩
    rw [Heap.pushed_nodeAt hs, Heap.pushed_nodeAt hs, if_neg (by omega), if_neg (by omega)]
    exact ho c (by omega) h0 (Nat.zero_le _)
  obtain ⟨h', hh', hr, ho'⟩ := siftUp_run (Heap.pushed_keyed hk hs hn) (le_refl _) (by omega) hrise
  refine ⟨h', ?_, hr, ho'⟩
  rw [heapInsert, act_bind_run (heapPush_run n hs), act_bind_run (act_get _), hsize]
  exact hh'

/-! ### BulkBuild -/

/-- BulkBuild's loop from slot `k` down puts in order a heap that is in order from slot `k` on (R124). -/
theorem bulkBuildFrom_run {k : Nat} {h : Heap} (hk : h.Keyed) (hks : k ≤ h.size.toNat) (ho : h.OrderedFrom k) :
    ∃ h', bulkBuildFrom k h = .ok () h' ∧ h.Rearranged h' ∧ h'.OrderedFrom 0 := by
  induction k generalizing h with
  | zero => exact ⟨h, rfl, .refl h, ho⟩
  | succ k ih =>
    have hsink : h.SinkingAt k k :=
      ⟨fun c hc h0 hkc hne => ho c hc h0 (by omega), fun c hc h0 _ hkc => absurd hkc (by omega)⟩
    obtain ⟨g, hg, hr, hog⟩ := siftDown_run hk (fuel := h.size.toNat) (by omega) (le_refl k) (by omega) hsink
    obtain ⟨h', hh', hr', ho'⟩ := ih (hr.keyed hk) (by rw [hr.size]; omega) hog
    refine ⟨h', ?_, hr.trans hr', ho'⟩
    rw [bulkBuildFrom, act_bind_run (act_get h), act_bind_run hg]
    exact hh'

/-- BulkBuild puts any heap with keys in order. -/
theorem bulkBuild_run {h : Heap} (hk : h.Keyed) :
    ∃ h', bulkBuild h = .ok () h' ∧ h.Rearranged h' ∧ h'.OrderedFrom 0 :=
  have ⟨h', hh', hr, ho⟩ := bulkBuildFrom_run (k := h.size.toNat / 2) hk (by omega) fun c hc h0 hkc => by omega
  ⟨h', (act_bind_run (act_get h)).trans hh', hr, ho⟩

end Sys2Proof.Machine

/-!
The forest: what the nodes of the heap and TREE are together while the tree is being built, in whatever order the
heap holds them.
-/

namespace Sys2Proof.Machine

/-! ### The order of a heap with distinct keys -/

theorem Heap.orderedFrom_of_ordered {h : Heap} (hk : h.Keyed) (ho : h.Ordered) : h.OrderedFrom 0 :=
  fun c hc h0 _ => ((keyBelow_iff (hk.nonempty _ (by omega)) (hk.nonempty c hc)).1 (ho c hc h0)).le

/-- With distinct keys the heap invariant is strict (41_heap.md R129). -/
theorem Heap.ordered_of_orderedFrom {h : Heap} (hk : h.Keyed)
    (hd : h.occupied.Pairwise fun a b => keyOf a ≠ keyOf b) (ho : h.OrderedFrom 0) : h.Ordered := by
  intro c hc h0
  have hp := hk.nonempty ((c - 1) / 2) (by omega)
  have hne : keyOf (h.nodeAt ((c - 1) / 2)) ≠ keyOf (h.nodeAt c) := by
    rw [Heap.occupied_eq hk.fits, List.pairwise_map, List.pairwise_iff_getElem] at hd
    have hpc := hd ((c - 1) / 2) c (by rw [List.length_range]; omega) (by rwa [List.length_range]) (by omega)
    rwa [List.getElem_range, List.getElem_range] at hpc
  rw [keyBelow_iff hp (hk.nonempty c hc)]
  exact lt_of_le_of_ne (ho c hc h0 (Nat.zero_le _)) (mt (keyOf_eq_iff hp (hk.nonempty c hc)).2 hne)

theorem Heap.keyed_iff {h : Heap} : h.Keyed ↔ h.size.toNat ≤ 95 ∧ ∀ n ∈ h.occupied, n.symbolSet ≠ 0#95 := by
  constructor
  · refine fun hk => ⟨hk.fits, fun n hn => ?_⟩
    obtain ⟨j, hj, rfl⟩ := (Heap.mem_occupied hk.fits).1 hn
    exact hk.nonempty j hj
  · exact fun ⟨hs, hn⟩ => ⟨hs, fun j hj => hn _ ((Heap.mem_occupied hs).2 ⟨j, hj, rfl⟩)⟩

/-! ### TREE with a node appended -/

/-- TREE after TreeAppend (42_tree.md R140). -/
def Tree.grown (t : Tree) (n : Node) : Tree :=
  { slots := t.slots.setIfInBounds t.size.toNat { n with insertedAt := t.size }, size := t.size + 1#8 }

theorem treeAppend_run {t : Tree} (n : Node) (ht : t.size.toNat < 189) :
    treeAppend n t = .ok { n with insertedAt := t.size } (t.grown n) := treeAppend_ok.2 ⟨ht, rfl, rfl⟩

theorem Tree.grown_size {t : Tree} (n : Node) (ht : t.size.toNat < 189) :
    (t.grown n).size.toNat = t.size.toNat + 1 := by
  simp only [Tree.grown, BitVec.toNat_add, BitVec.toNat_ofNat]
  omega

theorem Tree.slot_eq {t : Tree} {j : Nat} (hj : j < 189) : t.slots[j]? = some (t.nodeAt j) := by
  have hl : j < t.slots.toList.length := by simpa using hj
  rw [Tree.nodeAt, List.getD_eq_getElem _ _ hl, Vector.getElem?_eq_getElem hj, Vector.getElem_toList]

theorem Tree.nodeAt_eq_of_slot {t : Tree} {j : Nat} {n : Node} (hn : t.slots[j]? = some n) : t.nodeAt j = n := by
  have hj := (Vector.getElem?_eq_some_iff.1 hn).1
  exact Option.some.inj ((Tree.slot_eq hj).symm.trans hn)

theorem Tree.nodeAt_of_le {t : Tree} {j : Nat} (hj : 189 ≤ j) : t.nodeAt j = unusedNode := by
  rw [Tree.nodeAt, List.getD_eq_default]
  simpa using hj

theorem Tree.grown_nodeAt {t : Tree} {n : Node} {k : Nat} (ht : t.size.toNat < 189) :
    (t.grown n).nodeAt k = if t.size.toNat = k then { n with insertedAt := t.size } else t.nodeAt k := by
  obtain hk | hk := Nat.lt_or_ge k 189
  · refine Tree.nodeAt_eq_of_slot ?_
    rw [Tree.grown, Vector.getElem?_setIfInBounds, Tree.slot_eq hk]
    split <;> simp_all
  · rw [Tree.nodeAt_of_le hk, Tree.nodeAt_of_le hk, if_neg (by omega)]

theorem Tree.grown_nodeAt_new {t : Tree} {n : Node} (ht : t.size.toNat < 189) :
    (t.grown n).nodeAt t.size.toNat = { n with insertedAt := t.size } := by rw [Tree.grown_nodeAt ht, if_pos rfl]

theorem Tree.grown_nodeAt_old {t : Tree} {n : Node} {k : Nat} (ht : t.size.toNat < 189) (hk : k < t.size.toNat) :
    (t.grown n).nodeAt k = t.nodeAt k := by rw [Tree.grown_nodeAt ht, if_neg hk.ne']

/-- The index a node is appended at is not NONE. -/
theorem Tree.size_ne_none {t : Tree} (ht : t.size.toNat < 189) : t.size ≠ Config.none := fun h => by
  rw [h] at ht
  exact absurd ht (by decide)

/-- The laws of TREE's slots (42_tree.md R151, R152); State.TreeSound says them of a state. -/
abbrev Tree.Sound (t : Tree) (hist : Hist) : Prop := t.RestUnused ∧ ∀ j < t.size.toNat, t.NodeSound hist j

/-- A node's law speaks of the slots up to its own. -/
theorem Tree.NodeSound.congr {t t' : Tree} {hist : Hist} {j : Nat} (hn : t.NodeSound hist j)
    (h : ∀ k ≤ j, t'.nodeAt k = t.nodeAt k) : t'.NodeSound hist j := by
  obtain ⟨hat, hset, hleaf | ⟨hl, hr, hlaw⟩⟩ := hn <;> unfold Tree.NodeSound <;> rw [h j le_rfl]
  · exact ⟨hat, hset, .inl hleaf⟩
  · rw [h _ hl.le, h _ hr.le]
    exact ⟨hat, hset, .inr ⟨hl, hr, hlaw⟩⟩

theorem Tree.Sound.grown {t : Tree} {hist : Hist} {n : Node} (hs : t.Sound hist) (ht : t.size.toNat < 189)
    (hn : (t.grown n).NodeSound hist t.size.toNat) : (t.grown n).Sound hist := by
  obtain ⟨hrest, hnodes⟩ := hs
  refine ⟨fun j hj hsj => ?_, fun j hj => ?_⟩ <;> rw [Tree.grown_size n ht] at *
  · rw [Tree.grown_nodeAt ht, if_neg (by omega)]
    exact hrest j hj (by omega)
  · obtain rfl | hlt : j = t.size.toNat ∨ j < t.size.toNat := by omega
    · exact hn
    · exact (hnodes j hlt).congr fun k hk => Tree.grown_nodeAt_old ht (by omega)

/-! ### The forest of trees under way -/

/-- A node of the heap, as the invariant has it (State.NodeHeld): a counted symbol's leaf not yet in TREE, or
the node TREE holds at its index. -/
abbrev Tree.Holds (t : Tree) (hist : Hist) (n : Node) : Prop :=
  n.symbolSet ≠ 0#95 ∧ n.weight ≠ 0#32 ∧
  ((∃ i : Fin Config.domainSize, hist[i] ≠ 0#32 ∧ n = leafNode hist i) ∨
   (n.insertedAt.toNat < t.size.toNat ∧ t.nodeAt n.insertedAt.toNat = n))

theorem Tree.Holds.grown {t : Tree} {hist : Hist} {n : Node} (m : Node) (hn : t.Holds hist n)
    (ht : t.size.toNat < 189) : (t.grown m).Holds hist n := by
  obtain ⟨hset, hw, hleaf | ⟨hlt, hat⟩⟩ := hn
  · exact ⟨hset, hw, .inl hleaf⟩
  · exact ⟨hset, hw, .inr ⟨by rw [Tree.grown_size m ht]; omega, (Tree.grown_nodeAt_old ht hlt).trans hat⟩⟩

/-- The nodes `ns` are the roots of the trees under way that HEAPIFY and merging make of a histogram, with `t`
as TREE (41_heap.md R132, R133; 42_tree.md R150 to R152). Merging works on the roots in any order, so this is
kept by every step, whatever the arrangement of the heap. -/
structure Forest (hist : Hist) (total : Nat) (ns : List Node) (t : Tree) : Prop where
  held : ∀ n ∈ ns, t.Holds hist n
  disjoint : ns.Pairwise fun a b => a.symbolSet &&& b.symbolSet = 0#95
  covers : ∀ i : Fin Config.domainSize, hist[i] ≠ 0#32 ↔ ∃ n ∈ ns, memSet i n.symbolSet = true
  weights : (ns.map fun n => n.weight.toNat).sum = total
  tree : t.Sound hist
  count : t.size.toNat + (ns.countP fun n => n.insertedAt == Config.none) + ns.length = 2 * distinctOf hist

theorem distinctOf_le (hist : Hist) : distinctOf hist ≤ 95 := by
  simpa [distinctOf] using List.countP_le_length (p := fun v : Word => v != 0#32) (l := hist.toList)

namespace Forest

variable {hist : Hist} {total : Nat} {a b n : Node} {ns ms rest : List Node} {t : Tree}

theorem perm (hf : Forest hist total ns t) (hp : ns.Perm ms) : Forest hist total ms t where
  held n hn := hf.held n (hp.symm.subset hn)
  disjoint := (hp.pairwise_iff fun h => by rwa [BitVec.and_comm]).1 hf.disjoint
  covers i := (hf.covers i).trans (exists_congr fun n => and_congr_left fun _ => hp.mem_iff)
  weights := (hp.map _).sum_eq.symm.trans hf.weights
  tree := hf.tree
  count := by rw [← hp.countP_eq, ← hp.length_eq]; exact hf.count

theorem tree_size_lt (hf : Forest hist total ns t) (hn : ns ≠ []) : t.size.toNat < 190 := by
  have := hf.count
  have := distinctOf_le hist
  have := List.length_pos_iff.2 hn
  omega

/-- A root already in TREE stands there at its index. -/
theorem in_tree (hf : Forest hist total ns t) (hn : n ∈ ns) (hold : n.insertedAt ≠ Config.none) :
    n.insertedAt.toNat < t.size.toNat ∧ t.nodeAt n.insertedAt.toNat = n := by
  obtain ⟨-, -, ⟨i, -, rfl⟩ | h⟩ := hf.held n hn
  · exact absurd rfl hold
  · exact h

/-- A root not yet in TREE is a counted symbol's leaf. -/
theorem is_leaf (hf : Forest hist total ns t) (hn : n ∈ ns) (hnew : n.insertedAt = Config.none) :
    ∃ i : Fin Config.domainSize, hist[i] ≠ 0#32 ∧ n = leafNode hist i := by
  obtain ⟨-, -, h | ⟨hlt, -⟩⟩ := hf.held n hn
  · exact h
  · have := hf.tree_size_lt (List.ne_nil_of_mem hn)
    rw [hnew] at hlt
    exact absurd hlt (by show ¬ 255 < _; omega)

/-- Disjoint nonempty sets have different keys (41_heap.md R133). -/
theorem keys_distinct (hf : Forest hist total ns t) : ns.Pairwise fun a b => keyOf a ≠ keyOf b := by
  refine hf.disjoint.imp_of_mem fun {a b} ha hb hab hkey => ?_
  obtain ⟨i, -, hia, hka, -⟩ := keyOf_eq (hf.held a ha).1
  obtain ⟨j, -, hjb, hkb, -⟩ := keyOf_eq (hf.held b hb).1
  obtain rfl : i = j := by simpa using congrArg (Option.map Key.low) (hka.symm.trans (hkey.trans hkb))
  have hbit := congrArg (BitVec.getLsbD · i) hab
  simp [(lsb_eq_some.1 hia).2.1, (lsb_eq_some.1 hjb).2.1] at hbit

/-- TreeAppend of a root that is new: it stands in TREE, and the roots are the same. -/
theorem append (hf : Forest hist total (n :: rest) t) (hnew : n.insertedAt = Config.none) :
    t.size.toNat < 189 ∧ Forest hist total ({ n with insertedAt := t.size } :: rest) (t.grown n) := by
  have hcount := hf.count
  rw [List.countP_cons_of_pos (by simpa using hnew), List.length_cons] at hcount
  have hd := distinctOf_le hist
  have ht : t.size.toNat < 189 := by omega
  have hnone := Tree.size_ne_none ht
  obtain ⟨i, hi, hleaf⟩ := hf.is_leaf List.mem_cons_self hnew
  obtain ⟨hset, hw, -⟩ := hf.held n List.mem_cons_self
  have hnew' := Tree.grown_nodeAt_new (n := n) ht
  refine ⟨ht, ?_, List.pairwise_cons.2 (List.pairwise_cons.1 hf.disjoint),
    by simpa only [List.mem_cons, exists_eq_or_imp] using hf.covers, hf.weights, hf.tree.grown ht ?_, ?_⟩
  · rintro m (_ | ⟨_, hm⟩)
    · exact ⟨hset, hw, .inr ⟨by rw [Tree.grown_size n ht]; exact Nat.lt_succ_self _, hnew'⟩⟩
    · exact (hf.held m (List.mem_cons_of_mem _ hm)).grown n ht
  · unfold Tree.NodeSound
    rw [hnew']
    exact ⟨rfl, hset, .inl ⟨i, hi, hleaf ▸ rfl⟩⟩
  · rw [List.countP_cons_of_neg (by simpa using hnone), Tree.grown_size n ht, List.length_cons]
    omega

/-- Merging two roots of TREE into one: its children are their copies in TREE (42_tree.md R142, R151). -/
theorem join (hf : Forest hist total (a :: b :: rest) t) (htotal : total < 2 ^ 32)
    (ha : a.insertedAt ≠ Config.none) (hb : b.insertedAt ≠ Config.none) :
    t.size.toNat < 189 ∧
      Forest hist total ({ mergeNode a b with insertedAt := t.size } :: rest) (t.grown (mergeNode a b)) := by
  have hcount := hf.count
  rw [List.countP_cons_of_neg (by simpa using ha), List.countP_cons_of_neg (by simpa using hb), List.length_cons,
    List.length_cons] at hcount
  have hd := distinctOf_le hist
  have ht : t.size.toNat < 189 := by omega
  have hnone := Tree.size_ne_none ht
  have hnode := Tree.grown_nodeAt_new (n := mergeNode a b) ht
  obtain ⟨hdis, hdis'⟩ := List.pairwise_cons.1 hf.disjoint
  obtain ⟨hdis'', hrest⟩ := List.pairwise_cons.1 hdis'
  have hab : a.symbolSet &&& b.symbolSet = 0#95 := hdis b List.mem_cons_self
  have haset := (hf.held a List.mem_cons_self).1
  have hset : (mergeNode a b).symbolSet ≠ 0#95 := fun h => haset (BitVec.or_eq_zero_iff.1 h).1
  have hsum := hf.weights
  simp only [List.map_cons, List.sum_cons] at hsum
  have hweight : (mergeNode a b).weight.toNat = a.weight.toNat + b.weight.toNat := by
    rw [mergeNode, BitVec.toNat_add]
    omega
  have hw : (mergeNode a b).weight ≠ 0#32 := fun h => (hf.held a List.mem_cons_self).2.1 <| BitVec.eq_of_toNat_eq (by
    have := congrArg BitVec.toNat h
    rw [hweight] at this
    simp at this ⊢
    omega)
  refine ⟨ht, ?_, List.pairwise_cons.2 ⟨fun c hc => ?_, hrest⟩, fun i => ?_, ?_, hf.tree.grown ht ?_, ?_⟩
  · rintro m (_ | ⟨_, hm⟩)
    · exact ⟨hset, hw, .inr ⟨by rw [Tree.grown_size _ ht]; exact Nat.lt_succ_self _, hnode⟩⟩
    · exact (hf.held m (List.mem_cons_of_mem _ (List.mem_cons_of_mem _ hm))).grown _ ht
  · have hac := hdis c (List.mem_cons_of_mem _ hc)
    have hbc := hdis'' c hc
    exact BitVec.and_or_distrib_right.trans (by rw [hac, hbc, BitVec.or_zero])
  · rw [hf.covers i]
    simp only [List.mem_cons, exists_eq_or_imp, mergeNode, memSet, BitVec.getLsbD_or, Bool.or_eq_true, or_assoc]
  · rw [List.map_cons, List.sum_cons]
    show (mergeNode a b).weight.toNat + _ = _
    omega
  · obtain ⟨hat, hta⟩ := hf.in_tree List.mem_cons_self ha
    obtain ⟨hbt, htb⟩ := hf.in_tree (List.mem_cons_of_mem _ List.mem_cons_self) hb
    unfold Tree.NodeSound
    rw [hnode]
    refine ⟨rfl, hset, .inr ⟨hat, hbt, fun hlr => haset ?_, ?_⟩⟩
    · have hlr : a.insertedAt = b.insertedAt := hlr
      rw [← hta, hlr, htb] at hab ⊢
      rwa [BitVec.and_self] at hab
    · rw [show (mergeNode a b).left = a.insertedAt from rfl, show (mergeNode a b).right = b.insertedAt from rfl,
        Tree.grown_nodeAt_old ht hat, Tree.grown_nodeAt_old ht hbt, hta, htb]
      exact ⟨rfl, hab, hweight⟩
  · rw [List.countP_cons_of_neg (by simpa using hnone), Tree.grown_size _ ht, List.length_cons]
    omega

end Forest

end Sys2Proof.Machine

/-!
MERGE and BUILD, run on a sound heap and tree: they end normally, and what they leave is sound.
-/

namespace Sys2Proof.Machine

/-! ### MERGE -/

/-- A state in the middle of merging: a heap in order, its nodes the roots of the forest. Unlike
State.HeapedSound it lets one merged node be left, before Finalize. -/
structure State.Merging (s : State) : Prop where
  total : s.inputLen ≤ 65536
  fits : s.heap.size.toNat ≤ 95
  rest : s.heap.RestUnused
  ordered : s.heap.Ordered
  forest : Forest s.hist s.inputLen s.heap.occupied s.tree

/-- Slots from HEAP_SIZE on keep their nodes under a rearrangement. -/
theorem Heap.Rearranged.nodeAt_eq {h h' : Heap} (hr : h.Rearranged h') {j : Nat} (hj : h.size.toNat ≤ j) :
    h'.nodeAt j = h.nodeAt j := by
  obtain hlt | hge := Nat.lt_or_ge j 95
  · exact Heap.nodeAt_eq_of_slot ((hr.rest j hj).trans (Heap.slot_eq hlt))
  · rw [Heap.nodeAt_of_le hge, Heap.nodeAt_of_le hge]

theorem Heap.Rearranged.restUnused {h h' : Heap} (hr : h.Rearranged h') (hu : h.RestUnused) : h'.RestUnused :=
  fun j hj hs => by
    rw [hr.size] at hs
    exact (hr.nodeAt_eq hs).trans (hu j hj hs)

/-- HeapPop takes the root out of a sound heap; the heap it leaves is sound, and its other slots unused. -/
theorem heapPop_keeps_order {h : Heap} (hk : h.Keyed) (hd : h.occupied.Pairwise fun a b => keyOf a ≠ keyOf b)
    (ho : h.Ordered) (hu : h.RestUnused) (h1 : 1 ≤ h.size.toNat) :
    ∃ h', heapPop h = .ok (h.nodeAt 0) h' ∧ h'.size.toNat + 1 = h.size.toNat ∧
      h.occupied.Perm (h.nodeAt 0 :: h'.occupied) ∧ h'.Keyed ∧ h'.Ordered ∧ h'.RestUnused := by
  obtain ⟨h', hrun, hr, hfrom⟩ := heapPop_run hk (Heap.orderedFrom_of_ordered hk ho) h1
  have hsize : h'.size.toNat = h.size.toNat - 1 := by rw [hr.size, h.vacated_size]
  have hperm := (Heap.vacated_perm hk.fits h1).trans (.cons _ hr.occupied_perm.symm)
  have hk' : h'.Keyed := Heap.keyed_iff.2 ⟨by have := hk.fits; omega, fun n hn =>
    (Heap.keyed_iff.1 hk).2 n (hperm.symm.subset (List.mem_cons_of_mem _ hn))⟩
  have hd' := ((hperm.pairwise_iff fun h => h.symm).1 hd).of_cons
  refine ⟨h', hrun, by omega, hperm, hk', Heap.ordered_of_orderedFrom hk' hd' hfrom,
    hr.restUnused fun j hj hs => ?_⟩
  rw [h.vacated_size] at hs
  rw [Heap.vacated_nodeAt hk.fits]
  split_ifs with hlast hzero
  · rfl
  · omega
  · exact hu j hj (by omega)

/-- HeapInsert puts a node with a nonempty set and a new key into a sound heap; the heap it leaves is sound. -/
theorem heapInsert_keeps_order {h : Heap} {n : Node} (hk : h.Keyed)
    (hd : (n :: h.occupied).Pairwise fun a b => keyOf a ≠ keyOf b) (ho : h.Ordered) (hu : h.RestUnused)
    (hs : h.size.toNat < 95) (hn : n.symbolSet ≠ 0#95) :
    ∃ h', heapInsert n h = .ok () h' ∧ h'.size.toNat = h.size.toNat + 1 ∧ h'.occupied.Perm (n :: h.occupied) ∧
      h'.Keyed ∧ h'.Ordered ∧ h'.RestUnused := by
  obtain ⟨h', hrun, hr, hfrom⟩ := heapInsert_run hk (Heap.orderedFrom_of_ordered hk ho) hs hn
  have hsize := Heap.pushed_size n hs
  have hk' := hr.keyed (Heap.pushed_keyed hk hs hn)
  have hperm : h'.occupied.Perm (n :: h.occupied) :=
    hr.occupied_perm.trans (h.pushed_occupied n hs ▸ List.perm_append_singleton _ _)
  have hd' := (hperm.pairwise_iff fun h => h.symm).2 hd
  refine ⟨h', hrun, by rw [hr.size, hsize], hperm, hk', Heap.ordered_of_orderedFrom hk' hd' hfrom,
    hr.restUnused fun j hj hsj => ?_⟩
  rw [Heap.pushed_nodeAt hs, if_neg (by omega)]
  exact hu j hj (by omega)

/-- A piece over HEAP, run. -/
theorem onHeap_run {α : Type} {x : Act Heap α} {s : State} {a : α} {h : Heap} (hx : x s.heap = .ok a h) :
    onHeap x s = .ok a { s with heap := h } := onPart_ok.2 ⟨h, hx, rfl⟩

/-- A piece over TREE, run. -/
theorem onTree_run {α : Type} {x : Act Tree α} {s : State} {a : α} {t : Tree} (hx : x s.tree = .ok a t) :
    onTree x s = .ok a { s with tree := t } := onPart_ok.2 ⟨t, hx, rfl⟩

/-- After `if n.inserted_at = NONE: n <- TreeAppend(n)` the root stands in TREE. -/
theorem appendIfNew_run {s : State} {hist : Hist} {total : Nat} {n : Node} {rest : List Node}
    (hf : Forest hist total (n :: rest) s.tree) :
    ∃ n' t, appendIfNew n s = .ok n' { s with tree := t } ∧ n'.insertedAt ≠ Config.none ∧
      Forest hist total (n' :: rest) t := by
  by_cases hnew : n.insertedAt = Config.none
  · obtain ⟨ht, hf'⟩ := hf.append hnew
    refine ⟨_, _, (appendIfNew_new hnew).2 ⟨_, treeAppend_run n ht, rfl⟩, Tree.size_ne_none ht, hf'⟩
  · exact ⟨n, s.tree, appendIfNew_old hnew, hnew, hf⟩

/-- MergeIteration joins two roots into one, the last node of TREE, and ends normally (42_tree.md R141). -/
theorem mergeIteration_run {s : State} (hs : s.Merging) (h2 : 2 ≤ s.heap.size.toNat) :
    ∃ h t, mergeIteration s = .ok () { s with heap := h, tree := t } ∧
      State.Merging { s with heap := h, tree := t } ∧ h.size.toNat + 1 = s.heap.size.toNat ∧
      ∃ m ∈ h.occupied, m.insertedAt.toNat + 1 = t.size.toNat := by
  have hN : s.inputLen < 2 ^ 32 := lt_of_le_of_lt hs.total (by decide)
  have hk : s.heap.Keyed := Heap.keyed_iff.2 ⟨hs.fits, fun n hn => (hs.forest.held n hn).1⟩
  obtain ⟨h₁, hpop₁, hsize₁, hperm₁, hk₁, ho₁, hu₁⟩ :=
    heapPop_keeps_order hk hs.forest.keys_distinct hs.ordered hs.rest (by omega)
  have hf₁ := hs.forest.perm hperm₁
  obtain ⟨h₂, hpop₂, hsize₂, hperm₂, hk₂, ho₂, hu₂⟩ :=
    heapPop_keeps_order hk₁ hf₁.keys_distinct.of_cons ho₁ hu₁ (by omega)
  have hf₂ := hf₁.perm (.cons _ hperm₂)
  obtain ⟨a, t₁, happ₁, ha, hf₃⟩ := appendIfNew_run (s := { s with heap := h₂ }) hf₂
  obtain ⟨b, t₂, happ₂, hb, hf₄⟩ :=
    appendIfNew_run (s := { s with heap := h₂, tree := t₁ }) (hf₃.perm (.swap _ _ _))
  obtain ⟨ht₂, hf₅⟩ := (hf₄.perm (.swap _ _ _)).join hN ha hb
  obtain ⟨h₃, hins, hsize₃, hperm₃, hk₃, ho₃, hu₃⟩ :=
    heapInsert_keeps_order hk₂ hf₅.keys_distinct ho₂ hu₂ (by have := hk.fits; omega) (hf₅.held _ List.mem_cons_self).1
  refine ⟨h₃, t₂.grown (mergeNode a b), ?_, ⟨hs.total, hk₃.fits, hu₃, ho₃, hf₅.perm hperm₃.symm⟩, by omega,
    _, hperm₃.symm.subset List.mem_cons_self, (Tree.grown_size _ ht₂).symm⟩
  rw [mergeIteration, act_bind_run (onHeap_run hpop₁), act_bind_run (onHeap_run hpop₂), act_bind_run happ₁,
    act_bind_run happ₂, act_bind_run (onTree_run (treeAppend_run _ ht₂))]
  exact onHeap_run hins

/-- One root left, standing in TREE as its last node and kept in HEAP[0], is the finished tree. -/
theorem builtSound_of_forest {s : State} {n : Node} (hh : s.HistSound) (hf : Forest s.hist s.inputLen [n] s.tree)
    (h1 : s.heap.size.toNat = 1) (hu : s.heap.RestUnused) (hn : s.heap.nodeAt 0 = n)
    (hold : n.insertedAt ≠ Config.none) (hroot : s.root = n.insertedAt)
    (hlast : n.insertedAt.toNat + 1 = s.tree.size.toNat) : s.BuiltSound := by
  obtain ⟨-, hat⟩ := hf.in_tree List.mem_cons_self hold
  have hcount := hf.count
  rw [List.countP_cons_of_neg (by simpa using hold), List.countP_nil, List.length_singleton] at hcount
  have hweights := hf.weights
  rw [List.map_singleton, List.sum_singleton] at hweights
  rw [State.BuiltSound, hroot, hat]
  exact ⟨hh, h1, hu, hf.tree, by omega, hlast, hn, hweights, hf.covers⟩

/-- A heap with one node. -/
theorem Heap.occupied_of_size_one {h : Heap} (h1 : h.size.toNat = 1) : h.occupied = [h.nodeAt 0] := by
  rw [Heap.occupied_eq (by omega), h1]
  rfl

/-- Finalize makes the last root of the forest ROOT, the last node of TREE (42_tree.md R143, R150). -/
theorem finalize_run {s : State} (hs : s.Merging) (hh : s.HistSound) (h1 : s.heap.size.toNat = 1)
    (hlast : (s.heap.nodeAt 0).insertedAt ≠ Config.none →
      (s.heap.nodeAt 0).insertedAt.toNat + 1 = s.tree.size.toNat) :
    ∃ h t r, finalize s = .ok () { s with heap := h, tree := t, root := r, phase := .built } ∧
      State.BuiltSound { s with heap := h, tree := t, root := r, phase := .built } := by
  have hf := hs.forest
  rw [Heap.occupied_of_size_one h1] at hf
  have hread : s.heap.read 0 = .ok (s.heap.nodeAt 0) := Heap.read_run (by decide)
  by_cases hnew : (s.heap.nodeAt 0).insertedAt = Config.none
  · obtain ⟨ht, hf'⟩ := hf.append hnew
    refine ⟨s.heap.put 0 { s.heap.nodeAt 0 with insertedAt := s.tree.size }, s.tree.grown (s.heap.nodeAt 0),
      s.tree.size, ?_, builtSound_of_forest hh hf' h1 (fun j hj hsj => ?_) ?_ (Tree.size_ne_none ht) rfl
        (Tree.grown_size _ ht).symm⟩
    · rw [finalize, act_bind_run (act_get s), act_bind_run (ofRead_run hread), if_pos hnew,
        act_bind_run (onTree_run (treeAppend_run _ ht)), act_bind_run (onHeap_run (heapWrite_run (by decide)))]
      rfl
    · rw [Heap.put_nodeAt (by decide), if_neg (by rw [Heap.put_size] at hsj; omega)]
      exact hs.rest j hj hsj
    · rw [Heap.put_nodeAt (by decide), if_pos rfl]
  · refine ⟨s.heap, s.tree, (s.heap.nodeAt 0).insertedAt, ?_,
      builtSound_of_forest hh hf h1 hs.rest rfl hnew rfl (hlast hnew)⟩
    rw [finalize, act_bind_run (act_get s), act_bind_run (ofRead_run hread), if_neg hnew]
    rfl

/-- HEAPED's laws are those of merging, with the node that is left alone still a leaf (42_tree.md R146, R153). -/
theorem heapedSound_iff {s : State} (hN : s.inputLen ≤ 65536) (hs : s.heap.size.toNat ≤ 95) :
    s.HeapedSound ↔ s.Merging ∧ s.HistSound ∧ 1 ≤ s.heap.size.toNat ∧
      (s.heap.size.toNat = 1 → s.tree.size = 0#8) ∧ s.root = Config.none := by
  have hlen := Heap.occupied_length hs
  constructor
  · rintro ⟨hh, h1, hu, ho, hheld, hdis, hcov, hsum, htree, hcount, hone, hroot⟩
    exact ⟨⟨hN, hs, hu, ho, hheld, hdis, hcov, hsum, htree, hlen ▸ hcount⟩, hh, h1, hone, hroot⟩
  · rintro ⟨⟨-, -, hu, ho, hheld, hdis, hcov, hsum, htree, hcount⟩, hh, h1, hone, hroot⟩
    exact ⟨hh, h1, hu, ho, hheld, hdis, hcov, hsum, htree, hlen ▸ hcount, hone, hroot⟩

/-- MERGE's second half, after a merge. -/
theorem mergeBody_merge {s u : State} (h2 : 2 ≤ s.heap.size.toNat) (hu : mergeIteration s = .ok () u) :
    mergeBody s = (if u.heap.size.toNat = 1 then finalize else pure ()) u := by
  rw [mergeBody, act_bind_run (act_get s), if_pos h2, act_bind_run hu]
  exact act_bind_run (act_get u)

/-- MERGE's second half, when there is nothing to merge. -/
theorem mergeBody_skip {s : State} (h2 : ¬ 2 ≤ s.heap.size.toNat) :
    mergeBody s = (if s.heap.size.toNat = 1 then finalize else pure ()) s := by
  rw [mergeBody, act_bind_run (act_get s), if_neg h2]
  exact act_bind_run (act_get s)

/-- MERGE in HEAPED ends normally: with three nodes or more it leaves HEAPED with one node less, otherwise it
finishes the tree (42_tree.md R144). -/
theorem mergeBody_run {s : State} (hN : s.inputLen ≤ 65536) (hfit : s.heap.size.toNat ≤ 95) (hs : s.HeapedSound) :
    ∃ h t, (mergeBody s = .ok () { s with heap := h, tree := t } ∧ h.size.toNat + 1 = s.heap.size.toNat ∧
        State.HeapedSound { s with heap := h, tree := t }) ∨
      ∃ r, mergeBody s = .ok () { s with heap := h, tree := t, root := r, phase := .built } ∧
        State.BuiltSound { s with heap := h, tree := t, root := r, phase := .built } := by
  obtain ⟨hm, hh, h1, hone, hroot⟩ := (heapedSound_iff hN hfit).1 hs
  by_cases h2 : 2 ≤ s.heap.size.toNat
  · obtain ⟨h, t, hrun, hm', hsize, m, hmem, hlast⟩ := mergeIteration_run hm h2
    by_cases h3 : h.size.toNat = 1
    · rw [Heap.occupied_of_size_one h3, List.mem_singleton] at hmem
      obtain ⟨h', t', r, hfin, hb⟩ := finalize_run hm' hh h3 fun _ => hmem ▸ hlast
      exact ⟨h', t', .inr ⟨r, by rw [mergeBody_merge h2 hrun, if_pos h3, hfin], hb⟩⟩
    · refine ⟨h, t, .inl ⟨by rw [mergeBody_merge h2 hrun, if_neg h3]; rfl, hsize, ?_⟩⟩
      exact (heapedSound_iff (s := { s with heap := h, tree := t }) hN hm'.fits).2
        ⟨hm', hh, show 1 ≤ h.size.toNat by omega, fun h => absurd h h3, hroot⟩
  · have h3 : s.heap.size.toNat = 1 := by omega
    obtain ⟨h', t', r, hfin, hb⟩ := finalize_run hm hh h3 fun hold => by
      have hin := (hm.forest.in_tree (Heap.occupied_of_size_one h3 ▸ List.mem_cons_self) hold).1
      rw [hone h3] at hin
      exact absurd hin (Nat.not_lt_zero _)
    exact ⟨h', t', .inr ⟨r, by rw [mergeBody_skip h2, if_pos h3, hfin], hb⟩⟩

/-! ### BUILD -/

/-- BUILD's loop in HEAPED, bounded above HEAP_SIZE, ends normally with the tree finished (42_tree.md R145). -/
theorem buildLoop_run {fuel : Nat} {s : State} (hN : s.inputLen ≤ 65536) (hfit : s.heap.size.toNat ≤ 95)
    (hs : s.HeapedSound) (hp : s.phase ≠ .built) (hfuel : s.heap.size.toNat < fuel) :
    ∃ h t r, buildLoop fuel s = .ok () { s with heap := h, tree := t, root := r, phase := .built } ∧
      State.BuiltSound { s with heap := h, tree := t, root := r, phase := .built } := by
  induction fuel generalizing s with
  | zero => omega
  | succ fuel ih =>
    obtain ⟨h, t, ⟨hrun, hsize, hs'⟩ | ⟨r, hrun, hb⟩⟩ := mergeBody_run hN hfit hs
    · obtain ⟨h', t', r, hrun', hb⟩ :=
        ih (s := { s with heap := h, tree := t }) hN (show h.size.toNat ≤ 95 by omega) hs' hp (show h.size.toNat < fuel by omega)
      refine ⟨h', t', r, ?_, hb⟩
      rw [buildLoop, act_bind_run hrun, act_bind_run (act_get _), if_neg hp, hrun']
    · refine ⟨h, t, r, ?_, hb⟩
      rw [buildLoop, act_bind_run hrun, act_bind_run (act_get _), if_pos rfl]
      rfl

theorem buildBody_run {s : State} (hN : s.inputLen ≤ 65536) (hfit : s.heap.size.toNat ≤ 95)
    (hs : s.HeapedSound) (hp : s.phase ≠ .built) :
    ∃ h t r, buildBody s = .ok () { s with heap := h, tree := t, root := r, phase := .built } ∧
      State.BuiltSound { s with heap := h, tree := t, root := r, phase := .built } := by
  rw [buildBody, act_bind_run (act_get s)]
  exact buildLoop_run hN hfit hs hp (Nat.lt_succ_self _)

end Sys2Proof.Machine

/-!
COUNT and HEAPIFY, run: the histogram's sums, and the heap and the forest of the counted symbols' leaves.
-/

namespace Sys2Proof.Machine

/-! ### The histogram's sums -/

theorem hist_toList (hist : Hist) : hist.toList = (List.finRange Config.domainSize).map fun i => hist[i] := by
  refine List.ext_getElem (by simp) fun j h1 h2 => ?_
  simp

theorem distinctOf_eq (hist : Hist) :
    distinctOf hist = ((List.finRange Config.domainSize).filter fun i => hist[i] != 0#32).length := by
  rw [distinctOf, hist_toList, List.countP_map, List.countP_eq_length_filter]
  rfl

theorem histTotal_eq (hist : Hist) : histTotal hist = ∑ i : Fin Config.domainSize, hist[i].toNat := by
  rw [histTotal, hist_toList, List.map_map, Fin.sum_univ_def]
  rfl

/-- One more counted symbol: with room in its counter, the total is one more. -/
theorem histTotal_bumpHist {hist : Hist} (i : Fin Config.domainSize) (h : histTotal hist + 1 < 2 ^ 32) :
    histTotal (bumpHist hist i) = histTotal hist + 1 := by
  rw [histTotal_eq] at h
  have hi : hist[i.val].toNat ≤ ∑ i : Fin Config.domainSize, hist[i].toNat :=
    Finset.single_le_sum (f := fun i => hist[i].toNat) (fun _ _ => Nat.zero_le _) (Finset.mem_univ i)
  have hbump (j : Fin Config.domainSize) : (bumpHist hist i)[j].toNat = hist[j].toNat + if j = i then 1 else 0 := by
    simp only [bumpHist, Fin.getElem_fin, Vector.getElem_set, Fin.ext_iff, eq_comm (a := j.val)]
    split
    · rename_i hij
      simp only [← hij, BitVec.toNat_add, BitVec.toNat_ofNat]
      omega
    · rfl
  rw [histTotal_eq, histTotal_eq, Finset.sum_congr rfl fun j _ => hbump j, Finset.sum_add_distrib,
    Finset.sum_ite_eq' Finset.univ i, if_pos (Finset.mem_univ i)]

/-! ### COUNT -/

/-- COUNT's loop counts each byte it passes, when the counters have room (40_count.md R111). -/
theorem countLoop_total {k n : Nat} {bytes : List Byte} (h : n + bytes.length < 2 ^ 32) :
    Triple (fun hist => histTotal hist = n) (countLoop k bytes) (fun hist => histTotal hist = n + bytes.length)
      fun _ _ => True := by
  induction bytes generalizing k n with
  | nil => exact ⟨fun hs hr => by cases hr; exact hs, nofun⟩
  | cons c rest ih =>
    have hadd : n + (c :: rest).length = n + 1 + rest.length := by rw [List.length_cons]; omega
    rw [hadd] at h ⊢
    unfold countLoop
    split
    · exact ⟨nofun, fun _ _ => trivial⟩
    · rename_i i _
      refine .bind (.modify fun hist hs => ?_) fun _ => ih h
      rw [histTotal_bumpHist i (by omega), hs]

theorem histTotal_zeroHist : histTotal zeroHist = 0 := by
  rw [histTotal_eq]
  exact Finset.sum_eq_zero fun i _ => congrArg BitVec.toNat (Vector.getElem_replicate (a := 0#32) i.isLt)

/-- A total that is not 0 counts some symbol. -/
theorem distinctOf_pos {hist : Hist} (h : 1 ≤ histTotal hist) : 1 ≤ distinctOf hist := by
  by_contra hd
  have hzero : ∀ v ∈ hist.toList, v = 0#32 := by
    simpa using List.countP_eq_zero.1 (Nat.lt_one_iff.1 (not_le.1 hd))
  have hsum : histTotal hist = 0 := List.sum_eq_zero fun n hn => by
    obtain ⟨v, hv, rfl⟩ := List.mem_map.1 hn
    rw [hzero v hv]
    rfl
  omega

/-! ### HEAPIFY -/

/-- Placing the leaves puts those of the counted symbols at the end of the heap, in the order given. -/
theorem placeLeaves_run {hist : Hist} {is : List (Fin Config.domainSize)} {h : Heap}
    (hs : h.size.toNat + is.length ≤ 95) :
    ∃ h', placeLeaves hist is h = .ok () h' ∧ h'.size.toNat ≤ 95 ∧
      h'.occupied = h.occupied ++ (is.filter fun i => hist[i] != 0#32).map (leafNode hist) ∧
      ∀ j, h'.size.toNat ≤ j → h.size.toNat ≤ j ∧ h'.nodeAt j = h.nodeAt j := by
  induction is generalizing h with
  | nil => exact ⟨h, rfl, hs, by simp, fun j hj => ⟨hj, rfl⟩⟩
  | cons i rest ih =>
    rw [List.length_cons] at hs
    by_cases hi : hist[i] = 0#32
    · obtain ⟨h', hrun, hs', hocc, hrest⟩ := ih (h := h) (by omega)
      refine ⟨h', ?_, hs', ?_, hrest⟩
      · rw [placeLeaves, if_neg (not_not.2 hi)]
        exact hrun
      · rw [hocc, List.filter_cons_of_neg (by simpa using hi)]
    · have hsize := Heap.pushed_size (h := h) (leafNode hist i) (by omega)
      obtain ⟨h', hrun, hs', hocc, hrest⟩ := ih (h := h.pushed (leafNode hist i)) (by omega)
      refine ⟨h', ?_, hs', ?_, fun j hj => ?_⟩
      · rw [placeLeaves, if_pos hi, act_bind_run (heapPush_run _ (by omega))]
        exact hrun
      · rw [hocc, Heap.pushed_occupied _ (by omega), List.filter_cons_of_pos (by simpa using hi), List.map_cons,
          List.append_assoc, List.singleton_append]
      · obtain ⟨hj', hnode⟩ := hrest j hj
        rw [Heap.pushed_nodeAt (by omega), if_neg (by omega)] at hnode
        exact ⟨by omega, hnode⟩

theorem leafNode_symbolSet_ne (hist : Hist) (i : Fin Config.domainSize) : (leafNode hist i).symbolSet ≠ 0#95 :=
  fun h => Option.some_ne_none i.val ((lsb_singletonSet i).symm.trans (lsb_eq_none.2 h))

/-- HEAPIFY puts the leaves of the counted symbols in the heap, in order, whatever it held (41_heap.md R128). -/
theorem heapifyHeap_run (hist : Hist) (h : Heap) :
    ∃ h', heapifyHeap hist h = .ok () h' ∧ h'.Keyed ∧ h'.occupied.Perm (leaves hist) ∧ h'.OrderedFrom 0 ∧
      ∀ j, h'.size.toNat ≤ j → h'.nodeAt j = h.nodeAt j := by
  obtain ⟨g, hplace, hfit, hocc, hrest⟩ := placeLeaves_run (hist := hist) (is := List.finRange Config.domainSize)
    (h := { h with size := 0#7 }) (by simp)
  rw [show ({ h with size := 0#7 } : Heap).occupied = [] from rfl, List.nil_append] at hocc
  have hk : g.Keyed := by
    refine Heap.keyed_iff.2 ⟨hfit, fun n hn => ?_⟩
    rw [hocc] at hn
    obtain ⟨i, -, rfl⟩ := List.mem_map.1 hn
    exact leafNode_symbolSet_ne hist i
  obtain ⟨h', hrun, hr, ho⟩ := bulkBuild_run hk
  refine ⟨h', ?_, hr.keyed hk, hr.occupied_perm.trans (.of_eq hocc), ho, fun j hj => ?_⟩
  · rw [heapifyHeap, act_bind_run (setHeapSize_run 0 h), act_bind_run hplace]
    exact hrun
  · rw [hr.size] at hj
    exact (hr.nodeAt_eq hj).trans (hrest j hj).2

/-- What is 0 outside a filter has the same sum over it. -/
theorem sum_map_filter_of_zero {α : Type} {p : α → Bool} {f : α → Nat} (h : ∀ a, p a = false → f a = 0)
    (l : List α) : ((l.filter p).map f).sum = (l.map f).sum := by
  induction l with
  | nil => rfl
  | cons a l ih =>
    cases hp : p a with
    | true => rw [List.filter_cons_of_pos hp, List.map_cons, List.map_cons, List.sum_cons, List.sum_cons, ih]
    | false => rw [List.filter_cons_of_neg (by simp [hp]), List.map_cons, List.sum_cons, ih, h a hp, Nat.zero_add]

theorem mem_leaves {hist : Hist} {n : Node} :
    n ∈ leaves hist ↔ ∃ i : Fin Config.domainSize, hist[i] ≠ 0#32 ∧ n = leafNode hist i := by
  simp only [leaves, List.mem_map, List.mem_filter, List.mem_finRange, true_and, bne_iff_ne, eq_comm (a := n)]

theorem leaves_length (hist : Hist) : (leaves hist).length = distinctOf hist := by
  rw [leaves, List.length_map, distinctOf_eq]

/-- The leaves of the counted symbols, none of them in TREE, are the first forest (41_heap.md R125, R133). -/
theorem forest_leaves (hist : Hist) : Forest hist (histTotal hist) (leaves hist) emptyTree := by
  refine ⟨fun n hn => ?_, ?_, fun i => ?_, ?_, ⟨fun j hj _ => ?_, nofun⟩, ?_⟩
  · obtain ⟨i, hi, rfl⟩ := mem_leaves.1 hn
    exact ⟨leafNode_symbolSet_ne hist i, hi, .inl ⟨i, hi, rfl⟩⟩
  · refine List.pairwise_map.2 (((List.nodup_finRange _).filter _).imp fun {i j} hij => ?_)
    refine BitVec.eq_of_getLsbD_eq fun k _ => ?_
    simp only [leafNode, BitVec.getLsbD_and, singletonSet_getLsbD, BitVec.getLsbD_zero, Bool.and_eq_false_imp,
      decide_eq_true_eq, decide_eq_false_iff_not]
    exact fun hk hk' => hij (Fin.ext (hk.symm.trans hk'))
  · constructor
    · exact fun hi => ⟨leafNode hist i, mem_leaves.2 ⟨i, hi, rfl⟩, by simp [leafNode, memSet, singletonSet_getLsbD]⟩
    · rintro ⟨n, hn, hin⟩
      obtain ⟨j, hj, rfl⟩ := mem_leaves.1 hn
      rw [leafNode, memSet, singletonSet_getLsbD, decide_eq_true_eq] at hin
      rwa [Fin.ext hin]
  · rw [leaves, List.map_map, histTotal, hist_toList, List.map_map]
    refine sum_map_filter_of_zero (fun i hi => ?_) _
    have hi : hist[i] = 0#32 := by simpa using hi
    exact congrArg BitVec.toNat hi
  · exact Tree.nodeAt_eq_of_slot (by rw [emptyTree, Vector.getElem?_replicate, if_pos hj])
  · rw [List.countP_eq_length.2 fun n hn => ?_, leaves_length]
    · rw [emptyTree]
      simp only [BitVec.toNat_zero]
      omega
    · obtain ⟨i, -, rfl⟩ := mem_leaves.1 hn
      rfl

end Sys2Proof.Machine

/-!
The invariant of the whole block: what each command's body leaves in its phase, and so what every step keeps.
-/

namespace Sys2Proof.Machine

/-! ### The invariant, phase by phase -/

/-- What the invariant says of the data in a phase. -/
def State.Law (s : State) : Phase → Prop
  | .idle => s.IdleSound
  | .counted => s.CountedSound
  | .heaped => s.HeapedSound
  | .built | .encoded | .decoded | .done => s.BuiltSound
  | .error => True

/-- The part of the invariant that speaks of the pipeline's data. -/
structure State.DataSound (s : State) : Prop where
  ranges : s.Ranges
  law : s.Law s.phase

theorem State.inv_iff {s : State} : s.Inv ↔ s.Basic ∧ s.DataSound := by
  constructor
  · rintro ⟨hb, hr, hidle, hcounted, hheaped, hbuilt⟩
    refine ⟨hb, hr, ?_⟩
    cases hp : s.phase with
    | idle => exact hidle hp
    | counted => exact hcounted hp
    | heaped => exact hheaped hp
    | built | encoded | decoded | done => exact hbuilt (by simp [hp])
    | error => trivial
  · rintro ⟨hb, hr, hlaw⟩
    refine ⟨hb, hr, fun hp => ?_, fun hp => ?_, fun hp => ?_, ?_⟩
    · rwa [hp] at hlaw
    · rwa [hp] at hlaw
    · rwa [hp] at hlaw
    · rintro (hp | hp | hp | hp) <;> rwa [hp] at hlaw

/-- The states agree on everything the invariant says of the data. -/
structure State.SameData (s t : State) : Prop where
  phase : t.phase = s.phase
  distinct : t.distinct = s.distinct
  hist : t.hist = s.hist
  heap : t.heap = s.heap
  tree : t.tree = s.tree
  root : t.root = s.root
  inputLen : t.inputLen = s.inputLen
  codeWords : t.codeWords = s.codeWords
  bitlen : t.code.bitlen = s.code.bitlen
  count : t.out.count = s.out.count

namespace State.SameData

theorem refl (s : State) : s.SameData s := ⟨rfl, rfl, rfl, rfl, rfl, rfl, rfl, rfl, rfl, rfl⟩

variable {s t : State}

theorem ranges (h : s.SameData t) (hs : s.Ranges) : t.Ranges := by
  simpa only [State.Ranges, h.distinct, h.heap, h.tree, h.codeWords, h.bitlen, h.inputLen, h.count] using hs

theorem histSound (h : s.SameData t) (hs : s.HistSound) : t.HistSound := by
  simpa only [State.HistSound, h.distinct, h.hist, h.inputLen] using hs

theorem law (h : s.SameData t) {p : Phase} (hs : s.Law p) : t.Law p := by
  cases p with
  | idle =>
    simpa only [State.Law, State.IdleSound, h.hist, h.distinct, h.heap, h.tree, h.root, h.bitlen, h.count] using hs
  | counted =>
    obtain ⟨hh, hrest⟩ := hs
    exact ⟨h.histSound hh, by simpa only [h.heap, h.tree, h.root] using hrest⟩
  | heaped =>
    obtain ⟨hh, hrest⟩ := hs
    exact ⟨h.histSound hh, by simpa only [State.NodeHeld, State.Covers, State.TreeSound, h.hist, h.heap, h.tree,
      h.root, h.inputLen] using hrest⟩
  | built | encoded | decoded | done =>
    obtain ⟨hh, hrest⟩ := hs
    exact ⟨h.histSound hh, by simpa only [State.Covers, State.TreeSound, h.hist, h.heap, h.tree, h.root,
      h.inputLen] using hrest⟩
  | error => trivial

theorem dataSound (h : s.SameData t) (hs : s.DataSound) : t.DataSound :=
  ⟨h.ranges hs.ranges, h.phase ▸ h.law hs.law⟩

end State.SameData

/-- An error taken leaves no law but the ranges. -/
theorem State.DataSound.takeError {s : State} (hs : s.Ranges) (op : BitVec 8) (r : Raise) :
    (s.takeError op r).DataSound := ⟨hs, trivial⟩

/-! ### The commands in their phases -/

theorem State.legal_bounds {s : State} (h : s.params.legal = true) :
    1 ≤ s.inputLen ∧ s.inputLen ≤ 65536 ∧ s.codeWords ≤ 262144 := by
  simp only [Params.legal, Params.inputLenOk, Params.codeWordsOk, State.params, Bool.and_eq_true] at h
  obtain ⟨⟨⟨h1, h2⟩, -, h3⟩, -⟩ := h
  exact ⟨of_decide_eq_true h1, of_decide_eq_true h2, of_decide_eq_true h3⟩

/-- A state with legal parameters in phase `p`, with the laws of the phase. -/
structure State.Ready (p : Phase) (s : State) : Prop where
  legal : s.params.legal = true
  ranges : s.Ranges
  phase : s.phase = p
  law : s.Law p

theorem State.Ready.dataSound {p : Phase} {s : State} (hs : s.Ready p) : s.DataSound :=
  ⟨hs.ranges, hs.phase ▸ hs.law⟩

/-- INIT leaves IDLE with its laws (45_control.md R202). -/
theorem State.initialise_ready {s : State} (h : s.params.legal = true) : State.Ready .idle s.initialise where
  legal := by simpa [State.params] using h
  ranges := ⟨Nat.zero_le _, Nat.zero_le _, Nat.zero_le _, Nat.zero_le _, Nat.zero_le _⟩
  phase := rfl
  law := ⟨rfl, rfl, rfl, rfl, rfl, rfl, rfl⟩

/-- What is left of the laws where a command's body stops by a raise. -/
abbrev RangesAtRaise (e : Stop) (t : State) : Prop := ∀ r, e = .raise r → t.Ranges

/-- A piece that ends normally from every state of `P`. -/
theorem Triple.of_run {ε σ α : Type} {P Q : σ → Prop} {X : ε → σ → Prop} {x : EStateM ε σ α}
    (h : ∀ s, P s → ∃ a t, x s = .ok a t ∧ Q t) : Triple P x Q X where
  ok hs hr := by
    obtain ⟨a, t, hx, hq⟩ := h _ hs
    cases hx.symm.trans hr
    exact hq
  stop hs hr := by
    obtain ⟨a, t, hx, -⟩ := h _ hs
    cases hx.symm.trans hr

/-- COUNT (40_count.md R110 to R112). -/
theorem countBody_ready : Triple (State.Ready .idle) countBody (State.Ready .counted) fun _ t => t.Ranges := by
  refine .get_bind_eq fun s hs => ?_
  obtain ⟨hh, hd, hheap, htree, hroot, hbit, hcount⟩ := hs.law
  obtain ⟨hN1, hN, -⟩ := s.legal_bounds hs.legal
  have hloop : Triple (· = s) (onPart State.hist State.putHist (countLoop 0 s.inbuf))
      (fun u => ∃ h, u = s.putHist h ∧ histTotal h = s.inputLen) fun _ t => t.Ranges := by
    refine .onPart ?_
    rintro _ rfl
    refine (countLoop_total (n := 0) (by simpa using lt_of_le_of_lt hN (by decide))).weaken (fun h hs => ?_)
      (fun h ht => ⟨h, rfl, by simpa using ht⟩) fun _ h _ => hs.ranges
    rw [hs, hh, histTotal_zeroHist]
  refine .bind hloop fun _ => .bind (R := fun u => ∃ h, histTotal h = s.inputLen ∧
    u = { s.putHist h with distinct := BitVec.ofNat 7 (distinctOf h) }) (.modify ?_) fun _ => .modify ?_
  · rintro _ ⟨h, rfl, ht⟩
    exact ⟨h, ht, rfl⟩
  · rintro _ ⟨h, ht, rfl⟩
    have hle := distinctOf_le h
    have hd' : (BitVec.ofNat 7 (distinctOf h)).toNat = distinctOf h := by rw [BitVec.toNat_ofNat]; omega
    exact ⟨hs.legal, ⟨hd'.trans_le hle, hs.ranges.2⟩, rfl, ⟨hd', distinctOf_pos (ht ▸ hN1), ht⟩, hheap, htree, hroot⟩

theorem emptyHeap_nodeAt (j : Nat) : emptyHeap.nodeAt j = unusedNode := by
  obtain hj | hj := Nat.lt_or_ge j 95
  · exact Heap.nodeAt_eq_of_slot (by rw [emptyHeap, Vector.getElem?_replicate, if_pos hj])
  · exact Heap.nodeAt_of_le hj

/-- HEAPIFY (41_heap.md R128). -/
theorem heapifyBody_ready : Triple (State.Ready .counted) heapifyBody (State.Ready .heaped) RangesAtRaise := by
  refine .of_run fun s hs => ?_
  obtain ⟨hh, hheap, htree, hroot⟩ := hs.law
  obtain ⟨-, hN, -⟩ := s.legal_bounds hs.legal
  obtain ⟨h, hrun, hk, hperm, ho, hrest⟩ := heapifyHeap_run s.hist s.heap
  have hforest : Forest s.hist s.inputLen h.occupied s.tree := by
    rw [htree, ← hh.2.2]
    exact (forest_leaves s.hist).perm hperm.symm
  have hsize : h.size.toNat = distinctOf s.hist := by
    rw [← Heap.occupied_length hk.fits, hperm.length_eq, leaves_length]
  have hm : State.Merging { s with heap := h, phase := .heaped } :=
    ⟨hN, hk.fits, fun j hj hsj => by rw [hrest j hsj, hheap, emptyHeap_nodeAt],
      Heap.ordered_of_orderedFrom hk hforest.keys_distinct ho, hforest⟩
  obtain ⟨hr1, -, hr2⟩ := hs.ranges
  refine ⟨(), { s with heap := h, phase := .heaped }, ?_, hs.legal, ⟨hr1, hk.fits, hr2⟩, rfl,
    (heapedSound_iff (s := { s with heap := h, phase := .heaped }) hN hk.fits).2
      ⟨hm, hh, hsize ▸ hh.2.1, fun _ => by rw [htree]; rfl, hroot⟩⟩
  rw [heapifyBody, act_bind_run (act_get s), act_bind_run (onPart_ok.2 ⟨h, hrun, rfl⟩)]
  rfl


/-- The registers of a heap and a tree whose laws hold are in range. -/
theorem State.HeapedSound.ranges {s : State} (hs : s.HeapedSound) (hN : s.inputLen ≤ 65536)
    (hfit : s.heap.size.toNat ≤ 95) : s.heap.size.toNat ≤ 95 ∧ s.tree.size.toNat ≤ 189 := by
  obtain ⟨hm, -, h1, -⟩ := (heapedSound_iff hN hfit).1 hs
  have hne : s.heap.occupied ≠ [] := List.ne_nil_of_length_pos (by rw [Heap.occupied_length hfit]; omega)
  exact ⟨hfit, Nat.le_of_lt_succ (hm.forest.tree_size_lt hne)⟩

theorem State.BuiltSound.ranges {s : State} (hs : s.BuiltSound) :
    s.heap.size.toNat ≤ 95 ∧ s.tree.size.toNat ≤ 189 := by
  obtain ⟨-, h1, -, -, hsize, -⟩ := hs
  have := distinctOf_le s.hist
  exact ⟨by omega, by omega⟩

/-- The state MERGE or BUILD leaves. -/
theorem State.Ready.merged {s : State} {p q : Phase} {h : Heap} {t : Tree} {r : Index} (hs : s.Ready p)
    (hr : h.size.toNat ≤ 95 ∧ t.size.toNat ≤ 189)
    (hlaw : State.Law { s with heap := h, tree := t, root := r, phase := q } q) :
    State.Ready q { s with heap := h, tree := t, root := r, phase := q } :=
  have ⟨hdistinct, _, _, hcode, hout⟩ := hs.ranges
  ⟨hs.legal, ⟨hdistinct, hr.1, hr.2, hcode, hout⟩, rfl, hlaw⟩

/-- MERGE (42_tree.md R144). -/
theorem mergeBody_ready :
    Triple (State.Ready .heaped) mergeBody (fun t => t.Ready .heaped ∨ t.Ready .built) RangesAtRaise := by
  refine .of_run fun s hs => ?_
  obtain ⟨-, hN, -⟩ := s.legal_bounds hs.legal
  obtain ⟨-, hfit, -⟩ := hs.ranges
  obtain ⟨h, t, ⟨hrun, hsize, hlaw⟩ | ⟨r, hrun, hlaw⟩⟩ := mergeBody_run hN hfit hs.law
  · have hsame : ({ s with heap := h, tree := t } : State) =
        { s with heap := h, tree := t, root := s.root, phase := .heaped } := by rw [← hs.phase]
    have hfit' : h.size.toNat ≤ 95 := (Nat.le_of_succ_le hsize.le).trans hfit
    rw [hsame] at hrun hlaw
    exact ⟨(), _, hrun, .inl (hs.merged (hlaw.ranges hN hfit') hlaw)⟩
  · exact ⟨(), _, hrun, .inr (hs.merged hlaw.ranges hlaw)⟩

/-- BUILD (42_tree.md R145). -/
theorem buildBody_ready : Triple (State.Ready .heaped) buildBody (State.Ready .built) RangesAtRaise := by
  refine .of_run fun s hs => ?_
  obtain ⟨-, hN, -⟩ := s.legal_bounds hs.legal
  obtain ⟨-, hfit, -⟩ := hs.ranges
  obtain ⟨h, t, r, hrun, hlaw⟩ := buildBody_run hN hfit hs.law (by rw [hs.phase]; nofun)
  exact ⟨(), _, hrun, hs.merged hlaw.ranges hlaw⟩

/-- Packing a code that fits adds its length to BITLEN (43_encode.md R165). -/
theorem pack_bitlen (c : CodeStream) (code : List Bool) (h : c.bitlen.toNat + code.length < 2 ^ 32) :
    (pack c code).bitlen.toNat = c.bitlen.toNat + code.length := by
  induction code generalizing c with
  | nil => rfl
  | cons b rest ih =>
    rw [List.length_cons] at h ⊢
    have hbit : (packBit c b).bitlen.toNat = c.bitlen.toNat + 1 := by
      rw [packBit, BitVec.toNat_add, BitVec.toNat_ofNat]
      omega
    have hrest := ih (packBit c b) (by omega)
    rw [hbit] at hrest
    exact hrest.trans (by omega)

/-- BITLEN stays within CODEBUF, of `cw` words (10_state.md R35). -/
def CodeStream.Within (cw : Nat) (c : CodeStream) : Prop :=
  c.words.length = cw ∧ c.bitlen.toNat ≤ cw * 32

theorem encodeLoop_within {cw : Nat} (hcw : cw ≤ 262144) (t : Tree) (root : Index) (k : Nat) (bytes : List Byte) :
    Keeps (CodeStream.Within cw) Stop.Named (encodeLoop t root k bytes) := by
  induction bytes generalizing k with
  | nil => exact .pure ()
  | cons b rest ih =>
    unfold encodeLoop
    split
    · exact .throw nofun
    · refine .bind (codeOf_stops t root _ k).keeps fun code => .get_bind_eq fun c hc => ?_
      split
      · exact (Triple.throw (P := CodeStream.Within cw) nofun).at_state hc
      · rename_i hfits
        refine .bind (.modify ?_) fun _ => ih _
        rintro _ rfl
        rw [Config.wordBits, hc.1] at hfits
        exact ⟨(pack_length _ _).trans hc.1, by rw [pack_bitlen _ _ (by omega)]; omega⟩

theorem encodeStream_within {cw : Nat} (hcw : cw ≤ 262144) (t : Tree) (root : Index) (inbuf : List Byte) :
    Keeps (CodeStream.Within cw) Stop.Named (encodeStream t root inbuf) :=
  .bind (.modify fun _ hc => ⟨List.length_replicate.trans hc.1, Nat.zero_le _⟩) fun _ =>
    encodeLoop_within hcw t root 0 inbuf

/-- ENCODE (43_encode.md R160, R169). -/
theorem encodeBody_ready : Triple (State.Ready .built) encodeBody (State.Ready .encoded) RangesAtRaise := by
  refine .get_bind_eq fun s hs => ?_
  obtain ⟨-, -, hcw⟩ := s.legal_bounds hs.legal
  obtain ⟨hdistinct, hheap, htree, hbit, hcount⟩ := hs.ranges
  have ranges {c : CodeStream} (hc : c.Within s.codeWords) : (s.putCode c).Ranges :=
    ⟨hdistinct, hheap, htree, hc.2.trans_eq (congrArg (· * 32) hc.1.symm), hcount⟩
  have hstream : Triple (· = s) (onPart State.code State.putCode (encodeStream s.tree s.root s.inbuf))
      (fun u => ∃ c : CodeStream, c.Within s.codeWords ∧ u = s.putCode c) RangesAtRaise := by
    refine .onPart ?_
    rintro s rfl
    exact ((encodeStream_within hcw s.tree s.root s.inbuf).at_state ⟨rfl, hbit⟩).weaken (fun _ => id)
      (fun c hc => ⟨c, hc, rfl⟩) fun _ c hc _ _ => ranges hc.1
  refine .bind hstream fun _ => .modify ?_
  rintro _ ⟨c, hc, rfl⟩
  exact ⟨by simpa [State.params, hc.1] using hs.legal, ranges hc, rfl, hs.law⟩

/-- DEC_COUNT stays within OUTBUF, of `n` bytes (44_decode.md R186). -/
def Output.Within (n : Nat) (o : Output) : Prop := o.bytes.length = n ∧ o.count.toNat ≤ n

theorem emitSymbol_within {len : Nat} (hlen : len ≤ 65536) (n : Node) (o : Nat) :
    Keeps (Output.Within len) Stop.Named (emitSymbol n o) := by
  refine .get_bind_eq fun x hx => ?_
  split
  · exact (Triple.throw (P := Output.Within len) nofun).at_state hx
  · rename_i hne
    split
    · exact (Triple.throw (P := Output.Within len) nofun).at_state hx
    · refine .modify ?_
      rintro _ rfl
      obtain ⟨hl, hc⟩ := hx
      refine ⟨by simpa using hl, ?_⟩
      rw [BitVec.toNat_add, BitVec.toNat_ofNat]
      omega

theorem decodeLoop_within {len : Nat} (hlen : len ≤ 65536) (t : Tree) (c : CodeStream) (r : Node) (fuel o : Nat) :
    Keeps (Output.Within len) Stop.Named (decodeLoop t c r fuel o) := by
  induction fuel generalizing o with
  | zero => exact .pure ()
  | succ fuel ih =>
    exact .ite (.bind (nextLeaf_stops t c r o).keeps fun x => .bind (emitSymbol_within hlen x.1 x.2) fun _ => ih x.2)
      (.pure ())

theorem decodeStream_within {len : Nat} (hlen : len ≤ 65536) (t : Tree) (root : Index) (c : CodeStream) :
    Triple (fun _ => True) (decodeStream t root c len) (Output.Within len) fun e x => x.Within len ∧ e.Named :=
  .bind (.modify fun _ _ => ⟨List.length_replicate, Nat.zero_le _⟩) fun _ => .bind (t.read_stops root).keeps fun r =>
    decodeLoop_within hlen t c r _ 0

/-- DECODE (44_decode.md R180, R186). -/
theorem decodeBody_ready : Triple (State.Ready .encoded) decodeBody (State.Ready .decoded) RangesAtRaise := by
  refine .get_bind_eq fun s hs => ?_
  obtain ⟨-, hN, -⟩ := s.legal_bounds hs.legal
  obtain ⟨hdistinct, hheap, htree, hbit, -⟩ := hs.ranges
  have ranges {o : Output} (ho : o.Within s.inputLen) : (s.putOut o).Ranges := ⟨hdistinct, hheap, htree, hbit, ho.2⟩
  have hstream : Triple (· = s) (onPart State.out State.putOut (decodeStream s.tree s.root s.code s.inputLen))
      (fun u => ∃ o : Output, o.Within s.inputLen ∧ u = s.putOut o) RangesAtRaise := by
    refine .onPart ?_
    rintro s rfl
    exact (decodeStream_within hN s.tree s.root s.code).weaken (fun _ _ => trivial) (fun o ho => ⟨o, ho, rfl⟩)
      fun _ o ho _ _ => ranges ho.1
  refine .bind hstream fun _ => .modify ?_
  rintro _ ⟨o, ho, rfl⟩
  exact ⟨hs.legal, ranges ho, rfl, hs.law⟩

/-- VERIFY (44_decode.md R190). -/
theorem verifyBody_ready : Triple (State.Ready .decoded) verifyBody (State.Ready .done) fun _ t => t.Ranges := by
  refine .get_bind_eq fun s hs => ?_
  split
  · exact ⟨nofun, fun h hr => by cases hr; exact h ▸ hs.ranges⟩
  · exact .modify fun _ _ => ⟨hs.legal, hs.ranges, rfl, hs.law⟩

/-- A raise-only piece as a piece that may be stuck. -/
theorem Triple.ofSure {σ α : Type} {P Q R : σ → Prop} {x : SureAct σ α} (hx : Triple P x Q fun _ t => R t) :
    Triple P (ofSure x) Q fun e t => ∀ r, e = .raise r → R t where
  ok hs hr := hx.ok hs (ofSure_ok.1 hr)
  stop hs hr := fun _ _ => by
    obtain ⟨_, -, hr'⟩ := ofSure_error.1 hr
    exact hx.stop hs hr'

/-! ### Every command keeps the laws -/

/-- A component command, in its phase, leaves a phase with its laws, or the ranges where it raises. -/
theorem componentBody_ready {i : Instr} {p : Phase} (hp : requiredPhase i = some p) :
    Triple (State.Ready p) (componentBody i) (fun t => ∃ q, t.Ready q) RangesAtRaise := by
  have inPhase {q : Phase} {x : Act State Unit} (h : Triple (State.Ready p) x (State.Ready q) RangesAtRaise) :
      Triple (State.Ready p) x (fun t => ∃ q, t.Ready q) RangesAtRaise :=
    h.weaken (fun _ => id) (fun _ ht => ⟨q, ht⟩) fun _ _ => id
  cases i with
  | nop | init | run => cases hp
  | count => cases hp; exact inPhase countBody_ready.ofSure
  | heapify => cases hp; exact inPhase heapifyBody_ready
  | merge =>
    cases hp
    exact mergeBody_ready.weaken (fun _ => id) (fun _ ht => ht.elim (⟨_, ·⟩) (⟨_, ·⟩)) fun _ _ => id
  | build => cases hp; exact inPhase buildBody_ready
  | encode => cases hp; exact inPhase encodeBody_ready
  | decode => cases hp; exact inPhase decodeBody_ready
  | verify => cases hp; exact inPhase verifyBody_ready.ofSure

theorem runBody_ready :
    Triple (fun s => s.params.legal = true) runBody (State.Ready .done) (TookError RangesAtRaise) :=
  runBody_triple (I := State.Ready) (fun _ => State.initialise_ready) countBody_ready.ofSure heapifyBody_ready
    buildBody_ready encodeBody_ready decodeBody_ready verifyBody_ready.ofSure

theorem exec_dataSound {i : Instr} {s t : State} (hl : s.params.legal = true) (hs : s.DataSound)
    (h : exec i s = .next t) : t.DataSound := by
  cases exec_next h with
  | nop | discarded => exact hs
  | init => exact (State.initialise_ready hl).dataSound
  | ran _ hok => exact (runBody_ready.ok hl hok).dataSound
  | runRaised _ hr =>
    obtain ⟨op, u, hu, rfl⟩ := runBody_ready.stop hl hr _ rfl
    exact .takeError (hu _ rfl) _ _
  | outOfPhase => exact .takeError hs.ranges _ _
  | completed hp hsp hok =>
    obtain ⟨q, ht⟩ := (componentBody_ready hp).ok ⟨hl, hs.ranges, hsp, hsp ▸ hs.law⟩ hok
    exact ht.dataSound
  | raised hp _ hsp hr =>
    exact .takeError ((componentBody_ready hp).stop ⟨hl, hs.ranges, hsp, hsp ▸ hs.law⟩ hr _ rfl) _ _

/-! ### Every step keeps the laws -/

theorem State.SameData.complete (s : State) : s.SameData s.complete := { State.SameData.refl s with }

theorem illegalCommand_dataSound {s : State} (hs : s.DataSound) (c : Word) : (s.illegalCommand c).DataSound := by
  unfold State.illegalCommand
  split
  · exact hs
  · exact .takeError hs.ranges _ _

/-- A host access writes no data but INBUF's bytes and CODEBUF's words, and keeps their numbers. -/
theorem hostAccess_sameData {s t : State} {a : Access} (h : s.hostAccess a = .next t) : s.SameData t := by
  obtain ⟨-, -, -, rfl⟩ := hostAccess_next h
  have hs := State.SameData.refl s
  split
  · rcases hostWrite_cases s (a.addr - s.base) a.data with ⟨-, h⟩ | h | ⟨-, h | ⟨k, h⟩ | ⟨w, h⟩⟩ <;> rw [h]
    · exact { hs with }
    · exact hs
    · exact { hs with }
    · exact { hs with inputLen := writeLanes_length _ _ _ }
    · exact { hs with codeWords := List.length_set }
  · rcases hostRead_cases s (a.addr - s.base) with h | h <;> rw [h] <;> exact { hs with }

theorem step_dataSound {s t : State} (hl : s.params.legal = true) (hs : s.DataSound) (h : step s = .next t) :
    t.DataSound := by
  have hrest (rest : List Event) : State.DataSound { s with events := rest } :=
    State.SameData.dataSound { State.SameData.refl s with } hs
  rcases step_next h with ⟨rest, a, ha⟩ | ⟨rest, -, hb⟩ | ⟨-, rest, level, rfl⟩ | ⟨rest, rfl⟩
  · exact (hostAccess_sameData ha).dataSound (hrest rest)
  · rcases blockTurn_next hb with rfl | ⟨c, i, u, -, -, -, hu, rfl⟩ | ⟨c, -, -, -, -, rfl⟩
    · exact hrest rest
    · exact (State.SameData.complete u).dataSound (exec_dataSound (s := { s with events := rest }) hl (hrest rest) hu)
    · exact (State.SameData.complete _).dataSound (illegalCommand_dataSound (hrest rest) c)
  · exact State.SameData.dataSound { State.SameData.refl s.initialise with } (State.initialise_ready hl).dataSound
  · exact hrest rest

/-- Settles O59: Basic is kept by BasicSoundnessKept, and the laws of the data by what each command leaves in
its phase; the heap's laws are carried by the forest of trees under way. -/
theorem invariantKept : Obligations.InvariantKept := fun s t hs h =>
  have ⟨hb, hd⟩ := State.inv_iff.1 hs
  State.inv_iff.2 ⟨basicSoundnessKept s t hb h, step_dataSound hb.1 hd h⟩

end Sys2Proof.Machine

/-!
The phase a command leaves, from any state: HEAP_SIZE is followed through MERGE on any heap, sound or not.
-/

namespace Sys2Proof.Machine

/-! ### The phase a command leaves -/

/-- Of any piece, nothing said. -/
theorem Triple.anything {ε σ α : Type} {P : σ → Prop} (x : EStateM ε σ α) :
    Triple P x (fun _ => True) fun _ _ => True := ⟨fun _ _ => trivial, fun _ _ => trivial⟩

/-- BUILD's loop ends only in BUILT. -/
theorem buildLoop_phase (fuel : Nat) :
    Triple (fun _ => True) (buildLoop fuel) (fun t => t.phase = .built) fun _ _ => True := by
  induction fuel with
  | zero => exact ⟨nofun, fun _ _ => trivial⟩
  | succ fuel ih =>
    refine .bind (.anything _) fun _ => .get_bind_eq fun s _ => ?_
    split
    · rename_i hp
      exact ⟨fun hs hr => by cases hr; exact hs ▸ hp, nofun⟩
    · exact ih.at_state trivial

/-- A component command other than MERGE that ends normally leaves the phase of the table (10_state.md R27). -/
theorem componentBody_phase {i : Instr} {p : Phase} (hp : requiredPhase i = some p) (h : i ≠ .merge) (s t : State) :
    Triple (fun _ => True) (componentBody i) (fun u => u.phase = phaseAfter i s t) fun _ _ => True := by
  have count : Triple (fun _ => True) countBody (fun u => u.phase = .counted) fun _ _ => True :=
    .bind (.anything _) fun _ => .bind (.anything _) fun _ => .bind (.anything _) fun _ => .modify fun _ _ => rfl
  have verify : Triple (fun _ => True) verifyBody (fun u => u.phase = .done) fun _ _ => True := by
    refine .get_bind fun s _ => ?_
    split
    · exact ⟨nofun, fun _ _ => trivial⟩
    · exact .modify fun _ _ => rfl
  cases i with
  | nop | init | run => cases hp
  | merge => exact absurd rfl h
  | count => exact (count.ofSure (R := fun _ => True)).weaken (fun _ => id) (fun _ => id) fun _ _ _ => trivial
  | verify => exact (verify.ofSure (R := fun _ => True)).weaken (fun _ => id) (fun _ => id) fun _ _ _ => trivial
  | build => exact .bind (.anything _) fun s => buildLoop_phase _
  | heapify | encode | decode =>
    exact .bind (.anything _) fun _ => .bind (.anything _) fun _ => .modify fun _ _ => rfl

/-! ### HEAP_SIZE, on any heap -/

/-- A reader leaves the data; of its stops, nothing said. -/
theorem Triple.ofRead {σ α : Type} {P : σ → Prop} (x : Except Stop α) :
    Triple P (ofRead x) P fun _ _ => True where
  ok hs hr := (ofRead_ok.1 hr).2 ▸ hs
  stop _ _ := trivial

section Sizes

variable (z : Nat)

/-- The piece keeps HEAP_SIZE when it ends normally. -/
abbrev KeepsSize {α : Type} (x : Act Heap α) : Prop :=
  Triple (fun h => h.size.toNat = z) x (fun h => h.size.toNat = z) fun _ _ => True

theorem heapWrite_keepsSize (j : Nat) (n : Node) : KeepsSize z (heapWrite j n) where
  ok hs hr := by
    obtain ⟨-, rfl⟩ := heapWrite_ok.1 hr
    exact hs
  stop _ _ := trivial

theorem heapSwap_keepsSize (i j : Nat) : KeepsSize z (heapSwap i j) :=
  .get_bind fun _ _ => .bind (.ofRead _) fun b => .bind (.ofRead _) fun a =>
    .bind (heapWrite_keepsSize z i a) fun _ => heapWrite_keepsSize z j b

theorem siftDown_keepsSize (fuel i : Nat) : KeepsSize z (siftDown fuel i) := by
  induction fuel generalizing i with
  | zero => exact .pure ()
  | succ fuel ih =>
    exact .get_bind fun _ _ => .bind (.ofRead _) fun _ => .bind (.ofRead _) fun m =>
      .ite (.pure ()) (.bind (heapSwap_keepsSize z i m) fun _ => ih m)

theorem siftUp_keepsSize (fuel i : Nat) : KeepsSize z (siftUp fuel i) := by
  induction fuel generalizing i with
  | zero => exact .pure ()
  | succ fuel ih =>
    exact .ite (.get_bind fun _ _ => .bind (.ofRead _) fun _ =>
      .ite (.bind (heapSwap_keepsSize z _ _) fun _ => ih _) (.pure ())) (.pure ())

/-- HeapPop lowers HEAP_SIZE by one (41_heap.md R126). -/
theorem heapPop_size :
    Triple (fun h => h.size.toNat = z) heapPop (fun h => h.size.toNat = z - 1) fun _ _ => True := by
  refine .get_bind fun h hz => .bind (.ofRead _) fun m => ?_
  have hlt := h.size.isLt
  have shrink : Triple (fun h => h.size.toNat = z) (setHeapSize (h.size.toNat - 1)) (fun h => h.size.toNat = z - 1)
      fun _ _ => True := .modify fun _ _ => by rw [BitVec.toNat_ofNat]; omega
  have last : KeepsSize (z - 1) (do
      heapWrite (h.size.toNat - 1) unusedNode
      if 0 < h.size.toNat - 1 then siftDown (h.size.toNat - 1) 0
      pure m) :=
    .bind (heapWrite_keepsSize _ _ _) fun _ => .guarded (siftDown_keepsSize _ _ _) fun _ => .pure m
  exact .bind shrink fun _ => .ite (.bind (.ofRead _) fun n => .bind (heapWrite_keepsSize _ 0 n) fun _ => last) last

/-- HeapInsert raises HEAP_SIZE by one, when its field has room (41_heap.md R127). -/
theorem heapInsert_size (hz : z + 1 < 128) (n : Node) :
    Triple (fun h => h.size.toNat = z) (heapInsert n) (fun h => h.size.toNat = z + 1) fun _ _ => True :=
  have push : Triple (fun h => h.size.toNat = z) (heapPush n) (fun h => h.size.toNat = z + 1) fun _ _ => True :=
    .get_bind fun h hh => .bind (heapWrite_keepsSize z _ n) fun _ =>
      .modify fun _ _ => by rw [BitVec.toNat_ofNat, hh]; omega
  .bind push fun _ => .get_bind fun _ _ => siftUp_keepsSize _ _ _

/-- In phase `p` with HEAP_SIZE `z`. -/
def State.At (p : Phase) (s : State) : Prop := s.phase = p ∧ s.heap.size.toNat = z

variable {z}

theorem onHeap_at {α : Type} {x : Act Heap α} {p : Phase} {z' : Nat}
    (hx : Triple (fun h => h.size.toNat = z) x (fun h => h.size.toNat = z') fun _ _ => True) :
    Triple (State.At z p) (onHeap x) (State.At z' p) fun _ _ => True :=
  .onPart fun _ ⟨hp, hz⟩ => (hx.at_state hz).weaken (fun _ => id) (fun _ hz' => ⟨hp, hz'⟩) fun _ _ => id

theorem onTree_at {α : Type} (x : Act Tree α) (p : Phase) :
    Triple (State.At z p) (onTree x) (State.At z p) fun _ _ => True :=
  .onPart fun _ hs => (Triple.anything x).weaken (fun _ _ => trivial) (fun _ _ => hs) fun _ _ => id

/-- MergeIteration keeps the phase and lowers HEAP_SIZE by one (42_tree.md R141). -/
theorem mergeIteration_at (p : Phase) (hz : z + 2 < 128) :
    Triple (State.At (z + 2) p) mergeIteration (State.At (z + 1) p) fun _ _ => True :=
  have append (n : Node) : Triple (State.At z p) (appendIfNew n) (State.At z p) fun _ _ => True :=
    .ite (onTree_at _ p) (.pure n)
  .bind (onHeap_at (heapPop_size _)) fun a => .bind (onHeap_at (heapPop_size _)) fun b =>
    .bind (append a) fun _ => .bind (append b) fun _ => .bind (onTree_at _ p) fun m =>
      onHeap_at (heapInsert_size z (by omega) m)

/-- Finalize leaves BUILT, with the same HEAP_SIZE (42_tree.md R143). -/
theorem finalize_at (p : Phase) : Triple (State.At z p) finalize (State.At z .built) fun _ _ => True := by
  have close (n : Node) : Triple (State.At z p) (do
      modify fun s => { s with root := n.insertedAt }
      modify (State.setPhase .built)) (State.At z .built) fun (_ : Stop) _ => True :=
    .bind (R := State.At z p) (.modify fun _ hs => hs) fun _ => .modify fun _ hs => ⟨rfl, hs.2⟩
  refine .get_bind fun s _ => .bind (.ofRead _) fun n => .ite ?_ (.bind (.pure n) close)
  exact .bind (onTree_at _ p) fun n => .bind (onHeap_at (heapWrite_keepsSize z 0 n)) fun _ => .bind (.pure n) close

end Sizes

/-- MERGE in HEAPED leaves HEAPED while more than one node is left, and BUILT otherwise (10_state.md R27). -/
theorem mergeBody_phase {s t : State} (h1 : 1 ≤ s.heap.size.toNat) (hr : mergeBody s = .ok () t)
    (hp : s.phase = .heaped) : t.phase = if 1 < t.heap.size.toNat then .heaped else .built := by
  have tail (u : State) (hu : u.phase = .heaped ∧ 1 ≤ u.heap.size.toNat)
      (hr : (if u.heap.size.toNat = 1 then finalize else pure ()) u = .ok () t) :
      t.phase = if 1 < t.heap.size.toNat then .heaped else .built := by
    split at hr
    · rename_i h1
      obtain ⟨hphase, hsize⟩ := (finalize_at .heaped).ok ⟨hu.1, h1⟩ hr
      rw [hphase, hsize, if_neg (by omega)]
    · cases hr
      rw [hu.1, if_pos (by omega)]
  by_cases h2 : 2 ≤ s.heap.size.toNat
  · have hlt := s.heap.size.isLt
    have hr' := hr
    rw [mergeBody, act_bind_run (act_get s), if_pos h2] at hr'
    obtain ⟨_, u, hu, -⟩ := act_bind_ok.1 hr'
    obtain ⟨hphase, hsize⟩ :=
      (mergeIteration_at (z := s.heap.size.toNat - 2) .heaped (by omega)).ok ⟨hp, by omega⟩ hu
    exact tail u ⟨hphase, by omega⟩ (mergeBody_merge h2 hu ▸ hr)
  · exact tail s ⟨hp, h1⟩ (mergeBody_skip h2 ▸ hr)

/-- RUN ends normally in DONE. -/
theorem runBody_phase : Triple (fun _ => True) runBody (fun t => t.phase = .done) (TookError fun _ _ => True) :=
  have stage {i : Instr} {p q : Phase} (hp : requiredPhase i = some p) (hm : i ≠ .merge)
      (hq : phaseAfter i State.reset State.reset = q) :
      Triple (fun u => u.phase = p) (componentBody i) (fun u => u.phase = q) fun _ _ => True :=
    (componentBody_phase hp hm _ _).weaken (fun _ _ => trivial) (fun _ hu => hu.trans hq) fun _ _ => id
  runBody_triple (I := fun p u => u.phase = p) (fun _ _ => rfl) (stage rfl nofun rfl) (stage rfl nofun rfl)
    (stage rfl nofun rfl) (stage rfl nofun rfl) (stage rfl nofun rfl) (stage rfl nofun rfl)

/-- Settles O8, by what a command can answer: a body that ends normally leaves its phase, an error leaves ERROR. -/
theorem phaseAfterCommand : Obligations.PhaseAfterCommand := by
  intro i s t hmerge h
  cases exec_next h with
  | nop hi => subst hi; exact ⟨fun _ => .inl rfl, nofun⟩
  | init hi => subst hi; exact ⟨fun _ => .inl rfl, nofun⟩
  | ran hi hok => subst hi; exact ⟨fun _ => .inl (runBody_phase.ok trivial hok), nofun⟩
  | runRaised hi hr =>
    subst hi
    obtain ⟨op, u, -, rfl⟩ := runBody_phase.stop trivial hr _ rfl
    exact ⟨fun _ => .inr ⟨rfl, rfl⟩, nofun⟩
  | discarded hp he => exact ⟨fun hn => (nomatch hp.symm.trans hn), fun _ _ => .inl ⟨he, rfl⟩⟩
  | outOfPhase hp he hne =>
    refine ⟨fun hn => (nomatch hp.symm.trans hn), fun q hq => .inr (.inl ⟨he, ?_, rfl, rfl⟩)⟩
    cases hp.symm.trans hq
    exact hne
  | completed hp hsp hok =>
    refine ⟨fun hn => (nomatch hp.symm.trans hn), fun q hq => .inr (.inr ⟨?_, .inr ?_⟩)⟩
    · cases hp.symm.trans hq
      exact hsp
    · by_cases hi : i = .merge
      · subst hi
        cases hp
        exact mergeBody_phase (hmerge rfl) hok hsp
      · exact (componentBody_phase hp hi s t).ok trivial hok
  | raised hp he hsp hr =>
    refine ⟨fun hn => (nomatch hp.symm.trans hn), fun q hq => .inr (.inr ⟨?_, .inl rfl⟩)⟩
    cases hp.symm.trans hq
    exact hsp

end Sys2Proof.Machine

/-!
The frame of MERGE and BUILD, from any state.
-/

namespace Sys2Proof.Machine

/-! ### TREE only grows -/

/-- `t'` is `t` with nodes appended: TREE_SIZE does not fall, and the slots below the old and from the new
TREE_SIZE on are the same (10_state.md R44). -/
structure Tree.GrownTo (t t' : Tree) : Prop where
  size : t.size.toNat ≤ t'.size.toNat
  below : ∀ j < t.size.toNat, t'.slots[j]? = t.slots[j]?
  above : ∀ j, t'.size.toNat ≤ j → t'.slots[j]? = t.slots[j]?

theorem Tree.GrownTo.refl (t : Tree) : t.GrownTo t := ⟨le_rfl, fun _ _ => rfl, fun _ _ => rfl⟩

/-- One more node appended. -/
theorem Tree.GrownTo.grown {t t' : Tree} (h : t.GrownTo t') (n : Node) (ht : t'.size.toNat < 189) :
    t.GrownTo (t'.grown n) := by
  have hsize := Tree.grown_size n ht
  have hslot {j : Nat} (hj : t'.size.toNat ≠ j) : (t'.grown n).slots[j]? = t'.slots[j]? := by
    rw [Tree.grown, Vector.getElem?_setIfInBounds, if_neg hj]
  refine ⟨by have := h.size; omega, fun j hj => ?_, fun j hj => ?_⟩
  · exact (hslot (by have := h.size; omega)).trans (h.below j hj)
  · exact (hslot (by omega)).trans (h.above j (by omega))

/-- TreeAppend lets TREE grow, however it ends. -/
theorem treeAppend_grows (t : Tree) (n : Node) : Keeps t.GrownTo Stop.Named (treeAppend n) where
  ok ht hr := by
    obtain ⟨hlt, rfl, rfl⟩ := treeAppend_ok.1 hr
    exact ht.grown n hlt
  stop ht hr := by
    obtain ⟨-, rfl, rfl⟩ := treeAppend_error.1 hr
    exact ⟨ht, trivial⟩

/-! ### What MERGE and BUILD write -/

/-- The states differ only in HEAP, TREE, ROOT, PHASE and the error registers, TREE having grown. -/
structure State.Merged (s t : State) : Prop where
  frame : t = { s with heap := t.heap, tree := t.tree, root := t.root, phase := t.phase, errCode := t.errCode,
                       errOp := t.errOp, errInfo := t.errInfo }
  tree : s.tree.GrownTo t.tree

namespace State.Merged

variable (s : State)

theorem refl : s.Merged s := ⟨rfl, .refl _⟩

/-- A piece over HEAP writes only HEAP. -/
theorem onHeap {α : Type} {x : Act Heap α} (hx : RaisesNamed x) : Keeps s.Merged Stop.Named (onHeap x) :=
  onHeap_keeps hx fun _ _ hu => ⟨by rw [hu.frame]; rfl, hu.tree⟩

/-- A TreeAppend in the state writes only TREE, which grows. -/
theorem append (n : Node) : Keeps s.Merged Stop.Named (onTree (treeAppend n)) :=
  (treeAppend_grows s.tree n).onPart (fun _ hu => hu.tree) fun _ _ hu ht => ⟨by rw [hu.frame]; rfl, ht⟩

theorem appendIfNew (n : Node) : Keeps s.Merged Stop.Named (appendIfNew n) := .ite (append s n) (.pure n)

theorem mergeIteration : Keeps s.Merged Stop.Named mergeIteration :=
  .bind (onHeap s heapPop_named) fun a => .bind (onHeap s heapPop_named) fun b =>
    .bind (appendIfNew s a) fun _ => .bind (appendIfNew s b) fun _ =>
      .bind (append s _) fun m => onHeap s (heapInsert_named m)

theorem finalize : Keeps s.Merged Stop.Named finalize := by
  have close (n : Node) : Keeps s.Merged Stop.Named (do
      modify fun s => { s with root := n.insertedAt }
      modify (State.setPhase .built)) :=
    .bind (R := s.Merged) (.modify fun _ hu => ⟨by rw [hu.frame], hu.tree⟩) fun _ =>
      .modify fun _ hu => ⟨by rw [hu.frame]; rfl, hu.tree⟩
  refine .get_bind fun u _ => .bind (u.heap.read_stops 0).keeps fun n => .ite ?_ (.bind (.pure n) close)
  exact .bind (append s n) fun n => .bind (onHeap s (heapWrite_named 0 n)) fun _ => .bind (.pure n) close

theorem mergeBody : Keeps s.Merged Stop.Named mergeBody :=
  .get_bind fun _ _ => .guarded (mergeIteration s) fun _ => .get_bind fun _ _ => .ite (finalize s) (.pure ())

theorem buildLoop (fuel : Nat) : Keeps s.Merged Stop.Named (buildLoop fuel) := by
  induction fuel with
  | zero => exact .throw trivial
  | succ fuel ih => exact .bind (mergeBody s) fun _ => .get_bind fun _ _ => .ite (.pure ()) ih

theorem componentBody {i : Instr} (hi : i = .merge ∨ i = .build) : Keeps s.Merged Stop.Named (componentBody i) := by
  rcases hi with rfl | rfl
  · exact mergeBody s
  · exact .get_bind fun _ _ => buildLoop s _

theorem takeError {s u : State} (op : BitVec 8) (r : Raise) (hu : s.Merged u) : s.Merged (u.takeError op r) :=
  ⟨by rw [hu.frame]; rfl, hu.tree⟩

theorem exec {i : Instr} {s t : State} (hi' : i = .merge ∨ i = .build) (h : exec i s = .next t) : s.Merged t := by
  cases exec_next h with
  | nop | discarded => exact refl _
  | init hi => rcases hi' with rfl | rfl <;> cases hi
  | ran hi => rcases hi' with rfl | rfl <;> cases hi
  | runRaised hi => rcases hi' with rfl | rfl <;> cases hi
  | outOfPhase => exact takeError _ _ (refl s)
  | completed _ _ hok => exact (componentBody s hi').ok (refl s) hok
  | raised _ _ _ hr => exact takeError _ _ ((componentBody s hi').stop (refl s) hr).1

end State.Merged

/-- Settles O42: every piece of MERGE keeps the frame, and TREE is written by TreeAppend only. -/
theorem mergeAndBuildFrame : Obligations.MergeAndBuildFrame := fun _ _ _ hi h =>
  have ⟨frame, tree⟩ := State.Merged.exec hi h
  ⟨frame, tree.size, tree.below, tree.above⟩

end Sys2Proof.Machine

/-!
OVERRUN: a discarded write sets it, and no command reads it.
-/

namespace Sys2Proof.Machine

/-! ### Pieces that do not see a change -/

/-- The result with the state changed by `f`. -/
def mapState {ε σ α : Type} (f : σ → σ) : EStateM.Result ε σ α → EStateM.Result ε σ α
  | .ok a s => .ok a (f s)
  | .error e s => .error e (f s)

/-- The piece does not see whether `f` has changed the state: run on the changed state it does the same, and
leaves the state changed. -/
def Blind {ε σ α : Type} (f : σ → σ) (x : EStateM ε σ α) : Prop := ∀ s, x (f s) = mapState f (x s)

namespace Blind

variable {ε σ τ α β : Type} {f : σ → σ}

theorem pure (a : α) : Blind f (pure a : EStateM ε σ α) := fun _ => rfl

theorem throw (e : ε) : Blind f (throw e : EStateM ε σ α) := fun _ => rfl

theorem bind {x : EStateM ε σ α} {g : α → EStateM ε σ β} (hx : Blind f x) (hg : ∀ a, Blind f (g a)) :
    Blind f (x >>= g) := fun s => by
  change EStateM.bind x g (f s) = mapState f (EStateM.bind x g s)
  unfold EStateM.bind
  rw [hx s]
  cases x s with
  | ok a t => exact hg a t
  | error e t => rfl

/-- What follows `get` must not tell the two states apart. -/
theorem get_bind {g : σ → EStateM ε σ β} (hread : ∀ s, g (f s) = g s) (hg : ∀ s, Blind f (g s)) :
    Blind f (get >>= g) := fun s => (congrFun (hread s) (f s)).trans (hg s s)

theorem modify {g : σ → σ} (h : ∀ s, g (f s) = f (g s)) : Blind f (modify g : EStateM ε σ PUnit) := fun s => by
  rw [act_modify, act_modify, h]
  rfl

theorem ite {c : Prop} [Decidable c] {x y : EStateM ε σ α} (hx : Blind f x) (hy : Blind f y) :
    Blind f (if c then x else y) := by
  split
  · exact hx
  · exact hy

theorem guarded {c : Prop} [Decidable c] {x : EStateM ε σ Unit} {k : Unit → EStateM ε σ β} (hx : Blind f x)
    (hk : ∀ a, Blind f (k a)) : Blind f (if c then x >>= k else k ()) := .ite (hx.bind hk) (hk ())

/-- A piece over a component that `f` does not change. -/
theorem onPart {get : σ → τ} {put : τ → σ → σ} (x : EStateM ε τ α) (hget : ∀ s, get (f s) = get s)
    (hput : ∀ u s, put u (f s) = f (put u s)) : Blind f (onPart get put x) := fun s => by
  unfold Machine.onPart
  rw [hget]
  cases x (get s) <;> simp only [mapState, hput]

theorem ofRead {f : σ → σ} (x : Except Stop α) : Blind f (ofRead x) := fun s => by
  unfold Machine.ofRead
  cases x <;> rfl

theorem ofSure {f : σ → σ} {x : SureAct σ α} (hx : Blind f x) : Blind f (ofSure x) := fun s => by
  unfold Machine.ofSure
  rw [hx s]
  cases x s <;> rfl

end Blind

/-! ### No command reads OVERRUN -/

/-- The state with OVERRUN replaced. -/
def State.putOverrun (b : Bool) (s : State) : State := { s with overrun := b }

section Overrun

variable (b : Bool)

theorem onHeap_blind {α : Type} (x : Act Heap α) : Blind (State.putOverrun b) (onHeap x) :=
  .onPart x (fun _ => rfl) fun _ _ => rfl

theorem onTree_blind {α : Type} (x : Act Tree α) : Blind (State.putOverrun b) (onTree x) :=
  .onPart x (fun _ => rfl) fun _ _ => rfl

theorem appendIfNew_blind (n : Node) : Blind (State.putOverrun b) (appendIfNew n) :=
  .ite (onTree_blind b _) (.pure n)

theorem mergeIteration_blind : Blind (State.putOverrun b) mergeIteration :=
  .bind (onHeap_blind b _) fun a => .bind (onHeap_blind b _) fun c => .bind (appendIfNew_blind b a) fun _ =>
    .bind (appendIfNew_blind b c) fun _ => .bind (onTree_blind b _) fun _ => onHeap_blind b _

theorem finalize_blind : Blind (State.putOverrun b) finalize := by
  have close (n : Node) : Blind (State.putOverrun b) (do
      modify fun s => { s with root := n.insertedAt }
      modify (State.setPhase .built) : Act State Unit) := .bind (.modify fun _ => rfl) fun _ => .modify fun _ => rfl
  refine .get_bind (fun _ => rfl) fun s => .bind (.ofRead _) fun n => .ite ?_ (.bind (.pure n) close)
  exact .bind (onTree_blind b _) fun n => .bind (onHeap_blind b _) fun _ => .bind (.pure n) close

theorem mergeBody_blind : Blind (State.putOverrun b) mergeBody :=
  .get_bind (fun _ => rfl) fun _ => .guarded (mergeIteration_blind b) fun _ =>
    .get_bind (fun _ => rfl) fun _ => .ite (finalize_blind b) (.pure ())

theorem buildLoop_blind (fuel : Nat) : Blind (State.putOverrun b) (buildLoop fuel) := by
  induction fuel with
  | zero => exact .throw _
  | succ fuel ih => exact .bind (mergeBody_blind b) fun _ => .get_bind (fun _ => rfl) fun _ => .ite (.pure ()) ih

theorem verifyBody_blind : Blind (State.putOverrun b) verifyBody := fun s => by
  rw [verifyBody, act_bind_run (act_get s), act_bind_run (act_get _)]
  change (match firstMismatch s.out 0 s.inbuf with | some k => _ | none => _ : SureAct State Unit) _ = _
  cases firstMismatch s.out 0 s.inbuf <;> rfl

theorem componentBody_blind (i : Instr) : Blind (State.putOverrun b) (componentBody i) := by
  cases i with
  | nop | init | run => exact .pure ()
  | count =>
    exact .ofSure (.get_bind (fun _ => rfl) fun _ => .bind (.onPart _ (fun _ => rfl) fun _ _ => rfl) fun _ =>
      .bind (.modify fun _ => rfl) fun _ => .modify fun _ => rfl)
  | heapify => exact .get_bind (fun _ => rfl) fun _ => .bind (onHeap_blind b _) fun _ => .modify fun _ => rfl
  | merge => exact mergeBody_blind b
  | build => exact .get_bind (fun _ => rfl) fun _ => buildLoop_blind b _
  | encode =>
    exact .get_bind (fun _ => rfl) fun _ => .bind (.onPart _ (fun _ => rfl) fun _ _ => rfl) fun _ =>
      .modify fun _ => rfl
  | decode =>
    exact .get_bind (fun _ => rfl) fun _ => .bind (.onPart _ (fun _ => rfl) fun _ _ => rfl) fun _ =>
      .modify fun _ => rfl
  | verify => exact .ofSure (verifyBody_blind b)

theorem inStage_blind (op : BitVec 8) {body : Act State Unit} (hb : Blind (State.putOverrun b) body) :
    Blind (State.putOverrun b) (inStage op body) := fun s => by
  unfold inStage
  rw [hb s]
  cases body s with
  | ok a t => rfl
  | error e t => cases e <;> rfl

/-- The answer with a next state's OVERRUN replaced. -/
def withOverrun : Host.Outcome State Fault Refusal → Host.Outcome State Fault Refusal
  | .next t => .next (t.putOverrun b)
  | .fault f => .fault f
  | .refused why => .refused why

theorem answer_mapState (r : EStateM.Result Stop State Unit) :
    answer (mapState (State.putOverrun b) r) = withOverrun b (answer r) := by
  cases r with
  | ok a t => rfl
  | error e t => cases e <;> rfl

/-- A component command answers the same but for OVERRUN, which it keeps. -/
theorem component_putOverrun (op : BitVec 8) (need : Phase) {body : Act State Unit}
    (hb : Blind (State.putOverrun b) body) (s : State) :
    component op need body (s.putOverrun b) = withOverrun b (component op need body s) := by
  have hphase : (s.putOverrun b).phase = s.phase := rfl
  unfold component
  rw [hphase]
  split
  · rfl
  split
  · rw [inStage_blind b op hb s, answer_mapState]
  · rfl

theorem exec_component_putOverrun {i : Instr} {p : Phase} (hp : requiredPhase i = some p) (s : State) :
    exec i (s.putOverrun b) = withOverrun b (exec i s) := by
  rw [exec_component hp, exec_component hp]
  exact component_putOverrun b _ _ (componentBody_blind b i) s

end Overrun

/-- INIT and RUN clear OVERRUN, and so answer the same whatever it was. -/
theorem exec_putOverrun_clearing {i : Instr} (hi : i = .init ∨ i = .run) (b : Bool) (s : State) :
    exec i (s.putOverrun b) = exec i s := by
  rcases hi with rfl | rfl <;> rfl

/-- OVERRUN is written by no body, at any value. -/
theorem keptByWrites_overrun (b : Bool) : KeptByWrites fun u => u.overrun = b where
  hist _ _ hu := hu
  distinct _ _ hu := hu
  heap _ _ hu := hu
  tree _ _ hu := hu
  root _ _ hu := hu
  code _ _ hu _ := hu
  out _ _ hu _ := hu
  phase _ _ hu := hu

/-- A command other than INIT and RUN keeps OVERRUN. -/
theorem exec_overrun {i : Instr} {s t : State} (hi : ¬ (i = .init ∨ i = .run)) (h : exec i s = .next t) :
    t.overrun = s.overrun :=
  (keptByWrites_overrun s.overrun).exec (fun _ _ _ hu => hu) (fun h => absurd h hi) rfl h

/-- INIT and RUN leave OVERRUN clear. -/
theorem exec_overrun_cleared {i : Instr} {s t : State} (hi : i = .init ∨ i = .run) (h : exec i s = .next t) :
    t.overrun = false :=
  (keptByWrites_overrun false).exec (s := s.putOverrun false) (fun _ _ _ hu => hu) (fun _ => rfl) rfl
    ((exec_putOverrun_clearing hi false s).trans h)

/-- The offsets the host may write name writable locations (20_memory.md R61, R66). -/
theorem locationAt_writable {s : State} {off : Nat} (hl : s.params.legal = true) (hw : s.HostWritable off) :
    (s.locationAt off).writable = true := by
  obtain ⟨-, hN, -⟩ := s.legal_bounds hl
  have hsym : symbolWords s.inputLen = (s.inputLen + 3) / 4 := rfl
  unfold State.locationAt locate
  rcases hw with rfl | ⟨h1, h2⟩ | ⟨h1, h2⟩
  · rfl
  · rw [hsym]
    repeat rw [if_neg (by omega)]
    rw [if_pos (by omega)]
    rfl
  · rw [hsym]
    repeat rw [if_neg (by omega)]
    rw [if_pos (by omega)]
    rfl

/-- A host access never clears OVERRUN. -/
theorem hostAccess_overrun {s t : State} {a : Access} (h : s.hostAccess a = .next t) (hs : s.overrun = true) :
    t.overrun = true := by
  obtain ⟨-, -, -, rfl⟩ := hostAccess_next h
  split
  · rcases hostWrite_cases s (a.addr - s.base) a.data with ⟨-, h⟩ | h | ⟨-, h | ⟨k, h⟩ | ⟨w, h⟩⟩ <;> rw [h]
    · exact hs
    · exact hs
    · exact hs
    · exact hs
  · rcases hostRead_cases s (a.addr - s.base) with h | h <;> rw [h] <;> exact hs

theorem illegalCommand_overrun (s : State) (c : Word) : (s.illegalCommand c).overrun = s.overrun := by
  unfold State.illegalCommand
  split <;> rfl

/-- OVERRUN falls in a step only by reset, or by INIT or RUN in the block's turn. -/
theorem step_clears_overrun {s t : State} (h : step s = .next t) (hs : s.overrun = true) (ht : t.overrun = false) :
    s.ResetNext ∨
    ((∃ rest, s.BlockHasTurn rest) ∧ s.rstN = true ∧
      (s.pending = some (encodeWord .init) ∨ s.pending = some (encodeWord .run))) := by
  have hfall (hb : t.overrun = true) : False := Bool.false_ne_true (ht.symm.trans hb)
  rcases step_next h with ⟨rest, a, ha⟩ | ⟨rest, hturn, hb⟩ | ⟨hreset, -⟩ | ⟨rest, rfl⟩
  · exact (hfall (hostAccess_overrun ha hs)).elim
  · rcases blockTurn_next hb with rfl | ⟨c, i, u, hr, hc, hi, hu, rfl⟩ | ⟨c, why, hr, hc, hw, rfl⟩
    · exact (hfall hs).elim
    · have hword : s.pending = some (encodeWord i) := eq_encodeWord_of_decode hi ▸ hc
      by_cases hir : i = .init ∨ i = .run
      · exact .inr ⟨⟨rest, hturn⟩, hr, hir.imp (by rintro rfl; exact hword) (by rintro rfl; exact hword)⟩
      · exact (hfall ((exec_overrun hir hu).trans hs)).elim
    · exact (hfall ((illegalCommand_overrun _ c).trans hs)).elim
  · exact .inl hreset
  · exact (hfall hs).elim

/-- Settles O44: no body sees OVERRUN, and only INIT's values and reset clear it. -/
theorem overrunIsSticky : Obligations.OverrunIsSticky := by
  refine ⟨fun s off v hl hb _ hw => ?_, fun s t h hs ht => step_clears_overrun h hs ht, fun i s b => ?_⟩
  · rw [State.hostWrite, if_pos hb, if_pos (locationAt_writable hl hw)]
    rfl
  · by_cases hi : i = .init ∨ i = .run
    · have heq := exec_putOverrun_clearing hi b s
      refine ⟨fun t h => heq.trans ?_, fun f h => heq.trans h⟩
      rw [if_pos hi, ← exec_overrun_cleared hi h]
      exact h
    · have hexec : exec i (s.putOverrun b) = withOverrun b (exec i s) := by
        cases hp : requiredPhase i with
        | some p => exact exec_component_putOverrun b hp s
        | none =>
          cases i with
          | nop => rfl
          | init => exact absurd (.inl rfl) hi
          | run => exact absurd (.inr rfl) hi
          | count | heapify | merge | build | encode | decode | verify => cases hp
      refine ⟨fun t h => ?_, fun f h => hexec.trans (congrArg (withOverrun b) h)⟩
      rw [if_neg hi]
      exact hexec.trans (congrArg (withOverrun b) h)

end Sys2Proof.Machine

/-!
The fields of STATUS, and the invariant at power-on.
-/

namespace Sys2Proof.Machine

/-! ### STATUS -/

/-- The bits and fields of STATUS (10_state.md R23): each is found by passing the fields below it in the word. -/
theorem State.statusWord_fields (s : State) :
    s.statusWord.getLsbD 0 = s.busy ∧ s.statusWord.getLsbD 1 = s.overrun ∧ s.statusWord.getLsbD 2 = s.errorf ∧
    s.statusWord.getLsbD 3 = s.donef ∧ s.statusWord.extractLsb' 4 4 = s.errCode.value ∧
    s.statusWord.extractLsb' 8 4 = s.phase.value ∧ s.statusWord.extractLsb' 12 4 = 0#4 ∧
    s.statusWord.extractLsb' 16 8 = s.errOp ∧ s.statusWord.extractLsb' 24 8 = 0#8 := by
  refine ⟨?_, ?_, ?_, ?_, ?fields⟩
  case fields =>
    simp (disch := decide) only [State.statusWord, BitVec.extractLsb'_append_eq_of_le,
      BitVec.extractLsb'_append_eq_of_add_le, Nat.reduceSub, BitVec.extractLsb'_eq_self, and_self]
  all_goals
    simp only [State.statusWord, BitVec.getLsbD_append]
    simp

/-- Settles O48, by the fields of the word; the numbers of the codes by evaluation. -/
theorem statusWordFields : Obligations.StatusWordFields := by
  refine ⟨fun s => ?_, by decide, by decide⟩
  obtain ⟨hbusy, hoverrun, herrorf, hdonef, herrCode, hphase, hlow, herrOp, hhigh⟩ := s.statusWord_fields
  refine ⟨hbusy, hoverrun, herrorf.trans (beq_eq_decide ..), hdonef.trans (beq_eq_decide ..), herrCode, hphase,
    hlow, herrOp, hhigh, fun hr hp => ?_⟩
  obtain ⟨hcode, hop, -⟩ := hr.1 hp
  rw [herrCode, herrOp, hcode, hop]
  exact ⟨rfl, rfl⟩

/-! ### The reset state -/

/-- Settles O58: the reset values meet IDLE's laws, and every register in range is 0. -/
theorem invariantAtPowerOn : Obligations.InvariantAtPowerOn := by
  have hpower (p : Params) (hp : p.legal = true) : (State.powerOn p).Inv := by
    have hparams : (State.powerOn p).params = p := by
      simp [State.params, State.powerOn, State.cleared]
    have hbasic : (State.powerOn p).Basic :=
      ⟨by rw [hparams]; exact hp, powerOn_wf p, ⟨rfl, fun _ => rfl⟩, fun _ => ⟨rfl, rfl, rfl⟩, nofun⟩
    refine State.inv_iff.2 ⟨hbasic, ?_, ?_⟩
    · exact ⟨Nat.zero_le _, Nat.zero_le _, Nat.zero_le _, Nat.zero_le _, Nat.zero_le _⟩
    · exact ⟨rfl, rfl, rfl, rfl, rfl, rfl, rfl⟩
  exact ⟨hpower, hpower Config.chosen (by decide)⟩

end Sys2Proof.Machine

/-!
The host's window: which location each offset names, what a read and a write of it do, and the statements
of 20_memory.md.
-/

namespace Sys2Proof.Machine

/-! ### What an offset names -/

section Map

variable {s : State} {off : Nat}

theorem locationAt_register (h : off < 0x34) : s.locationAt off = registerAt off := if_pos (by omega)

theorem locationAt_hist (h1 : 0x400 ≤ off) (h2 : off < 0x57C) : s.locationAt off = .hist ((off - 0x400) / 4) := by
  simp (disch := omega) only [State.locationAt, locate, if_neg, if_pos]

theorem locationAt_heapWord (h1 : 0x1000 ≤ off) (h2 : off < 0x1BE0) :
    s.locationAt off = .heapWord ((off - 0x1000) / 32) ((off - 0x1000) % 32 / 4) := by
  simp (disch := omega) only [State.locationAt, locate, if_neg, if_pos]

theorem locationAt_treeWord (h1 : 0x2000 ≤ off) (h2 : off < 0x37A0) :
    s.locationAt off = .treeWord ((off - 0x2000) / 32) ((off - 0x2000) % 32 / 4) := by
  simp (disch := omega) only [State.locationAt, locate, if_neg, if_pos]

theorem locationAt_inbufWord (h : s.InbufOffset off) : s.locationAt off = .inbufWord ((off - 0x10000) / 4) := by
  obtain ⟨h1, h2⟩ := h
  simp (disch := omega) only [State.locationAt, locate, if_neg]
  exact if_pos h2

/-- INBUF's range ends below OUTBUF's in a legal instance (20_memory.md R61). -/
theorem locationAt_outbufWord (hl : s.params.legal = true) (h : s.OutbufOffset off) :
    s.locationAt off = .outbufWord ((off - 0x20000) / 4) := by
  obtain ⟨-, hN, -⟩ := s.legal_bounds hl
  obtain ⟨h1, h2⟩ := h
  simp (disch := omega) only [State.locationAt, locate, symbolWords, if_neg, if_pos]

/-- OUTBUF's range ends below CODEBUF's in a legal instance (20_memory.md R61). -/
theorem locationAt_codeWord (hl : s.params.legal = true) (h : s.CodeOffset off) :
    s.locationAt off = .codeWord ((off - 0x100000) / 4) := by
  obtain ⟨-, hN, -⟩ := s.legal_bounds hl
  obtain ⟨h1, h2⟩ := h
  simp (disch := omega) only [State.locationAt, locate, symbolWords, if_neg, if_pos]

/-- The offset of a CODEBUF word names it (20_memory.md R67). -/
theorem locationAt_codeWord_offset {w : Nat} (hl : s.params.legal = true) (hw : w < s.codeWords) :
    s.locationAt (0x100000 + 4 * w) = .codeWord w := by
  rw [locationAt_codeWord hl ⟨by omega, by omega⟩]
  exact congrArg Location.codeWord (by omega)

theorem registerAt_reserved (h : 0x34 ≤ off) : registerAt off = .reserved := by
  obtain ⟨k, rfl⟩ := Nat.exists_eq_add_of_le' h
  rfl

/-- The ranges between the regions name no element (20_memory.md R61). -/
theorem locationAt_reserved (h : s.ReservedOffset off) : s.locationAt off = .reserved := by
  obtain ⟨-, hstate, hin, hout, hcode⟩ := h
  unfold State.locationAt locate symbolWords
  rw [registerAt_reserved (by omega)]
  simp (disch := omega) only [if_neg, ite_self]

/-- The regions of R61 cover the window. -/
theorem State.region_cases (s : State) (h : off < 0x200000) :
    off < 0x34 ∨ (0x400 ≤ off ∧ off < 0x57C) ∨ (0x1000 ≤ off ∧ off < 0x1BE0) ∨ (0x2000 ≤ off ∧ off < 0x37A0) ∨
      s.InbufOffset off ∨ s.OutbufOffset off ∨ s.CodeOffset off ∨ s.ReservedOffset off := by
  simp only [State.ReservedOffset, StateOffset]
  tauto

/-- The only register the host may write is CMD (20_memory.md R66). -/
theorem registerAt_not_writable : ∀ off < 0x34, off ≠ 0x10 → (registerAt off).writable = false := by decide

/-- An offset the host may not write names a location it may not write (20_memory.md R66). -/
theorem locationAt_not_writable (hl : s.params.legal = true) (h : off < 0x200000) (hw : ¬ s.HostWritable off) :
    (s.locationAt off).writable = false := by
  rcases s.region_cases h with hr | ⟨h1, h2⟩ | ⟨h1, h2⟩ | ⟨h1, h2⟩ | hin | hout | hcode | hres
  · rw [locationAt_register hr]
    exact registerAt_not_writable off hr fun h => hw (.inl h)
  · rw [locationAt_hist h1 h2]; rfl
  · rw [locationAt_heapWord h1 h2]; rfl
  · rw [locationAt_treeWord h1 h2]; rfl
  · exact absurd (.inr (.inl hin)) hw
  · rw [locationAt_outbufWord hl hout]; rfl
  · exact absurd (.inr (.inr hcode)) hw
  · rw [locationAt_reserved hres]; rfl

/-- The registers a read during BUSY does not answer with their value (20_memory.md R71). -/
theorem registerAt_not_definedWhileBusy : ∀ off < 0x34, off % 4 = 0 → off ∉ [0x000, 0x004, 0x008, 0x00C, 0x014] →
    (registerAt off).definedWhileBusy = false := by decide

/-- A read during BUSY answers with the value of five registers and the reserved offsets only (20_memory.md R71). -/
theorem locationAt_not_definedWhileBusy (hl : s.params.legal = true) (h : off < 0x200000) (h4 : off % 4 = 0)
    (hnamed : off ∉ [0x000, 0x004, 0x008, 0x00C, 0x014]) (hnres : ¬ s.ReservedOffset off) :
    (s.locationAt off).definedWhileBusy = false := by
  rcases s.region_cases h with hr | ⟨h1, h2⟩ | ⟨h1, h2⟩ | ⟨h1, h2⟩ | hin | hout | hcode | hres
  · rw [locationAt_register hr]
    exact registerAt_not_definedWhileBusy off hr h4 hnamed
  · rw [locationAt_hist h1 h2]; rfl
  · rw [locationAt_heapWord h1 h2]; rfl
  · rw [locationAt_treeWord h1 h2]; rfl
  · rw [locationAt_inbufWord hin]; rfl
  · rw [locationAt_outbufWord hl hout]; rfl
  · rw [locationAt_codeWord hl hcode]; rfl
  · exact absurd hres hnres

end Map

/-! ### Reads and writes of an offset -/

/-- A read of a location whose value is defined (20_memory.md R71). -/
theorem hostRead_defined {s : State} {off : Nat}
    (h : s.busy = false ∨ (s.locationAt off).definedWhileBusy = true) :
    s.hostRead off = { s with readData := s.locationValue (s.locationAt off) } :=
  if_neg (by rcases h with h | h <;> simp [h])

theorem hostRead_draw {s : State} {off : Nat} (hb : s.busy = true)
    (h : (s.locationAt off).definedWhileBusy = false) :
    s.hostRead off = { s with readData := Config.busyDraw s.draws, draws := s.draws + 1 } :=
  if_pos (by simp [hb, h])

/-- The value read with BUSY = 0 at an offset whose location is known. -/
theorem hostRead_idle {s : State} {off : Nat} {l : Location} (hb : s.busy = false) (h : s.locationAt off = l) :
    (s.hostRead off).readData = s.locationValue l := by
  rw [hostRead_defined (.inl hb), h]

/-- A reserved offset reads 0, whatever BUSY is (20_memory.md R68, R71). -/
theorem hostRead_reserved {s : State} {off : Nat} (h : s.ReservedOffset off) :
    s.hostRead off = { s with readData := 0#32 } := by
  have hloc := locationAt_reserved h
  rw [hostRead_defined (.inr (by rw [hloc]; rfl)), hloc]
  rfl

/-- The effect of a write with BUSY = 0 at an offset whose location is known. -/
theorem hostWrite_idle {s : State} {off : Nat} {l : Location} (hb : s.busy = false) (h : s.locationAt off = l)
    (v : Word) : s.hostWrite off v = s.storeAt v l := by
  rw [State.hostWrite, h, hb]
  rfl

theorem storeAt_not_writable {l : Location} (h : l.writable = false) (s : State) (v : Word) :
    s.storeAt v l = s := by
  cases l
  case cmd | inbufWord | codeWord => cases h
  all_goals rfl

/-- A write of a location the host may not write has no effect, whatever BUSY is (20_memory.md R68, R70). -/
theorem hostWrite_not_writable {s : State} {off : Nat} (h : (s.locationAt off).writable = false) (v : Word) :
    s.hostWrite off v = s := by
  unfold State.hostWrite
  split
  · exact if_neg (by simp [h])
  · exact storeAt_not_writable h s v

/-- A write of a host-writable location during BUSY is discarded with OVERRUN (20_memory.md R70). -/
theorem hostWrite_busy {s : State} {off : Nat} (hb : s.busy = true) (h : (s.locationAt off).writable = true)
    (v : Word) : s.hostWrite off v = { s with overrun := true } := by
  rw [State.hostWrite, if_pos hb, if_pos h]
  rfl

/-- An access in the window and out of reset, by its width and alignment (20_memory.md R69). -/
theorem hostAccess_in_window {s : State} {a : Access} (hr : s.rstN = true) (h1 : s.base ≤ a.addr)
    (h2 : a.addr < s.base + 0x200000) :
    s.hostAccess a = if s.supports a = false then .refused .unsupportedAccess
      else .next (if a.write then s.hostWrite (a.addr - s.base) a.data else s.hostRead (a.addr - s.base)) := by
  have hwin : s.inWindow a = true := by simp [State.inWindow, Config.windowBytes, h1, h2]
  rw [State.hostAccess, if_neg (by simp [hr]), if_neg (by simp [hwin]), apply_ite Host.Outcome.next]

theorem supports_iff {s : State} {a : Access} :
    s.supports a = true ↔ a.bytes = 4 ∧ (a.addr - s.base) % 4 = 0 := by
  simp [State.supports]

/-! ### Node records and symbol lanes -/

/-- The words of a node record; bit 31 of word 2 is past the end of the symbol set (20_memory.md R64). -/
theorem Node.windowWord_eq (n : Node) (w : Nat) : n.windowWord w =
    if w = 0 then n.symbolSet.extractLsb' 0 32
    else if w = 1 then n.symbolSet.extractLsb' 32 32
    else if w = 2 then n.symbolSet.extractLsb' 64 32
    else if w = 3 then n.weight
    else if w = 4 then 0#8 ++ n.insertedAt ++ n.right ++ n.left
    else 0#32 := by
  match w with
  | 0 | 1 | 3 | 4 => rfl
  | 2 =>
    show (n.symbolSet.extractLsb' 64 31).setWidth 32 = n.symbolSet.extractLsb' 64 32
    refine BitVec.eq_of_getLsbD_eq fun i hi => ?_
    obtain hi' | rfl : i < 31 ∨ i = 31 := by omega
    · simp [hi, hi']
    · simp
  | _ + 5 => rfl

theorem hostRead_heapWord {s : State} {j w : Nat} (hb : s.busy = false) (hj : j < 95) (hw : w < 8) :
    (s.hostRead (0x1000 + 32 * j + 4 * w)).readData = (s.heap.nodeAt j).windowWord w := by
  have hloc : s.locationAt (0x1000 + 32 * j + 4 * w) = .heapWord j w := by
    rw [locationAt_heapWord (by omega) (by omega)]
    congr 1 <;> omega
  rw [hostRead_idle hb hloc, State.locationValue, Heap.slot_eq hj]

theorem hostRead_treeWord {s : State} {j w : Nat} (hb : s.busy = false) (hj : j < 189) (hw : w < 8) :
    (s.hostRead (0x2000 + 32 * j + 4 * w)).readData = (s.tree.nodeAt j).windowWord w := by
  have hloc : s.locationAt (0x2000 + 32 * j + 4 * w) = .treeWord j w := by
    rw [locationAt_treeWord (by omega) (by omega)]
    congr 1 <;> omega
  rw [hostRead_idle hb hloc, State.locationValue, Tree.slot_eq hj]

theorem lane_eq_getD (bytes : List Byte) (p : Nat) : lane bytes p = bytes.getD p 0#8 := by
  rw [lane, List.getD_eq_getElem?_getD]
  cases bytes[p]? <;> rfl

/-- Lane j of the word is the symbol at position 4k+j (20_memory.md R65). -/
theorem lanesWord_lane (bytes : List Byte) (k : Nat) {j : Nat} (hj : j < 4) :
    (lanesWord bytes k).extractLsb' (8 * j) 8 = bytes.getD (4 * k + j) 0#8 := by
  rw [← lane_eq_getD, lanesWord]
  obtain rfl | rfl | rfl | rfl : j = 0 ∨ j = 1 ∨ j = 2 ∨ j = 3 := by omega
  all_goals
    simp (disch := decide) only [BitVec.extractLsb'_append_eq_of_le, BitVec.extractLsb'_append_eq_of_add_le,
      Nat.reduceMul, Nat.reduceSub, BitVec.extractLsb'_eq_self, Nat.add_zero]

/-! ### The statements -/

/-- Settles O50, by the location each offset of the four windows names. -/
theorem arrayWindows : Obligations.ArrayWindows := by
  intro s hb hl
  refine ⟨fun i => ?_, fun j hj w hw => ?_, fun j hj w hw => ?_, fun w x hx => ?_, fun w v hw => ?_⟩
  · have hi := i.isLt
    have hloc : s.locationAt (0x400 + 4 * i.val) = .hist i.val := by
      rw [locationAt_hist (by omega) (by omega)]
      exact congrArg Location.hist (by omega)
    rw [hostRead_idle hb hloc, State.locationValue, Vector.getElem?_eq_getElem hi]
    rfl
  · rw [hostRead_heapWord hb hj hw, Node.windowWord_eq]
  · rw [hostRead_treeWord hb hj hw, Node.windowWord_eq]
  · have hw : w < s.codeWords := (List.getElem?_eq_some_iff.1 hx).1
    rw [hostRead_idle hb (locationAt_codeWord_offset hl hw), State.locationValue, hx]
  · exact hostWrite_idle hb (locationAt_codeWord_offset hl hw) v

/-- Settles O51: both regions read words of lanes, and an INBUF write is writeLanes. -/
theorem symbolLanes : Obligations.SymbolLanes := by
  intro s k hb hl hwf hk
  have hin : s.locationAt (0x10000 + 4 * k) = .inbufWord k := by
    rw [locationAt_inbufWord ⟨by omega, by omega⟩]
    exact congrArg Location.inbufWord (by omega)
  have hout : s.locationAt (0x20000 + 4 * k) = .outbufWord k := by
    rw [locationAt_outbufWord hl ⟨by omega, by omega⟩]
    exact congrArg Location.outbufWord (by omega)
  refine ⟨fun j hj => ⟨?_, ?_⟩, fun v => ?_⟩
  · rw [hostRead_idle hb hin]
    exact lanesWord_lane s.inbuf k hj
  · rw [hostRead_idle hb hout]
    exact lanesWord_lane s.out.bytes k hj
  · rw [hostWrite_idle hb hin]
    refine ⟨rfl, writeLanes_length s.inbuf k v, fun p hp => (writeLanes_getElem? s.inbuf k p v).trans ?_⟩
    exact if_congr (and_iff_left hp) rfl rfl

/-- Settles O52, by what reserved offsets and offsets the host may not write name. -/
theorem reservedAndReadOnlyOffsets : Obligations.ReservedAndReadOnlyOffsets := fun _ _ v hl _ h =>
  ⟨fun hr => by rw [hostRead_reserved hr], fun hb => hostRead_idle hb rfl,
    fun hw => hostWrite_not_writable (locationAt_not_writable hl h hw) v⟩

/-- Settles O54: a read answers with the location's value, or during BUSY with a draw. -/
theorem hostReads : Obligations.HostReads := by
  refine ⟨fun s off => ?_, fun s hb => ?_, fun s off hl hb h4 h h0 h1 h2 h3 h5 => ?_, fun s off hb => ?_⟩
  · rcases hostRead_cases s off with h | h <;> rw [h]
  · refine ⟨?_, ?_, ?_, ?_, ?_⟩ <;> exact congrArg State.readData (hostRead_defined (.inr rfl))
  · have hnamed : off ∉ [0x000, 0x004, 0x008, 0x00C, 0x014] := by simp [h0, h1, h2, h3, h5]
    exact ⟨hostRead_reserved, fun hr => hostRead_draw hb (locationAt_not_definedWhileBusy hl h h4 hnamed hr)⟩
  · have hread := hostRead_defined (off := off) (.inl hb)
    rw [hread]
    exact hostRead_idle hb rfl

/-- Settles O49, by the location each register's offset names. -/
theorem registerBlock : Obligations.RegisterBlock := by
  intro s v hb
  refine ⟨?_, ?_, ?_, ?_, ?_, ?_, ?_, ?_, ?_, ?_, ?_, ?_, ?_, hostWrite_idle hb rfl v, fun off hoff => ?readOnly⟩
  case readOnly =>
    obtain ⟨hlt, hcmd⟩ : off < 0x34 ∧ off ≠ 0x10 := by
      revert off
      decide
    refine hostWrite_not_writable ?_ v
    rw [locationAt_register hlt]
    exact registerAt_not_writable off hlt hcmd
  all_goals exact hostRead_idle hb rfl

/-- Settles O53, by whether the offset's location is host-writable. -/
theorem writeDuringBusyIsDiscarded : Obligations.WriteDuringBusyIsDiscarded := by
  intro s off v hl hb _ h
  split
  case isTrue hw => exact hostWrite_busy hb (locationAt_writable hl hw) v
  case isFalse hw => exact hostWrite_not_writable (locationAt_not_writable hl h hw) v

/-- Settles O55, by the one check left in the window and out of reset. -/
theorem onlyAlignedWordAccesses : Obligations.OnlyAlignedWordAccesses := by
  refine ⟨fun s a hr h1 h2 => ?_, fun s a rest he => ?_⟩
  · rw [hostAccess_in_window hr h1 h2, ← supports_iff]
    exact ⟨fun h => if_neg (by simp [h]), fun h => if_pos (by simpa using h)⟩
  · rw [step, nextStep, he]
    rfl

end Sys2Proof.Machine

/-!
The encoding of command words (30_encoding.md R90 to R95): the opcode map read both ways, what a word decodes to by
its two fields, and the block's turn on an illegal word.
-/

namespace Sys2Proof.Machine

/-! ### The opcode map -/

/-- Every command has the encoding of its own row. -/
theorem encoding_statement : ∀ i, Laws.Encoding.Statement i
  | .nop => Laws.Encoding.nop
  | .init => Laws.Encoding.init
  | .count => Laws.Encoding.count
  | .heapify => Laws.Encoding.heapify
  | .merge => Laws.Encoding.merge
  | .build => Laws.Encoding.build
  | .encode => Laws.Encoding.encode
  | .decode => Laws.Encoding.decode
  | .verify => Laws.Encoding.verify
  | .run => Laws.Encoding.run

/-- The map from opcode to command is the inverse of `opcode` (R92). -/
theorem commandOf_eq_some_iff {op : BitVec 8} {i : Instr} : commandOf op = some i ↔ op = opcode i := by
  obtain ⟨-, -, -, -, hmap⟩ := encoding_statement i
  exact ⟨eq_opcode_of_commandOf, fun h => h ▸ hmap⟩

/-- The map has no row past the last opcode. -/
theorem lt_of_commandOf_eq_none {op : BitVec 8} (h : commandOf op = none) : 0x09#8 < op := by
  unfold commandOf at h
  split at h
  case h_11 =>
    simp only [imp_false] at *
    bv_omega
  all_goals cases h

/-- The assigned opcodes are 0x00 to 0x09 (R92). -/
theorem exists_opcode_iff {op : BitVec 8} : (∃ i, op = opcode i) ↔ op ≤ 0x09#8 := by
  constructor
  · rintro ⟨i, rfl⟩
    cases i <;> decide
  · intro hle
    cases h : commandOf op with
    | some i => exact ⟨i, eq_opcode_of_commandOf h⟩
    | none => exact absurd (lt_of_commandOf_eq_none h) (BitVec.not_lt.2 hle)

/-! ### Decoding by the two fields -/

/-- A word is a command's exactly when `rsv` is 0 and `op` is the command's opcode (R93). -/
theorem decodeWord_eq_legal_iff {c : Word} {i : Instr} :
    decodeWord c = .legal i ↔ rsvField c = 0#24 ∧ opField c = opcode i := by
  rw [← commandOf_eq_some_iff, decodeWord]
  by_cases hrsv : rsvField c = 0#24
  · cases commandOf (opField c) <;> simp [hrsv]
  · simp [hrsv]

/-- A word is legal exactly when `rsv` is 0 and `op` is assigned (R93). -/
theorem exists_decodeWord_legal_iff {c : Word} :
    (∃ i, decodeWord c = .legal i) ↔ rsvField c = 0#24 ∧ opField c ≤ 0x09#8 := by
  simp only [decodeWord_eq_legal_iff, exists_and_left, exists_opcode_iff]

/-- Every word is either legal or illegal (R93). -/
theorem exists_illegal_iff (d : Decoded) : (∃ why, d = .illegal why) ↔ ¬ ∃ i, d = .legal i := by
  cases d <;> simp

/-- Settles O2: each clause is what a word decodes to by its fields. -/
theorem decodeIsTheOpcodeMap : Obligations.DecodeIsTheOpcodeMap := fun c =>
  ⟨fun _ => decodeWord_eq_legal_iff, exists_decodeWord_legal_iff,
    (exists_illegal_iff (decodeWord c)).trans (not_congr exists_decodeWord_legal_iff)⟩

/-- Settles O1, by the two fields of the command's word. -/
theorem commandWordsDecodeBack : Obligations.CommandWordsDecodeBack := by
  intro i
  obtain ⟨-, -, hrsv, hop, -⟩ := encoding_statement i
  exact decodeWord_eq_legal_iff.2 ⟨hrsv, hop⟩

/-- Settles O3: the ten legal words are the commands' own, and the two illegal ones are evaluated. -/
theorem specWordsDecode : Obligations.SpecWordsDecode :=
  have h := commandWordsDecodeBack
  ⟨h .nop, h .init, h .count, h .heapify, h .merge, h .build, h .encode, h .decode, h .verify, h .run,
    by decide, by decide⟩

/-! ### Illegal words -/

/-- Outside ERROR an illegal word takes the error ILLEGAL_CMD (R94, R95). -/
theorem blockTurn_illegal_raises {s : State} {c : Word} {why : Reject} (hr : s.rstN = true) (hc : s.pending = some c)
    (hd : decodeWord c = .illegal why) (he : s.phase ≠ .error) :
    blockTurn s = .next (s.takeError (c.extractLsb' 0 8) { code := .illegalCmd, info := c }).complete := by
  rw [blockTurn_illegal hr hc hd, State.illegalCommand, if_neg he]

/-- Settles O5: the step is the block's turn, and the error taken and the completion write what is listed. -/
theorem illegalWordRaisesIllegalCmd : Obligations.IllegalWordRaisesIllegalCmd := by
  intro s c why rest hturn hr hc hd he
  rw [step_blockHasTurn hturn]
  exact blockTurn_illegal_raises hr hc hd he

end Sys2Proof.Machine

/-!
COUNT, run: its loop byte by byte, HIST as counts of INBUF's bytes, and the frames of COUNT and HEAPIFY.
-/

namespace Sys2Proof.Machine

/-! ### COUNT's loop, byte by byte -/

/-- A counter after one more occurrence of symbol `i`, when counter `i` has room. -/
theorem bumpHist_toNat {hist : Hist} {i : Fin Config.domainSize} (h : hist[i].toNat + 1 < 2 ^ 32)
    (j : Fin Config.domainSize) : (bumpHist hist i)[j].toNat = hist[j].toNat + if i = j then 1 else 0 := by
  by_cases hij : i = j
  · subst hij
    have hsame : (bumpHist hist i)[i] = hist[i] + 1#32 := Vector.getElem_set_self i.isLt
    rw [hsame, if_pos rfl, BitVec.toNat_add_of_lt h, BitVec.toNat_ofNat]
  · have hother : (bumpHist hist i)[j] = hist[j] := Vector.getElem_set_ne i.isLt j.isLt (mt Fin.ext hij)
    rw [hother, if_neg hij, Nat.add_zero]

/-- A byte in the domain is counted. -/
theorem countLoop_symbolByte (k : Nat) (i : Fin Config.domainSize) (rest : List Byte) (hist : Hist) :
    countLoop k (symbolByte i :: rest) hist = countLoop (k + 1) rest (bumpHist hist i) := by
  rw [countLoop, domainIndex_symbolByte]
  rfl

/-- A byte outside the domain stops the loop with its position, and counts for nothing. -/
theorem countLoop_bad {c : Byte} (hc : inDomain c = false) (k : Nat) (rest : List Byte) (hist : Hist) :
    countLoop k (c :: rest) hist = .error { code := .domain, info := BitVec.ofNat 32 k } hist := by
  rw [countLoop, domainIndex_eq_none.2 hc]
  rfl

theorem inDomain_iff {c : Byte} : inDomain c = true ↔ 0x20 ≤ c.toNat ∧ c.toNat ≤ 0x7E := by
  simp [inDomain]

/-- A byte of the domain is some index's symbol. -/
theorem exists_symbolByte {c : Byte} (hc : 0x20 ≤ c.toNat ∧ c.toNat ≤ 0x7E) :
    ∃ i : Fin Config.domainSize, c = symbolByte i := by
  cases hi : domainIndex c with
  | some i => exact ⟨i, domainIndex_eq_some.1 hi⟩
  | none => exact absurd (inDomain_iff.2 hc) (by simp [domainIndex_eq_none.1 hi])

theorem symbolByte_inj {i j : Fin Config.domainSize} : symbolByte i = symbolByte j ↔ i = j := by
  rw [← domainIndex_eq_some, domainIndex_symbolByte, Option.some.injEq]

/-- COUNT's loop passes the bytes of the domain that come first and adds to each counter its symbol's
occurrences among them (40_count.md R111). -/
theorem countLoop_append {k : Nat} {bytes rest : List Byte} {hist : Hist}
    (hdom : ∀ c ∈ bytes, 0x20 ≤ c.toNat ∧ c.toNat ≤ 0x7E)
    (hroom : ∀ i : Fin Config.domainSize, hist[i].toNat + bytes.length < 2 ^ 32) :
    ∃ h : Hist, countLoop k (bytes ++ rest) hist = countLoop (k + bytes.length) rest h ∧
      ∀ i : Fin Config.domainSize, h[i].toNat = hist[i].toNat + bytes.count (symbolByte i) := by
  induction bytes generalizing k hist with
  | nil => exact ⟨hist, rfl, fun _ => rfl⟩
  | cons c bytes ih =>
    obtain ⟨hc, hrest⟩ := List.forall_mem_cons.1 hdom
    obtain ⟨i, rfl⟩ := exists_symbolByte hc
    rw [List.length_cons] at hroom ⊢
    have hbump := bumpHist_toNat (i := i) (show hist[i].toNat + 1 < 2 ^ 32 by have := hroom i; omega)
    obtain ⟨h, hrun, hcount⟩ := ih (k := k + 1) (hist := bumpHist hist i) hrest fun j => by
      have := hroom j
      rw [hbump]
      split <;> omega
    refine ⟨h, ?_, fun j => ?_⟩
    · rw [List.cons_append, countLoop_symbolByte, hrun, Nat.add_right_comm, Nat.add_assoc]
    · rw [hcount, hbump, List.count_cons]
      simp only [beq_iff_eq, symbolByte_inj]
      omega

/-- From the zero histogram, on at most 65536 bytes, the counters are the numbers of occurrences. -/
theorem countLoop_zeroHist {bytes rest : List Byte} (hN : bytes.length ≤ 65536)
    (hdom : ∀ c ∈ bytes, 0x20 ≤ c.toNat ∧ c.toNat ≤ 0x7E) :
    ∃ h : Hist, countLoop 0 (bytes ++ rest) zeroHist = countLoop bytes.length rest h ∧
      ∀ i : Fin Config.domainSize, h[i].toNat = bytes.count (symbolByte i) := by
  have hzero (i : Fin Config.domainSize) : zeroHist[i].toNat = 0 :=
    congrArg BitVec.toNat (Vector.getElem_replicate (a := 0#32) i.isLt)
  obtain ⟨h, hrun, hcount⟩ := countLoop_append (k := 0) (rest := rest) (hist := zeroHist) hdom fun i => by
    rw [hzero]
    omega
  exact ⟨h, by rw [hrun, Nat.zero_add], fun i => by rw [hcount, hzero, Nat.zero_add]⟩

/-! ### COUNT, by its loop -/

/-- In IDLE, COUNT completes when its loop does. -/
theorem exec_count_of_ok {s : State} {h : Hist} (hp : s.phase = .idle)
    (hrun : countLoop 0 s.inbuf s.hist = .ok () h) :
    exec .count s = .next { s with hist := h, distinct := BitVec.ofNat 7 (distinctOf h), phase := .counted } := by
  refine (sureComponent_run hp nofun).trans ?_
  rw [countBody, act_bind_run (act_get s), act_bind_run (onPart_ok.2 ⟨h, hrun, rfl⟩)]
  rfl

/-- In IDLE, COUNT takes the error of its loop, with HIST as the loop left it (60_exceptions.md R225). -/
theorem exec_count_of_error {s : State} {h : Hist} {r : Raise} (hp : s.phase = .idle)
    (hrun : countLoop 0 s.inbuf s.hist = .error r h) :
    exec .count s = .next ((s.putHist h).takeError 0x02#8 r) := by
  have hbody : countBody s = .error r (s.putHist h) := by
    rw [countBody, act_bind_run (act_get s)]
    exact act_bind_error.2 (.inl (onPart_error.2 ⟨h, hrun, rfl⟩))
  refine (sureComponent_run hp nofun).trans ?_
  rw [hbody]
  rfl

/-! ### DISTINCT and the sum, counter by counter -/

theorem histTotal_eq_list_sum (hist : Hist) :
    histTotal hist = ((List.finRange 95).map fun i => hist[i].toNat).sum := by
  rw [histTotal, hist_toList, List.map_map]
  rfl

theorem distinctOf_eq_countP (hist : Hist) :
    distinctOf hist = (List.finRange 95).countP fun i => decide (0 < hist[i].toNat) := by
  rw [distinctOf, hist_toList, List.countP_map]
  refine List.countP_congr fun i _ => ?_
  simp [Nat.pos_iff_ne_zero, ← BitVec.toNat_inj]

/-- Every counted symbol counts at least once. -/
theorem distinctOf_le_histTotal (hist : Hist) : distinctOf hist ≤ histTotal hist := by
  rw [distinctOf, histTotal, List.countP_eq_length_filter, ← List.length_map BitVec.toNat,
    ← sum_map_filter_of_zero (p := fun v => v != 0#32) (f := BitVec.toNat) (by simp)]
  refine List.length_le_sum_of_one_le _ fun n hn => ?_
  obtain ⟨v, hv, rfl⟩ := List.mem_map.1 hn
  have hne : v ≠ 0#32 := by simpa using (List.mem_filter.1 hv).2
  exact Nat.one_le_iff_ne_zero.2 fun h0 => hne (BitVec.eq_of_toNat_eq h0)

/-! ### The statements about COUNT -/

/-- Settles O12: COUNT's loop gives the counters and their sum, and bounds on DISTINCT follow from the sum. -/
theorem countMakesTheHistogram : Obligations.CountMakesTheHistogram := by
  intro s hp (hzero : s.hist = zeroHist) hdom h1 hN
  obtain ⟨h, hrun, hcount⟩ := countLoop_zeroHist (rest := []) hN hdom
  rw [List.append_nil] at hrun
  have htotal : histTotal h = s.inbuf.length := by
    have := (countLoop_total (n := 0) (bytes := s.inbuf) (by omega)).ok histTotal_zeroHist hrun
    omega
  have hpos : 1 ≤ distinctOf h := distinctOf_pos (by omega)
  have hle : distinctOf h ≤ min s.inbuf.length 95 := le_min (htotal ▸ distinctOf_le_histTotal h) (distinctOf_le h)
  have hd : (BitVec.ofNat 7 (distinctOf h)).toNat = distinctOf h := by rw [BitVec.toNat_ofNat]; omega
  exact ⟨_, exec_count_of_ok hp (hzero ▸ hrun), rfl, hcount, (histTotal_eq_list_sum h).symm.trans htotal,
    hd.trans (distinctOf_eq_countP h), hpos.trans_eq hd.symm, hd.trans_le hle⟩

/-- Settles O13: the loop passes the bytes before position `k` and stops at it. -/
theorem countStopsAtTheFirstBadByte : Obligations.CountStopsAtTheFirstBadByte := by
  intro s k c hp (hzero : s.hist = zeroHist) hN hk hc hdom
  obtain ⟨hlt, rfl⟩ := List.getElem?_eq_some_iff.1 hk
  have hlen : (s.inbuf.take k).length = k := List.length_take_of_le hlt.le
  obtain ⟨h, hrun, hcount⟩ := countLoop_zeroHist (rest := s.inbuf.drop k) (by omega) hdom
  rw [List.take_append_drop, hlen, List.drop_eq_getElem_cons hlt,
    countLoop_bad (Bool.eq_false_iff.2 (mt inDomain_iff.1 hc))] at hrun
  exact ⟨_, exec_count_of_error hp (hzero ▸ hrun), rfl, hcount⟩

/-! ### The frames of COUNT and HEAPIFY -/

/-- A component command keeps what its body keeps, when an error taken keeps it too. -/
theorem Keeps.exec_component {I : State → Prop} {i : Instr} {p : Phase} {s t : State}
    (hp : requiredPhase i = some p) (hb : Keeps I Stop.Named (componentBody i))
    (herror : ∀ u op r, I u → I (u.takeError op r)) (hs : I s) (h : exec i s = .next t) : I t := by
  rw [Machine.exec_component hp] at h
  rcases component_next h with ⟨-, rfl⟩ | ⟨-, -, rfl⟩ | ⟨-, -, hok⟩ | ⟨-, -, r, u, hr, rfl⟩
  · exact hs
  · exact herror _ _ _ hs
  · exact hb.ok hs hok
  · exact herror _ _ _ (hb.stop hs hr).1

/-- The states differ only in HIST, DISTINCT, PHASE and the error registers. -/
def State.CountFrame (s t : State) : Prop :=
  t = { s with hist := t.hist, distinct := t.distinct, phase := t.phase, errCode := t.errCode,
               errOp := t.errOp, errInfo := t.errInfo }

theorem exec_count_frame {s t : State} (h : exec .count s = .next t) : s.CountFrame t := by
  have hbody : Keeps s.CountFrame Raise.Named countBody :=
    countBody_keeps (fun _ _ hu => by rw [hu]; rfl) (fun _ _ hu => by rw [hu]; rfl) fun _ hu => by rw [hu]; rfl
  have hs : s.CountFrame s := rfl
  exact Keeps.exec_component (i := .count) rfl hbody.ofSure (fun _ _ _ hu => by rw [hu]; rfl) hs h

/-- The states differ only in HEAP, HEAP_SIZE, PHASE and the error registers. -/
def State.HeapifyFrame (s t : State) : Prop :=
  t = { s with heap := t.heap, phase := t.phase, errCode := t.errCode, errOp := t.errOp,
               errInfo := t.errInfo }

theorem exec_heapify_frame {s t : State} (h : exec .heapify s = .next t) : s.HeapifyFrame t := by
  have hbody : Keeps s.HeapifyFrame Stop.Named heapifyBody :=
    heapifyBody_keeps (fun _ _ hu => by rw [hu]; rfl) fun _ hu => by rw [hu]; rfl
  have hs : s.HeapifyFrame s := rfl
  exact Keeps.exec_component (i := .heapify) rfl hbody (fun _ _ _ hu => by rw [hu]; rfl) hs h

/-- Settles O41: the writes of each body, and an error taken, keep its frame. -/
theorem countAndHeapifyFrame : Obligations.CountAndHeapifyFrame :=
  ⟨fun _ _ => exec_count_frame, fun _ _ => exec_heapify_frame⟩

end Sys2Proof.Machine

/-!
The heap on any sound heap: the root has the least key, the primitives keep Heap.Sound, and the slots past the
heap keep what they held, used or not.
-/

namespace Sys2Proof.Machine

/-! ### Slots past the heap -/

/-- A slot with the same node, also where the array has ended, is the same slot. -/
theorem Heap.slot_congr {h h' : Heap} {j : Nat} (hn : h'.nodeAt j = h.nodeAt j) : h'.slots[j]? = h.slots[j]? := by
  obtain hj | hj := Nat.lt_or_ge j 95
  · rw [Heap.slot_eq hj, Heap.slot_eq hj, hn]
  · rw [Vector.getElem?_eq_none hj, Vector.getElem?_eq_none hj]

/-! ### Soundness -/

theorem Heap.Sound.keyed {h : Heap} (hs : h.Sound) : h.Keyed :=
  have ⟨hfit, hne, _, _⟩ := hs
  Heap.keyed_iff.2 ⟨hfit, hne⟩

theorem Heap.Sound.orderedFrom {h : Heap} (hs : h.Sound) : h.OrderedFrom 0 :=
  have ⟨_, _, _, ho⟩ := hs
  Heap.orderedFrom_of_ordered hs.keyed ho

theorem Heap.Sound.keys_distinct {h : Heap} (hs : h.Sound) : h.occupied.Pairwise fun a b => keyOf a ≠ keyOf b :=
  have ⟨_, _, hd, _⟩ := hs
  hd

/-- A heap in order is sound when its nodes, in whatever arrangement, have distinct keys. -/
theorem Heap.sound_of_perm {h : Heap} {ns : List Node} (hk : h.Keyed) (ho : h.OrderedFrom 0)
    (hp : h.occupied.Perm ns) (hd : ns.Pairwise fun a b => keyOf a ≠ keyOf b) : h.Sound :=
  have hd' := (hp.pairwise_iff Ne.symm).2 hd
  ⟨hk.fits, (Heap.keyed_iff.1 hk).2, hd', Heap.ordered_of_orderedFrom hk hd' ho⟩

/-- In a heap in order no key is below the root's (41_heap.md R129). -/
theorem Heap.OrderedFrom.root_le {h : Heap} (ho : h.OrderedFrom 0) {j : Nat} (hj : j < h.size.toNat) :
    (h.nodeAt 0).rank ≤ (h.nodeAt j).rank := by
  induction j using Nat.strong_induction_on with
  | _ j ih =>
    obtain rfl | h0 := Nat.eq_zero_or_pos j
    · exact le_rfl
    · exact (ih ((j - 1) / 2) (by omega) (by omega)).trans (ho j hj h0 (Nat.zero_le _))

/-- In a sound heap every other node has a larger key than the root (41_heap.md R129). -/
theorem Heap.Sound.root_below {h : Heap} (hs : h.Sound) {rest : List Node}
    (hp : h.occupied.Perm (h.nodeAt 0 :: rest)) {m : Node} (hm : m ∈ rest) : keyBelow (h.nodeAt 0) m = true := by
  have hne (n : Node) (hn : n ∈ h.nodeAt 0 :: rest) := (Heap.keyed_iff.1 hs.keyed).2 n (hp.symm.subset hn)
  have hroot := hne _ List.mem_cons_self
  have hset := hne m (List.mem_cons_of_mem _ hm)
  have hkey : keyOf (h.nodeAt 0) ≠ keyOf m :=
    List.rel_of_pairwise_cons ((hp.pairwise_iff Ne.symm).1 hs.keys_distinct) hm
  obtain ⟨j, hj, rfl⟩ := (Heap.mem_occupied hs.keyed.fits).1 (hp.symm.subset (List.mem_cons_of_mem _ hm))
  exact (keyBelow_iff hroot hset).2
    (lt_of_le_of_ne (hs.orderedFrom.root_le hj) (mt (keyOf_eq_iff hroot hset).2 hkey))

/-! ### The statements about the heap -/

/-- In COUNTED, HEAPIFY completes with the heap its work leaves. -/
theorem exec_heapify_of_ok {s : State} {h : Heap} (hp : s.phase = .counted)
    (hrun : heapifyHeap s.hist s.heap = .ok () h) :
    exec .heapify s = .next { s with heap := h, phase := .heaped } := by
  have hbody : heapifyBody s = .ok () { s with heap := h, phase := .heaped } := by
    rw [heapifyBody, act_bind_run (act_get s), act_bind_run (onPart_ok.2 ⟨h, hrun, rfl⟩)]
    rfl
  exact (component_run hp nofun).trans (answer_next.2 (.inl (inStage_ok.2 hbody)))

/-- Settles O14: the leaves have distinct keys, being a forest, so the order BulkBuild leaves is strict. -/
theorem heapifyBuildsTheHeap : Obligations.HeapifyBuildsTheHeap := by
  intro s hp
  obtain ⟨h, hrun, hk, hperm, ho, hrest⟩ := heapifyHeap_run s.hist s.heap
  have hsize : h.size.toNat = distinctOf s.hist := by
    rw [← Heap.occupied_length hk.fits, hperm.length_eq, leaves_length]
  exact ⟨_, exec_heapify_of_ok hp hrun, rfl, hsize, hperm,
    Heap.sound_of_perm hk ho hperm (forest_leaves s.hist).keys_distinct,
    fun j hj => Heap.slot_congr (hrest j (hsize ▸ hj))⟩

/-- Settles O15: HeapPop takes out the root, which has the least key, and SiftDown puts the rest in order. -/
theorem popReturnsTheLeast : Obligations.PopReturnsTheLeast := by
  intro h hs h1
  have hfit := hs.keyed.fits
  obtain ⟨h', hrun, hr, ho⟩ := heapPop_run hs.keyed hs.orderedFrom h1
  have hvac := h.vacated_size
  have hsize : h'.size.toNat = h.size.toNat - 1 := by rw [hr.size, hvac]
  have hperm := (Heap.vacated_perm hfit h1).trans (.cons _ hr.occupied_perm.symm)
  have hk : h'.Keyed := Heap.keyed_iff.2 ⟨by omega, fun n hn =>
    (Heap.keyed_iff.1 hs.keyed).2 n (hperm.symm.subset (List.mem_cons_of_mem _ hn))⟩
  have hd := ((hperm.pairwise_iff Ne.symm).1 hs.keys_distinct).of_cons
  refine ⟨h.nodeAt 0, h', hrun, Heap.sound_of_perm hk ho (.refl _) hd, by omega, hperm,
    fun m => hs.root_below hperm, ?_, fun j hj => ?_⟩
  · rw [hr.nodeAt_eq (by omega), Heap.vacated_nodeAt hfit, if_pos rfl]
  · rw [hr.rest j (by omega)]
    exact Heap.slot_congr (by rw [Heap.vacated_nodeAt hfit, if_neg (by omega), if_neg (by omega)])

/-- Settles O16: HeapInsert puts the node at the end, and SiftUp puts the heap in order. -/
theorem insertKeepsTheHeap : Obligations.InsertKeepsTheHeap := by
  intro h n hs hroom hn hnew
  have hlt : h.size.toNat < 95 := by omega
  obtain ⟨h', hrun, hr, ho⟩ := heapInsert_run hs.keyed hs.orderedFrom hlt hn
  have hsize : h'.size.toNat = h.size.toNat + 1 := by rw [hr.size, Heap.pushed_size n hlt]
  have hperm : h'.occupied.Perm (n :: h.occupied) :=
    hr.occupied_perm.trans (h.pushed_occupied n hlt ▸ List.perm_append_singleton _ _)
  refine ⟨h', hrun, Heap.sound_of_perm (hr.keyed (Heap.pushed_keyed hs.keyed hlt hn)) ho hperm
    (.cons (fun m hm => (hnew m hm).symm) hs.keys_distinct), hsize, hperm, fun j hj => ?_⟩
  rw [hr.rest j (by rwa [Heap.pushed_size n hlt])]
  exact Heap.slot_congr (by rw [Heap.pushed_nodeAt hlt, if_neg (by omega)])

end Sys2Proof.Machine

/-!
MERGE and BUILD, from any state: when a command ends normally, Finalize run on any heap and tree, HEAP_SIZE after
MERGE, and the passes of BUILD's loop.
-/

namespace Sys2Proof.Machine

/-! ### Commands that end normally -/

/-- In its phase a component command answers the state its body ends normally in. -/
theorem exec_of_ok {i : Instr} {p : Phase} {s t : State} (h : requiredPhase i = some p) (hp : s.phase = p)
    (hok : componentBody i s = .ok () t) : exec i s = .next t := by
  have he : p ≠ .error := by
    rintro rfl
    cases i <;> cases h
  rw [exec_component h, component_run hp he]
  exact answer_next.2 (.inl (inStage_ok.2 hok))

/-- A component command that leaves another phase than ERROR has ended its body normally, in its phase. -/
theorem body_of_exec {i : Instr} {p : Phase} {s t : State} (h : requiredPhase i = some p)
    (hr : exec i s = .next t) (ht : t.phase ≠ .error) : s.phase = p ∧ componentBody i s = .ok () t := by
  rw [exec_component h] at hr
  obtain ⟨he, rfl⟩ | ⟨-, -, rfl⟩ | ⟨-, hp, hok⟩ | ⟨-, -, r, u, -, rfl⟩ := component_next hr
  · exact absurd he ht
  · exact absurd rfl ht
  · exact ⟨hp, hok⟩
  · exact absurd rfl ht

/-! ### Finalize, on any heap and tree -/

/-- Finalize of a node not yet in TREE appends it and keeps it in HEAP[0] (42_tree.md R143). -/
theorem finalize_new {s : State} {n : Node} (h0 : s.heap.slots[0]? = some n) (hnew : n.insertedAt = Config.none)
    (ht : s.tree.size.toNat < 189) :
    finalize s = .ok () { s with
      heap := s.heap.put 0 { n with insertedAt := s.tree.size }, tree := s.tree.grown n, root := s.tree.size,
      phase := .built } := by
  rw [finalize, act_bind_run (act_get s), act_bind_run (ofRead_run (Heap.read_ok.2 h0)), if_pos hnew,
    act_bind_run (onTree_run (treeAppend_run n ht)), act_bind_run (onHeap_run (heapWrite_run (by decide)))]
  rfl

/-- Finalize of a node already in TREE sets ROOT to its index (42_tree.md R143). -/
theorem finalize_old {s : State} {n : Node} (h0 : s.heap.slots[0]? = some n) (hold : n.insertedAt ≠ Config.none) :
    finalize s = .ok () { s with root := n.insertedAt, phase := .built } := by
  rw [finalize, act_bind_run (act_get s), act_bind_run (ofRead_run (Heap.read_ok.2 h0)), if_neg hold]
  rfl

/-! ### MERGE, on any heap and tree -/

/-- With two nodes or more, MERGE that ends normally has ended a merge iteration with one node less in the heap. -/
theorem mergeIteration_of_mergeBody {s t : State} (h2 : 2 ≤ s.heap.size.toNat) (hr : mergeBody s = .ok () t) :
    ∃ u, mergeIteration s = .ok () u ∧ u.heap.size.toNat = s.heap.size.toNat - 1 := by
  have hlt := s.heap.size.isLt
  rw [mergeBody, act_bind_run (act_get s), if_pos h2] at hr
  obtain ⟨_, u, hu, -⟩ := act_bind_ok.1 hr
  obtain ⟨-, hsize⟩ := (mergeIteration_at (z := s.heap.size.toNat - 2) s.phase (by omega)).ok ⟨rfl, by omega⟩ hu
  exact ⟨u, hu, by omega⟩

/-- MERGE that ends normally lowers HEAP_SIZE by one, down to 1 (42_tree.md R144). -/
theorem mergeBody_size {s t : State} (h1 : 1 ≤ s.heap.size.toNat) (hr : mergeBody s = .ok () t) :
    t.heap.size.toNat = max 1 (s.heap.size.toNat - 1) := by
  have tail (u : State) (hr : (if u.heap.size.toNat = 1 then finalize else pure ()) u = .ok () t) :
      t.heap.size.toNat = u.heap.size.toNat := by
    split at hr
    · exact ((finalize_at u.phase).ok ⟨rfl, rfl⟩ hr).2
    · cases hr
      rfl
  by_cases h2 : 2 ≤ s.heap.size.toNat
  · obtain ⟨u, hu, hsize⟩ := mergeIteration_of_mergeBody h2 hr
    rw [tail u (mergeBody_merge h2 hu ▸ hr), hsize]
    omega
  · rw [tail s (mergeBody_skip h2 ▸ hr)]
    omega

/-- One pass of BUILD's loop that leaves the tree unfinished (42_tree.md R145). -/
theorem buildLoop_pass {fuel : Nat} {s t : State} (hr : mergeBody s = .ok () t) (hp : t.phase ≠ .built) :
    buildLoop (fuel + 1) s = buildLoop fuel t := by
  rw [buildLoop, act_bind_run hr, act_bind_run (act_get t), if_neg hp]

/-- The last pass of BUILD's loop. -/
theorem buildLoop_last {fuel : Nat} {s t : State} (hr : mergeBody s = .ok () t) (hp : t.phase = .built) :
    buildLoop (fuel + 1) s = .ok () t := by
  rw [buildLoop, act_bind_run hr, act_bind_run (act_get t), if_pos hp]
  rfl

/-! ### The statements about single commands -/

/-- Settles O17: MERGE's body ends normally (`mergeBody_run`), and its HEAP_SIZE and phase are those of any MERGE
that does. -/
theorem mergeCompletes : Obligations.MergeCompletes := by
  intro s ⟨⟨hlegal, _, _, herror, _⟩, ⟨_, hfit, _⟩, _, _, hlaw, _⟩ hp
  obtain ⟨-, hN, -⟩ := s.legal_bounds hlegal
  obtain ⟨-, h1, -⟩ := hlaw hp
  obtain ⟨hcode, -⟩ := herror (by rw [hp]; nofun)
  obtain ⟨t, hrun, hsame⟩ : ∃ t, mergeBody s = .ok () t ∧ t.errCode = s.errCode := by
    obtain ⟨h, t, ⟨hrun, -⟩ | ⟨r, hrun, -⟩⟩ := mergeBody_run hN hfit (hlaw hp)
    · exact ⟨_, hrun, rfl⟩
    · exact ⟨_, hrun, rfl⟩
  have hsize := mergeBody_size h1 hrun
  refine ⟨t, exec_of_ok rfl hp hrun, hsame.trans hcode, hsize, ?_⟩
  rw [mergeBody_phase h1 hrun hp, hsize]
  exact if_congr (by omega) rfl rfl

/-- Settles O19: with one node there is nothing to merge, and Finalize appends the leaf at TREE[0]; BUILD's loop
ends after that pass. -/
theorem loneLeafIsFinalised : Obligations.LoneLeafIsFinalised := by
  intro s n hp h1 h0 hnew ht i hi
  have hmerge : mergeBody s = finalize s := by
    rw [mergeBody_skip (by rw [h1]; decide), if_pos (by rw [h1]; rfl)]
  have hrun := hmerge.trans (finalize_new h0 hnew (by rw [ht]; decide))
  simp only [Heap.put, Tree.grown, ht] at hrun
  obtain rfl | rfl := hi
  · exact exec_of_ok rfl hp hrun
  · refine exec_of_ok rfl hp ?_
    rw [componentBody, buildBody, act_bind_run (act_get s)]
    exact buildLoop_last hrun rfl

/-- Settles O20: the MERGE is the first pass of BUILD's loop. With two nodes or more it leaves one node less, which
is the pass the loop's bound from `t` leaves out; with one node it would leave BUILT; with none it does nothing. -/
theorem buildIsRepeatedMerge : Obligations.BuildIsRepeatedMerge := by
  intro s t hs hm ht
  obtain ⟨-, hrun⟩ : s.phase = .heaped ∧ mergeBody s = .ok () t := body_of_exec rfl hm (by rw [ht]; nofun)
  have hbuild : buildBody s = buildBody t := by
    rw [buildBody, act_bind_run (act_get s), act_bind_run (act_get t)]
    obtain h0 | h1 := Nat.eq_zero_or_pos s.heap.size.toNat
    · rw [mergeBody_skip (by omega), if_neg (by omega)] at hrun
      cases hrun
      rfl
    · have hsize := mergeBody_size h1 hrun
      have hmore : 1 < t.heap.size.toNat := by
        have hphase := ht.symm.trans (mergeBody_phase h1 hrun hs)
        by_contra h
        rw [if_neg h] at hphase
        cases hphase
      rw [buildLoop_pass hrun (by rw [ht]; nofun), show t.heap.size.toNat + 1 = s.heap.size.toNat by omega]
  rw [exec_component rfl, exec_component rfl, component_run hs nofun, component_run ht nofun]
  simp only [inStage, componentBody, hbuild]

/-- Settles O21: BUILD's body ends normally with the finished tree (`buildBody_run`), whose law gives the sizes. -/
theorem buildFinishesTheTree : Obligations.BuildFinishesTheTree := by
  intro s ⟨⟨hlegal, _, _, herror, _⟩, ⟨_, hfit, _⟩, _, _, hlaw, _⟩ hp
  obtain ⟨-, hN, -⟩ := s.legal_bounds hlegal
  obtain ⟨⟨hdistinct, -⟩, -⟩ := hlaw hp
  obtain ⟨hcode, -⟩ := herror (by rw [hp]; nofun)
  obtain ⟨h, t, r, hrun, -, hone, -, -, hsize, hroot, -⟩ := buildBody_run hN hfit (hlaw hp) (by rw [hp]; nofun)
  exact ⟨_, exec_of_ok rfl hp hrun, rfl, hcode, BitVec.eq_of_toNat_eq hone, hdistinct.symm ▸ hsize, hroot, rfl, rfl⟩

end Sys2Proof.Machine


/-!
What one MERGE joins: the two nodes of least key, their copies in TREE, and their merge node.
-/

namespace Sys2Proof.Machine

/-! ### The two nodes of least key -/

/-- The heap of a state in the middle of merging is sound: the roots of the forest have distinct keys. -/
theorem State.Merging.heap_sound {s : State} (hs : s.Merging) : s.heap.Sound :=
  ⟨hs.fits, fun n hn => (hs.forest.held n hn).1, hs.forest.keys_distinct, hs.ordered⟩

/-- Two HeapPops take out the two nodes of least key, the least first (41_heap.md R126, R129). -/
theorem heapPop_twice {h : Heap} (hs : h.Sound) (h2 : 2 ≤ h.size.toNat) :
    ∃ a b h₁ h₂, heapPop h = .ok a h₁ ∧ heapPop h₁ = .ok b h₂ ∧ h₂.Sound ∧ h₂.size.toNat + 2 = h.size.toNat ∧
      h.occupied.Perm (a :: b :: h₂.occupied) ∧ keyBelow a b = true ∧ ∀ x ∈ h₂.occupied, keyBelow b x = true := by
  obtain ⟨a, h₁, hpop₁, hs₁, hsize₁, hperm₁, hleast₁, -⟩ := popReturnsTheLeast h hs (by omega)
  obtain ⟨b, h₂, hpop₂, hs₂, hsize₂, hperm₂, hleast₂, -⟩ := popReturnsTheLeast h₁ hs₁ (by omega)
  exact ⟨a, b, h₁, h₂, hpop₁, hpop₂, hs₂, by omega, hperm₁.trans (.cons _ hperm₂),
    hleast₁ b (hperm₂.symm.subset List.mem_cons_self), hleast₂⟩

/-! ### A node's copy in TREE -/

/-- TREE after `if n.inserted_at = NONE: n <- TreeAppend(n)` (42_tree.md R141). -/
def Tree.withNode (t : Tree) (n : Node) : Tree := if n.insertedAt = Config.none then t.grown n else t

/-- The node as it stands in `t.withNode n` (42_tree.md R140, R141). -/
def Tree.copyOf (t : Tree) (n : Node) : Node :=
  if n.insertedAt = Config.none then { n with insertedAt := t.size } else n

section CopyOf

variable {t : Tree} {n : Node}

theorem Tree.withNode_new (h : n.insertedAt = Config.none) : t.withNode n = t.grown n := if_pos h

theorem Tree.withNode_old (h : n.insertedAt ≠ Config.none) : t.withNode n = t := if_neg h

theorem Tree.copyOf_new (h : n.insertedAt = Config.none) : t.copyOf n = { n with insertedAt := t.size } := if_pos h

theorem Tree.copyOf_old (h : n.insertedAt ≠ Config.none) : t.copyOf n = n := if_neg h

/-- The copy is the node, but for its index. -/
theorem Tree.copyOf_eq (t : Tree) (n : Node) : t.copyOf n = { n with insertedAt := (t.copyOf n).insertedAt } := by
  unfold Tree.copyOf
  split <;> rfl

@[simp] theorem Tree.copyOf_symbolSet (t : Tree) (n : Node) : (t.copyOf n).symbolSet = n.symbolSet := by
  rw [t.copyOf_eq n]

@[simp] theorem Tree.copyOf_weight (t : Tree) (n : Node) : (t.copyOf n).weight = n.weight := by rw [t.copyOf_eq n]

/-- The indices of the copies: a new node gets the next index of TREE, `a` before `b`, and a node already in TREE
keeps its own (42_tree.md R140, R141). -/
theorem Tree.copyOf_index (t : Tree) (n : Node) :
    (t.copyOf n).insertedAt = if n.insertedAt = Config.none then t.size else n.insertedAt := by
  unfold Tree.copyOf
  split <;> rfl

end CopyOf

section Joining

variable {hist : Hist} {total : Nat} {a b n : Node} {rest : List Node} {t : Tree}

/-- A root's copy stands in TREE: it is appended when new, and nothing changes when not. -/
theorem Forest.withNode (hf : Forest hist total (n :: rest) t) :
    (t.copyOf n).insertedAt ≠ Config.none ∧ Forest hist total (t.copyOf n :: rest) (t.withNode n) ∧
      (t.withNode n).size.toNat = t.size.toNat + if n.insertedAt = Config.none then 1 else 0 := by
  by_cases hnew : n.insertedAt = Config.none
  · obtain ⟨ht, hf'⟩ := hf.append hnew
    rw [Tree.copyOf_new hnew, Tree.withNode_new hnew, if_pos hnew]
    exact ⟨Tree.size_ne_none ht, hf', Tree.grown_size n ht⟩
  · rw [Tree.copyOf_old hnew, Tree.withNode_old hnew, if_neg hnew]
    exact ⟨hnew, hf, rfl⟩

theorem Forest.appendIfNew_run {s : State} (hf : Forest hist total (n :: rest) s.tree) :
    appendIfNew n s = .ok (s.tree.copyOf n) { s with tree := s.tree.withNode n } := by
  by_cases hnew : n.insertedAt = Config.none
  · obtain ⟨ht, -⟩ := hf.append hnew
    rw [Tree.copyOf_new hnew, Tree.withNode_new hnew]
    exact (appendIfNew_new hnew).2 ⟨_, treeAppend_run n ht, rfl⟩
  · rw [Tree.copyOf_old hnew, Tree.withNode_old hnew]
    exact appendIfNew_old hnew

/-! ### The merge node -/

/-- TREE with copies of both nodes, before their merge node is appended. -/
abbrev Tree.withBoth (t : Tree) (a b : Node) : Tree := (t.withNode a).withNode b

/-- MergeNode of the copies of `a` and `b` (42_tree.md R141, R142). -/
abbrev Tree.mergeOf (t : Tree) (a b : Node) : Node := mergeNode (t.copyOf a) ((t.withNode a).copyOf b)

/-- The merge node as it stands in TREE. -/
def Tree.joinNode (t : Tree) (a b : Node) : Node := { t.mergeOf a b with insertedAt := (t.withBoth a b).size }

/-- TREE after one merge iteration on `a` and `b` (42_tree.md R141). -/
def Tree.joined (t : Tree) (a b : Node) : Tree := (t.withBoth a b).grown (t.mergeOf a b)

/-- With copies of both nodes TREE holds a forest with the copies as roots, and a free slot for the merge node. -/
theorem Forest.withBoth (hf : Forest hist total (a :: b :: rest) t) :
    (t.withBoth a b).size.toNat < 189 ∧
      (t.copyOf a).insertedAt ≠ Config.none ∧ ((t.withNode a).copyOf b).insertedAt ≠ Config.none ∧
      Forest hist total (t.copyOf a :: (t.withNode a).copyOf b :: rest) (t.withBoth a b) := by
  obtain ⟨ha, hf₁, -⟩ := hf.withNode
  obtain ⟨hb, hf₂, -⟩ := (hf₁.perm (.swap _ _ _)).withNode
  have hf₃ : Forest hist total _ (t.withBoth a b) := hf₂.perm (.swap _ _ _)
  have hcount := hf₃.count
  have hd := distinctOf_le hist
  rw [List.length_cons, List.length_cons] at hcount
  exact ⟨by omega, ha, hb, hf₃⟩

/-- Joining two roots leaves a forest with their merge node as root. -/
theorem Forest.joined (hf : Forest hist total (a :: b :: rest) t) (htotal : total < 2 ^ 32) :
    Forest hist total (t.joinNode a b :: rest) (t.joined a b) :=
  have ⟨_, ha, hb, hf'⟩ := hf.withBoth
  (hf'.join htotal ha hb).2

end Joining

/-- A merge iteration joins the two nodes of least key (42_tree.md R141). -/
theorem mergeIteration_joins {s : State} (hs : s.Merging) (h2 : 2 ≤ s.heap.size.toNat) :
    ∃ h a b rest, mergeIteration s = .ok () { s with heap := h, tree := s.tree.joined a b } ∧
      s.heap.occupied.Perm (a :: b :: rest) ∧ keyBelow a b = true ∧ (∀ x ∈ rest, keyBelow b x = true) ∧
      h.occupied.Perm (s.tree.joinNode a b :: rest) := by
  have htotal : s.inputLen < 2 ^ 32 := lt_of_le_of_lt hs.total (by decide)
  obtain ⟨a, b, h₁, h₂, hpop₁, hpop₂, hs₂, hsize₂, hperm, hab, hleast⟩ := heapPop_twice hs.heap_sound h2
  have hf := hs.forest.perm hperm
  obtain ⟨-, hf₁, -⟩ := hf.withNode
  obtain ⟨ht, -⟩ := hf.withBoth
  have hjoined := hf.joined htotal
  obtain ⟨h, hins, -, -, hperm', -⟩ := insertKeepsTheHeap h₂ (s.tree.joinNode a b) hs₂
    (by have := hs.fits; omega) (hjoined.held _ List.mem_cons_self).1
    fun m hm => (List.rel_of_pairwise_cons hjoined.keys_distinct hm).symm
  refine ⟨h, a, b, h₂.occupied, ?_, hperm, hab, hleast, hperm'⟩
  rw [mergeIteration, act_bind_run (onHeap_run hpop₁), act_bind_run (onHeap_run hpop₂),
    act_bind_run (Forest.appendIfNew_run (s := { s with heap := h₂ }) hf),
    act_bind_run (Forest.appendIfNew_run (s := { s with heap := h₂, tree := s.tree.withNode a })
      (hf₁.perm (.swap _ _ _))),
    act_bind_run (onTree_run (treeAppend_run _ ht))]
  exact onHeap_run hins

/-- MERGE on two nodes or more leaves the heap and TREE of its merge iteration: the node that may be left alone
stands in TREE already, and Finalize appends nothing. -/
theorem mergeBody_joins {s : State} (hs : s.Merging) (h2 : 2 ≤ s.heap.size.toNat) :
    ∃ t a b rest, mergeBody s = .ok () t ∧ t.tree = s.tree.joined a b ∧
      s.heap.occupied.Perm (a :: b :: rest) ∧ keyBelow a b = true ∧ (∀ x ∈ rest, keyBelow b x = true) ∧
      t.heap.occupied.Perm (s.tree.joinNode a b :: rest) := by
  obtain ⟨h, a, b, rest, hrun, hperm, hab, hleast, hperm'⟩ := mergeIteration_joins hs h2
  obtain ⟨ht, -⟩ := (hs.forest.perm hperm).withBoth
  rw [mergeBody_merge h2 hrun]
  by_cases h1 : h.size.toNat = 1
  · have hroot : h.nodeAt 0 = s.tree.joinNode a b := by
      have hmem := hperm'.subset (Heap.occupied_of_size_one h1 ▸ List.mem_cons_self)
      have hlen := hperm'.length_eq
      rw [Heap.occupied_of_size_one h1, List.length_singleton, List.length_cons] at hlen
      rw [List.length_eq_zero_iff.1 (show rest.length = 0 by omega)] at hmem
      exact List.mem_singleton.1 hmem
    have hold : (h.nodeAt 0).insertedAt ≠ Config.none := by
      rw [hroot]
      exact Tree.size_ne_none ht
    rw [if_pos h1, finalize_old (Heap.slot_eq (by decide)) hold]
    exact ⟨_, a, b, rest, rfl, rfl, hperm, hab, hleast, hperm'⟩
  · rw [if_neg h1]
    exact ⟨_, a, b, rest, rfl, rfl, hperm, hab, hleast, hperm'⟩

section Joined

variable {hist : Hist} {total : Nat} {a b : Node} {rest : List Node} {t : Tree}

/-- TREE_SIZE grows by the new nodes and the merge node. -/
theorem Forest.joined_size (hf : Forest hist total (a :: b :: rest) t) :
    (t.joined a b).size.toNat = t.size.toNat + (if a.insertedAt = Config.none then 1 else 0) +
      (if b.insertedAt = Config.none then 1 else 0) + 1 := by
  obtain ⟨-, hf₁, hsize₁⟩ := hf.withNode
  obtain ⟨-, -, hsize₂⟩ := (hf₁.perm (.swap _ _ _)).withNode
  rw [Tree.joined, Tree.grown_size _ hf.withBoth.1, hsize₂, hsize₁]

/-- The copies stand in TREE as the merge node's children (42_tree.md R142). -/
theorem Forest.joined_children (hf : Forest hist total (a :: b :: rest) t) :
    (t.joined a b).nodeAt (t.joinNode a b).left.toNat = t.copyOf a ∧
      (t.joined a b).nodeAt (t.joinNode a b).right.toNat = (t.withNode a).copyOf b := by
  obtain ⟨ht, ha, hb, hf'⟩ := hf.withBoth
  obtain ⟨hlt, hat⟩ := hf'.in_tree List.mem_cons_self ha
  obtain ⟨hlt', hbt⟩ := hf'.in_tree (List.mem_cons_of_mem _ List.mem_cons_self) hb
  exact ⟨(Tree.grown_nodeAt_old ht hlt).trans hat, (Tree.grown_nodeAt_old ht hlt').trans hbt⟩

end Joined

/-- Settles O18, by what one MERGE joins: the copies' indices are those of the two appends. -/
theorem mergeJoinsTheTwoLeast : Obligations.MergeJoinsTheTwoLeast := by
  intro s ⟨⟨hlegal, _⟩, ⟨_, hfit, _⟩, _, _, hlaw, _⟩ hp h2
  obtain ⟨-, hN, -⟩ := s.legal_bounds hlegal
  obtain ⟨hs, -⟩ := (heapedSound_iff hN hfit).1 (hlaw hp)
  obtain ⟨t, a, b, rest, hrun, htree, hperm, hab, hleast, hperm'⟩ := mergeBody_joins hs h2
  have hf := hs.forest.perm hperm
  obtain ⟨ht, -⟩ := hf.withBoth
  obtain ⟨-, -, hsize₁⟩ := hf.withNode
  obtain ⟨hleft, hright⟩ := hf.joined_children
  have ha : (s.tree.joinNode a b).left = _ := s.tree.copyOf_index a
  have hb : (s.tree.joinNode a b).right = _ := (s.tree.withNode a).copyOf_index b
  refine ⟨t, a, b, s.tree.joinNode a b, rest, exec_of_ok rfl hp hrun, hperm, hab, hleast, hperm', ?_, ?_, ?_, ?_, ?_,
    ?_, fun hnew => ?_, fun hold => ?_, fun hnew hnewa => ?_, fun hnew holda => ?_, fun hold => ?_, ?_⟩
  · simp [Tree.joinNode, mergeNode]
  · simp [Tree.joinNode, mergeNode]
  · rw [htree, hleft]
    exact s.tree.copyOf_eq a
  · rw [htree, hright]
    exact (s.tree.withNode a).copyOf_eq b
  · rw [htree]
    exact Tree.grown_nodeAt_new ht
  · rw [htree]
    exact (Tree.grown_size _ ht).symm
  · rw [ha, if_pos hnew]
  · rw [ha, if_neg hold]
  · rw [hb, if_pos hnew, hsize₁, if_pos hnewa]
  · rw [hb, if_pos hnew, Tree.withNode_old holda]
  · rw [hb, if_neg hold]
  · rw [htree]
    exact hf.joined_size

end Sys2Proof.Machine


/-!
Codes as paths: CodeOf's code leads from the root to the symbol's leaf, and no path goes on past a leaf.
-/

namespace Sys2Proof.Machine

section Paths

variable {t : Tree} {i : Fin Config.domainSize} {k : Nat}

/-! ### Paths -/

/-- A path goes on from where its first part ends. -/
theorem follow_append (t : Tree) (n : Node) (p q : List Bool) :
    follow t n (p ++ q) = (follow t n p).bind fun m => follow t m q := by
  induction p generalizing n with
  | nil => rfl
  | cons b p ih =>
    rw [List.cons_append, follow, follow]
    split
    · rfl
    · split
      · exact ih _
      · rfl

/-- A leaf's only path is the empty one. -/
theorem follow_leaf {n m : Node} {p : List Bool} (hn : n.isLeaf = true) (hp : follow t n p = some m) :
    p = [] ∧ m = n := by
  cases p with
  | nil => exact ⟨rfl, (Option.some.inj hp).symm⟩
  | cons b p => rw [follow, if_pos hn] at hp; cases hp

/-- The first turn of a path from a node that is no leaf. -/
theorem follow_cons {n c : Node} {b : Bool} {p : List Bool} (hn : n.isLeaf = false)
    (hc : t.slots[(if b then n.right else n.left).toNat]? = some c) : follow t n (b :: p) = follow t c p := by
  rw [follow, if_neg (by simp [hn]), hc]

/-! ### CodeOf -/

theorem Tree.read_ok {j : Index} {n : Node} : t.read j = .ok n ↔ t.slots[j.toNat]? = some n := by
  unfold Tree.read
  split <;> simp_all

/-- Two readers in a row answer exactly when both do. -/
theorem except_bind_ok {ε α β : Type} {x : Except ε α} {f : α → Except ε β} {b : β} :
    (x >>= f) = .ok b ↔ ∃ a, x = .ok a ∧ f a = .ok b := by
  cases x <;> simp [bind, Except.bind]

/-- CodeOf's loop passes a node that is no leaf by one turn, left exactly when the symbol is in the left child's
set (43_encode.md R162). -/
theorem codeFrom_turn {fuel : Nat} {n : Node} {code : List Bool} (hn : n.isLeaf = false)
    (h : codeFrom t i k fuel n = .ok code) :
    ∃ fuel' l b c rest, t.slots[n.left.toNat]? = some l ∧ (b = false ↔ memSet i l.symbolSet = true) ∧
      t.slots[(if b then n.right else n.left).toNat]? = some c ∧ codeFrom t i k fuel' c = .ok rest ∧
      code = b :: rest := by
  cases fuel with
  | zero =>
    rw [codeFrom, if_neg (by simp [hn])] at h
    split at h <;> cases h
  | succ fuel =>
    rw [codeFrom, if_neg (by simp [hn])] at h
    split at h
    · cases h
    obtain ⟨l, hl, h⟩ := except_bind_ok.1 h
    split at h
    · rename_i hmem
      obtain ⟨rest, hrest, ⟨⟩⟩ := except_bind_ok.1 h
      exact ⟨fuel, l, false, l, rest, Tree.read_ok.1 hl, by simp [hmem], Tree.read_ok.1 hl, hrest, rfl⟩
    · rename_i hmem
      obtain ⟨r, hr, h⟩ := except_bind_ok.1 h
      obtain ⟨rest, hrest, ⟨⟩⟩ := except_bind_ok.1 h
      exact ⟨fuel, l, true, r, rest, Tree.read_ok.1 hl, by simp [hmem], Tree.read_ok.1 hr, hrest, rfl⟩

/-- CodeOf's loop ends normally in a leaf only when it is the symbol's (43_encode.md R164). -/
theorem codeFrom_leaf {fuel : Nat} {n : Node} {code : List Bool} (hn : n.isLeaf = true)
    (h : codeFrom t i k fuel n = .ok code) : n.symbolSet = singletonSet i ∧ code = [] := by
  cases fuel <;>
    · rw [codeFrom, if_pos hn] at h
      split at h
      · rename_i hset
        cases h
        exact ⟨hset, rfl⟩
      · cases h

/-- The code leads to the symbol's leaf (43_encode.md R162). -/
theorem codeFrom_follow {fuel : Nat} {n : Node} {code : List Bool} (h : codeFrom t i k fuel n = .ok code) :
    ∃ leaf, follow t n code = some leaf ∧ leaf.isLeaf = true ∧ leaf.symbolSet = singletonSet i := by
  induction code generalizing fuel n with
  | nil =>
    cases hn : n.isLeaf with
    | true => exact ⟨n, rfl, hn, (codeFrom_leaf hn h).1⟩
    | false =>
      obtain ⟨_, _, _, _, _, _, _, _, _, ⟨⟩⟩ := codeFrom_turn hn h
  | cons b rest ih =>
    cases hn : n.isLeaf with
    | true => cases (codeFrom_leaf hn h).2
    | false =>
      obtain ⟨_, _, _, c, _, _, _, hc, hrest, ⟨⟩⟩ := codeFrom_turn hn h
      rw [follow_cons hn hc]
      exact ih hrest

/-- CodeOf answers from the root: the single bit 0 where it is a leaf (R174), and else what its loop does. -/
theorem codeOf_ok {root : Index} {code : List Bool} (h : codeOf t root i k = .ok code) :
    ∃ r, t.slots[root.toNat]? = some r ∧
      ((r.isLeaf = true ∧ r.symbolSet = singletonSet i ∧ code = [false]) ∨
        (r.isLeaf = false ∧ codeFrom t i k Config.treeCap r = .ok code)) := by
  obtain ⟨r, hr, h⟩ := except_bind_ok.1 h
  refine ⟨r, Tree.read_ok.1 hr, ?_⟩
  split at h
  · rename_i hleaf
    split at h
    · rename_i hset
      cases h
      exact .inl ⟨hleaf, hset, rfl⟩
    · cases h
  · rename_i hleaf
    exact .inr ⟨by simpa using hleaf, h⟩

/-- With an internal root the code leads from it to the symbol's leaf. -/
theorem codeOf_follow {root : Index} {r : Node} {code : List Bool} (hr : t.slots[root.toNat]? = some r)
    (hin : r.isLeaf = false) (h : codeOf t root i k = .ok code) :
    ∃ leaf, follow t r code = some leaf ∧ leaf.isLeaf = true ∧ leaf.symbolSet = singletonSet i := by
  obtain ⟨r', hr', ⟨hleaf, -⟩ | ⟨-, hfrom⟩⟩ := codeOf_ok h <;> cases hr.symm.trans hr'
  · cases hin.symm.trans hleaf
  · exact codeFrom_follow hfrom

theorem singletonSet_inj {j : Fin Config.domainSize} : singletonSet i = singletonSet j ↔ i = j :=
  ⟨fun h => Fin.ext (Option.some.inj ((lsb_singletonSet i).symm.trans ((congrArg lsb h).trans (lsb_singletonSet j)))),
    congrArg singletonSet⟩

end Paths

/-- Settles O23: a code that extends another goes on past the other's leaf, which no path does. -/
theorem prefixFreeCodes : Obligations.PrefixFreeCodes := by
  rintro t root r i j k k' ci _ hr hin hi hj hne ⟨p, rfl⟩
  obtain ⟨leaf, hleaf, hend, hset⟩ := codeOf_follow hr hin hi
  obtain ⟨leaf', hleaf', -, hset'⟩ := codeOf_follow hr hin hj
  rw [follow_append, hleaf, Option.bind_some] at hleaf'
  obtain ⟨-, rfl⟩ := follow_leaf hend hleaf'
  exact hne (singletonSet_inj.1 (hset.symm.trans hset'))

end Sys2Proof.Machine


/-!
The order of merging: nodes are joined in ascending key, so the children of an earlier merge node have smaller keys
than those of a later one, and lie no higher in the finished tree.
-/

namespace Sys2Proof.Machine

/-! ### Ranks and weights -/

/-- A rank lies in the interval of its weight. -/
theorem Node.rank_bounds (n : Node) : n.weight.toNat * 95 ≤ n.rank ∧ n.rank < (n.weight.toNat + 1) * 95 := by
  have hlow : (lsb n.symbolSet).getD 0 < 95 := by
    cases h : lsb n.symbolSet with
    | none => decide
    | some i => exact (lsb_eq_some.1 h).1
  rw [Node.rank]
  omega

theorem Node.rank_lt_of_weight_lt {a b : Node} (h : a.weight.toNat < b.weight.toNat) : a.rank < b.rank := by
  have := a.rank_bounds
  have := b.rank_bounds
  omega

theorem Node.weight_le_of_rank_lt {a b : Node} (h : a.rank < b.rank) : a.weight.toNat ≤ b.weight.toNat := by
  have := a.rank_bounds
  have := b.rank_bounds
  omega

/-- A rank does not depend on the node's index. -/
theorem Tree.copyOf_rank (t : Tree) (n : Node) : (t.copyOf n).rank = n.rank := by
  rw [Node.rank, Node.rank, Tree.copyOf_weight, Tree.copyOf_symbolSet]

/-! ### Children -/

/-- Slot p of TREE holds a node that is no leaf. -/
abbrev Tree.Internal (t : Tree) (p : Nat) : Prop := (t.nodeAt p).isLeaf = false

/-- The child of slot p at turn b, 0 left and 1 right. -/
def Tree.child (t : Tree) (p : Nat) (b : Bool) : Node :=
  t.nodeAt (if b then (t.nodeAt p).right else (t.nodeAt p).left).toNat

section Children

variable {t : Tree} {hist : Hist} {p : Nat}

theorem Tree.Sound.nodeAt_unused (hs : t.Sound hist) (hp : t.size.toNat ≤ p) : t.nodeAt p = unusedNode := by
  obtain ⟨hrest, -⟩ := hs
  obtain hlt | hge := Nat.lt_or_ge p 189
  · exact hrest p hlt hp
  · exact Tree.nodeAt_of_le hge

/-- An internal node of a sound tree stands below TREE_SIZE, its children below it (42_tree.md R151), and its
weight is the sum of theirs (R152). -/
theorem Tree.Sound.internal (hs : t.Sound hist) (hp : t.Internal p) :
    p < t.size.toNat ∧ (t.nodeAt p).left.toNat < p ∧ (t.nodeAt p).right.toNat < p ∧
      (t.nodeAt p).weight.toNat = (t.child p false).weight.toNat + (t.child p true).weight.toNat := by
  have hlt : p < t.size.toNat := by
    by_contra hge
    rw [Tree.Internal, hs.nodeAt_unused (not_lt.1 hge)] at hp
    cases hp
  obtain ⟨-, hnodes⟩ := hs
  obtain ⟨-, -, ⟨i, -, hleaf⟩ | ⟨hl, hr, -, -, -, hw⟩⟩ := hnodes p hlt
  · rw [Tree.Internal, hleaf] at hp
    cases hp
  · exact ⟨hlt, hl, hr, hw⟩

/-- Appending keeps the internal nodes below the old TREE_SIZE, and their children. -/
theorem Tree.Sound.internal_grown (hs : t.Sound hist) (ht : t.size.toNat < 189) {n : Node}
    (hp : (t.grown n).Internal p) (hne : p ≠ t.size.toNat) :
    t.Internal p ∧ ∀ b, (t.grown n).child p b = t.child p b := by
  have hat : (t.grown n).nodeAt p = t.nodeAt p := by rw [Tree.grown_nodeAt ht, if_neg hne.symm]
  have hp : t.Internal p := (congrArg Node.isLeaf hat).symm.trans hp
  obtain ⟨hlt, hl, hr, -⟩ := hs.internal hp
  refine ⟨hp, fun b => ?_⟩
  rw [Tree.child, hat]
  cases b
  · exact Tree.grown_nodeAt_old ht (hl.trans hlt)
  · exact Tree.grown_nodeAt_old ht (hr.trans hlt)

end Children

/-! ### The order of merging -/

/-- TREE and the roots `ns` are made by merging in ascending key: the children of an earlier merge node come
before those of a later one, and all of them before the roots. -/
structure Tree.InMergeOrder (t : Tree) (ns : List Node) : Prop where
  earlier : ∀ {p q : Nat} (b c : Bool), p < q → t.Internal p → t.Internal q → (t.child p b).rank < (t.child q c).rank
  below : ∀ {p : Nat} {n : Node} (b : Bool), t.Internal p → n ∈ ns → (t.child p b).rank < n.rank

section MergeOrder

variable {hist : Hist} {total : Nat} {a b n : Node} {ns ms rest : List Node} {t : Tree}

theorem Tree.InMergeOrder.perm (ho : t.InMergeOrder ns) (hp : ns.Perm ms) : t.InMergeOrder ms :=
  ⟨ho.earlier, fun b hi hn => ho.below b hi (hp.symm.subset hn)⟩

/-- Before the first merge there are only leaves. -/
theorem emptyTree_inMergeOrder (ns : List Node) : emptyTree.InMergeOrder ns :=
  have hleaf {p : Nat} (hp : emptyTree.Internal p) : False :=
    absurd ((forest_leaves zeroHist).tree.internal hp).1 (Nat.not_lt_zero p)
  ⟨fun _ _ _ hp _ => (hleaf hp).elim, fun _ hp _ => (hleaf hp).elim⟩

/-- A copy of a root in TREE keeps the order: a root that is new is a leaf. -/
theorem Tree.InMergeOrder.withNode (ho : t.InMergeOrder (n :: rest)) (hf : Forest hist total (n :: rest) t) :
    (t.withNode n).InMergeOrder (t.copyOf n :: rest) := by
  by_cases hnew : n.insertedAt = Config.none
  · obtain ⟨ht, -⟩ := hf.append hnew
    obtain ⟨i, -, hleaf⟩ := hf.is_leaf List.mem_cons_self hnew
    have hold {p : Nat} (hp : (t.grown n).Internal p) : t.Internal p ∧ ∀ b, (t.grown n).child p b = t.child p b := by
      refine hf.tree.internal_grown ht hp ?_
      rintro rfl
      rw [Tree.Internal, Tree.grown_nodeAt_new ht, hleaf] at hp
      cases hp
    rw [Tree.withNode_new hnew]
    refine ⟨fun b c hpq hp hq => ?_, fun {p m} b hp hm => ?_⟩
    · rw [(hold hp).2, (hold hq).2]
      exact ho.earlier b c hpq (hold hp).1 (hold hq).1
    · rw [(hold hp).2]
      obtain rfl | hm := List.mem_cons.1 hm
      · rw [Tree.copyOf_rank]
        exact ho.below b (hold hp).1 List.mem_cons_self
      · exact ho.below b (hold hp).1 (List.mem_cons_of_mem _ hm)
  · rw [Tree.withNode_old hnew, Tree.copyOf_old hnew]
    exact ho

/-- Joining the two roots of least key keeps the order: their keys are above those joined before, and below those
of the other roots and of their merge node. -/
theorem Tree.InMergeOrder.join (ho : t.InMergeOrder (a :: b :: rest)) (hf : Forest hist total (a :: b :: rest) t)
    (htotal : total < 2 ^ 32) (ha : a.insertedAt ≠ Config.none) (hb : b.insertedAt ≠ Config.none)
    (hab : a.rank < b.rank) (hleast : ∀ x ∈ rest, b.rank < x.rank) :
    (t.grown (mergeNode a b)).InMergeOrder ({ mergeNode a b with insertedAt := t.size } :: rest) := by
  obtain ⟨ht, hf'⟩ := hf.join htotal ha hb
  have hold {p : Nat} := hf.tree.internal_grown (n := mergeNode a b) (p := p) ht
  have hchild (c : Bool) : (t.grown (mergeNode a b)).child t.size.toNat c = if c then b else a := by
    obtain ⟨hat, hta⟩ := hf.in_tree List.mem_cons_self ha
    obtain ⟨hbt, htb⟩ := hf.in_tree (List.mem_cons_of_mem _ List.mem_cons_self) hb
    rw [Tree.child, Tree.grown_nodeAt_new ht]
    cases c
    · exact (Tree.grown_nodeAt_old ht hat).trans hta
    · exact (Tree.grown_nodeAt_old ht hbt).trans htb
  have hnew (c : Bool) : a.rank ≤ ((t.grown (mergeNode a b)).child t.size.toNat c).rank ∧
      ((t.grown (mergeNode a b)).child t.size.toNat c).rank ≤ b.rank := by
    rw [hchild]
    cases c
    · exact ⟨le_rfl, hab.le⟩
    · exact ⟨hab.le, le_rfl⟩
  have hmerged : b.rank < ({ mergeNode a b with insertedAt := t.size } : Node).rank := by
    have hweights := hf.weights
    have hweights' := hf'.weights
    have haw : a.weight.toNat ≠ 0 := fun h =>
      (hf.held a List.mem_cons_self).2.1 (BitVec.eq_of_toNat_eq h)
    simp only [List.map_cons, List.sum_cons] at hweights hweights'
    change (mergeNode a b).weight.toNat + _ = _ at hweights'
    exact Node.rank_lt_of_weight_lt (show b.weight.toNat < (mergeNode a b).weight.toNat by omega)
  refine ⟨fun {p q} c d hpq hp hq => ?_, fun {p n} c hp hn => ?_⟩
  · obtain ⟨hq_lt, -⟩ := hf'.tree.internal hq
    rw [Tree.grown_size _ ht] at hq_lt
    obtain ⟨hp, hpc⟩ := hold hp (by omega)
    rw [hpc]
    by_cases hqs : q = t.size.toNat
    · subst hqs
      exact (ho.below c hp List.mem_cons_self).trans_le (hnew d).1
    · obtain ⟨hq, hqc⟩ := hold hq hqs
      rw [hqc]
      exact ho.earlier c d hpq hp hq
  · have hroots : b.rank < n.rank := by
      obtain rfl | hn := List.mem_cons.1 hn
      · exact hmerged
      · exact hleast n hn
    by_cases hps : p = t.size.toNat
    · subst hps
      exact (hnew c).2.trans_lt hroots
    · obtain ⟨hp, hpc⟩ := hold hp hps
      rw [hpc]
      exact (ho.below c hp (List.mem_cons_of_mem _ List.mem_cons_self)).trans hroots

/-- One merge iteration on the two roots of least key keeps the order. -/
theorem Tree.InMergeOrder.joined (ho : t.InMergeOrder (a :: b :: rest)) (hf : Forest hist total (a :: b :: rest) t)
    (htotal : total < 2 ^ 32) (hab : a.rank < b.rank) (hleast : ∀ x ∈ rest, b.rank < x.rank) :
    (t.joined a b).InMergeOrder (t.joinNode a b :: rest) := by
  obtain ⟨-, ha, hb, hf'⟩ := hf.withBoth
  obtain ⟨-, hf₁, -⟩ := hf.withNode
  have ho₁ := (ho.withNode hf).perm (.swap _ _ _)
  have ho₂ := (ho₁.withNode (hf₁.perm (.swap _ _ _))).perm (.swap _ _ _)
  refine ho₂.join hf' htotal ha hb ?_ ?_
  · rwa [Tree.copyOf_rank, Tree.copyOf_rank]
  · rwa [Tree.copyOf_rank]

end MergeOrder

/-! ### MERGE and BUILD keep the order -/

/-- TREE and the nodes of the heap are in the order of merging. -/
abbrev State.InMergeOrder (s : State) : Prop := s.tree.InMergeOrder s.heap.occupied

/-- Finalize keeps the order. -/
theorem finalize_inMergeOrder {s t : State} (hs : s.Merging) (ho : s.InMergeOrder) (h1 : s.heap.size.toNat = 1)
    (hr : finalize s = .ok () t) : t.InMergeOrder := by
  have hslot : s.heap.slots[0]? = some (s.heap.nodeAt 0) := Heap.slot_eq (by decide)
  by_cases hnew : (s.heap.nodeAt 0).insertedAt = Config.none
  · have hf := hs.forest
    rw [Heap.occupied_of_size_one h1] at hf
    rw [State.InMergeOrder, Heap.occupied_of_size_one h1] at ho
    cases (finalize_new hslot hnew (hf.append hnew).1).symm.trans hr
    have hcopy := ho.withNode hf
    rw [Tree.withNode_new hnew, Tree.copyOf_new hnew] at hcopy
    show (s.tree.grown _).InMergeOrder (s.heap.put 0 _).occupied
    rwa [Heap.occupied_of_size_one (h := s.heap.put 0 _) h1, Heap.put_nodeAt (by decide), if_pos rfl]
  · cases (finalize_old hslot hnew).symm.trans hr
    exact ho

/-- MERGE keeps the order. -/
theorem mergeBody_inMergeOrder {s t : State} (hs : s.Merging) (ho : s.InMergeOrder) (hr : mergeBody s = .ok () t) :
    t.InMergeOrder := by
  by_cases h2 : 2 ≤ s.heap.size.toNat
  · obtain ⟨u, a, b, rest, hrun, htree, hperm, hab, hleast, hperm'⟩ := mergeBody_joins hs h2
    cases hrun.symm.trans hr
    have hf := hs.forest.perm hperm
    have hset {n : Node} (hn : n ∈ a :: b :: rest) := (hf.held n hn).1
    have hb := hset (List.mem_cons_of_mem _ List.mem_cons_self)
    rw [State.InMergeOrder, htree]
    exact ((ho.perm hperm).joined hf (lt_of_le_of_lt hs.total (by decide))
      ((keyBelow_iff (hset List.mem_cons_self) hb).1 hab) fun x hx =>
        (keyBelow_iff hb (hset (List.mem_cons_of_mem _ (List.mem_cons_of_mem _ hx)))).1 (hleast x hx)).perm hperm'.symm
  · rw [mergeBody_skip h2] at hr
    split at hr
    · rename_i h1
      exact finalize_inMergeOrder hs ho h1 hr
    · cases hr
      exact ho

/-- BUILD's loop keeps the order. -/
theorem buildLoop_inMergeOrder {fuel : Nat} {s t : State} (hN : s.inputLen ≤ 65536) (hfit : s.heap.size.toNat ≤ 95)
    (hs : s.HeapedSound) (ho : s.InMergeOrder) (hp : s.phase ≠ .built) (hr : buildLoop fuel s = .ok () t) :
    t.InMergeOrder := by
  induction fuel generalizing s with
  | zero => cases hr
  | succ fuel ih =>
    have hpass {u : State} := mergeBody_inMergeOrder (t := u) ((heapedSound_iff hN hfit).1 hs).1 ho
    obtain ⟨h, tree, ⟨hrun, hsize, hs'⟩ | ⟨r, hrun, -⟩⟩ := mergeBody_run hN hfit hs
    · rw [buildLoop_pass hrun hp] at hr
      exact ih (s := { s with heap := h, tree := tree }) hN (show h.size.toNat ≤ 95 by omega) hs' (hpass hrun) hp hr
    · cases (buildLoop_last hrun rfl).symm.trans hr
      exact hpass hrun

/-! ### Depths in the finished tree -/

section Depths

variable {t : Tree} {hist : Hist} {root : Nat} {p q : List Bool} {x y : Node}

/-- The first turn of a path from a slot leads from an internal slot to its child. -/
theorem follow_turn {m : Nat} {b : Bool} (h : follow t (t.nodeAt m) (b :: p) = some x) :
    t.Internal m ∧ ∀ q, follow t (t.nodeAt m) (b :: q) = follow t (t.child m b) q := by
  rw [follow] at h
  split at h
  · cases h
  · rename_i hin
    have hin : t.Internal m := by simpa using hin
    split at h
    · rename_i c hc
      exact ⟨hin, fun q => by rw [follow_cons hin hc, Tree.child, Tree.nodeAt_eq_of_slot hc]⟩
    · cases h

/-- The last turn of a path from a slot leads from an internal slot to its child. -/
theorem follow_concat {b : Bool} (h : follow t (t.nodeAt root) (p ++ [b]) = some x) :
    ∃ m, follow t (t.nodeAt root) p = some (t.nodeAt m) ∧ t.Internal m ∧ x = t.child m b := by
  induction p generalizing root with
  | nil =>
    obtain ⟨hin, hturn⟩ := follow_turn h
    exact ⟨root, rfl, hin, (Option.some.inj ((hturn []).symm.trans h)).symm⟩
  | cons c p ih =>
    obtain ⟨-, hturn⟩ := follow_turn h
    rw [hturn]
    exact ih ((hturn _).symm.trans h)

/-- A path from a slot ends in a slot. -/
theorem follow_slot (h : follow t (t.nodeAt root) p = some x) : ∃ m, x = t.nodeAt m := by
  obtain rfl | ⟨p, b, rfl⟩ := p.eq_nil_or_concat'
  · exact ⟨root, (Option.some.inj h).symm⟩
  · obtain ⟨m, -, -, hx⟩ := follow_concat h
    exact ⟨_, hx⟩

/-- Of two merge nodes the one with the heavier child is the heavier, when it was merged later: its children have
the larger keys (41_heap.md R120). -/
theorem Tree.InMergeOrder.weight_lt {ns : List Node} (ho : t.InMergeOrder ns) (hs : t.Sound hist) {m n : Nat} {b c : Bool}
    (hnm : n < m) (hm : t.Internal m) (hn : t.Internal n)
    (hlt : (t.child n c).weight.toNat < (t.child m b).weight.toNat) :
    (t.nodeAt n).weight.toNat < (t.nodeAt m).weight.toNat := by
  obtain ⟨-, -, -, hmw⟩ := hs.internal hm
  obtain ⟨-, -, -, hnw⟩ := hs.internal hn
  have hother := Node.weight_le_of_rank_lt (ho.earlier (!c) (!b) hnm hn hm)
  cases b <;> cases c <;> simp only [Bool.not_true, Bool.not_false] at hother <;> omega

/-- A node heavier than another lies no lower in the finished tree (42_tree.md R156). By induction from the root
down: were the heavier node joined first, it would have the smaller key; so its parent was made later, and is the
heavier of the two parents. A node lies at one depth only, since it is the child of one node. -/
theorem length_le_of_weight_lt (hs : t.Sound hist) (ho : t.InMergeOrder [t.nodeAt root])
    (hx : follow t (t.nodeAt root) p = some x) (hy : follow t (t.nodeAt root) q = some y)
    (hlt : y.weight.toNat < x.weight.toNat ∨ x = y) : p.length ≤ q.length := by
  have not_below {x y : Node} (hlt : y.weight.toNat < x.weight.toNat ∨ x = y) : ¬ x.rank < y.rank := fun h => by
    obtain hlt | rfl := hlt
    · exact absurd (Node.weight_le_of_rank_lt h) (not_le_of_gt hlt)
    · exact lt_irrefl _ h
  induction q using List.reverseRecOn generalizing p x y with
  | nil =>
    obtain rfl | ⟨p, b, rfl⟩ := p.eq_nil_or_concat'
    · exact le_rfl
    · obtain ⟨m, -, hm, rfl⟩ := follow_concat hx
      cases hy
      exact absurd (ho.below b hm (List.mem_singleton_self _)) (not_below hlt)
  | append_singleton q c ih =>
    obtain rfl | ⟨p, b, rfl⟩ := p.eq_nil_or_concat'
    · exact Nat.zero_le _
    · obtain ⟨m, hxm, hm, rfl⟩ := follow_concat hx
      obtain ⟨n, hyn, hn, rfl⟩ := follow_concat hy
      rw [List.length_append, List.length_append]
      refine Nat.add_le_add_right (ih hxm hyn ?_) 1
      obtain hmn | rfl | hnm := Nat.lt_trichotomy m n
      · exact absurd (ho.earlier b c hmn hm hn) (not_below hlt)
      · exact .inr rfl
      · obtain hlt | heq := hlt
        · exact .inl (ho.weight_lt hs hnm hm hn hlt)
        · exact absurd (ho.earlier c b hnm hn hm) (not_below (.inr heq.symm))

/-- The weight of a symbol's leaf in a sound tree is its counter (42_tree.md R152). -/
theorem Tree.Sound.leaf_weight (hs : t.Sound hist) {m : Nat} {i : Fin Config.domainSize}
    (hleaf : (t.nodeAt m).isLeaf = true) (hset : (t.nodeAt m).symbolSet = singletonSet i) :
    (t.nodeAt m).weight = hist[i] := by
  obtain hlt | hge := Nat.lt_or_ge m t.size.toNat
  · obtain ⟨-, hnodes⟩ := hs
    obtain ⟨-, -, ⟨j, -, hnode⟩ | ⟨hleft, -⟩⟩ := hnodes m hlt
    · rw [hnode] at hset ⊢
      rw [← singletonSet_inj.1 hset]
      rfl
    · rw [(isLeaf_iff.1 hleaf).1] at hleft
      have := t.size.isLt
      exact absurd hleft (show ¬ 255 < m by omega)
  · rw [hs.nodeAt_unused hge] at hset
    exact absurd hset.symm (leafNode_symbolSet_ne hist i)

end Depths

/-! ### The statement about code lengths -/

/-- HEAPIFY leaves the leaves of the counted symbols and an empty TREE, in the order of merging. -/
theorem exec_heapify_inMergeOrder {s t : State} (hs : s.Ready .counted) (ht : exec .heapify s = .next t) :
    t.Ready .heaped ∧ t.hist = s.hist ∧ t.InMergeOrder := by
  obtain ⟨-, -, htree, -⟩ := hs.law
  obtain ⟨t', ht', hsame, -⟩ := heapifyBuildsTheHeap s hs.phase
  cases ht'.symm.trans ht
  obtain ⟨-, hbody⟩ := body_of_exec (i := .heapify) rfl ht (by rw [hsame]; nofun)
  refine ⟨heapifyBody_ready.ok hs hbody, by rw [hsame], ?_⟩
  rw [State.InMergeOrder, hsame]
  exact htree ▸ emptyTree_inMergeOrder _

/-- BUILD leaves a sound tree that is made in the order of merging, with the root as its last node. -/
theorem exec_build_inMergeOrder {s t : State} (hs : s.Ready .heaped) (ho : s.InMergeOrder)
    (ht : exec .build s = .next t) :
    t.tree.Sound s.hist ∧ t.tree.InMergeOrder [t.tree.nodeAt t.root.toNat] := by
  obtain ⟨-, hN, -⟩ := s.legal_bounds hs.legal
  obtain ⟨-, hfit, -⟩ := hs.ranges
  have hp : s.phase ≠ .built := by rw [hs.phase]; nofun
  obtain ⟨h, tree, r, hrun, -, h1, -, hsound, -, -, hroot, -⟩ := buildBody_run hN hfit hs.law hp
  cases (exec_of_ok (i := .build) rfl hs.phase hrun).symm.trans ht
  have ho' := buildLoop_inMergeOrder hN hfit hs.law ho hp hrun
  rw [State.InMergeOrder, Heap.occupied_of_size_one h1, hroot] at ho'
  exact ⟨hsound, ho'⟩

/-- Settles O25: the codes are the depths of the symbols' leaves, which weigh as much as their counters, and a heavier
node of a tree made in the order of merging lies no lower. -/
theorem frequentSymbolsHaveShorterCodes : Obligations.FrequentSymbolsHaveShorterCodes := by
  intro s t u i j k k' ci cj hs hp ht hu hi hj hlt
  obtain ⟨⟨hlegal, -⟩, hdata⟩ := State.inv_iff.1 hs
  obtain ⟨hready, hhist, horder⟩ :=
    exec_heapify_inMergeOrder ⟨hlegal, hdata.ranges, hp, hp ▸ hdata.law⟩ ht
  obtain ⟨hsound, hbuilt⟩ := exec_build_inMergeOrder hready horder hu
  obtain ⟨r, hr, ⟨hlone, -, rfl⟩ | ⟨hin, -⟩⟩ := codeOf_ok hi
  · obtain ⟨r', hr', ⟨-, -, rfl⟩ | ⟨hin, -⟩⟩ := codeOf_ok hj <;> cases hr.symm.trans hr'
    · exact le_rfl
    · cases hin.symm.trans hlone
  · obtain ⟨x, hx, hxleaf, hxset⟩ := codeOf_follow hr hin hi
    obtain ⟨y, hy, hyleaf, hyset⟩ := codeOf_follow hr hin hj
    cases Tree.nodeAt_eq_of_slot hr
    obtain ⟨m, rfl⟩ := follow_slot hx
    obtain ⟨n, rfl⟩ := follow_slot hy
    refine length_le_of_weight_lt hsound hbuilt hx hy (.inl ?_)
    rw [hsound.leaf_weight hxleaf hxset, hsound.leaf_weight hyleaf hyset, hhist]
    exact hlt

end Sys2Proof.Machine


/-!
CodeOf's turns: each bit of a code is the turn of the descent at its node, and a descent that meets a malformed node
stops there.
-/

namespace Sys2Proof.Machine

section Descent

variable {t : Tree} {i : Fin Config.domainSize} {k : Nat}

/-! ### The turns of a code -/

/-- Every bit of a code is taken at a node that is no leaf, and is 0 exactly when the symbol is in the left child's
set (43_encode.md R162). -/
theorem codeFrom_turns {fuel : Nat} {n : Node} {code p : List Bool} {b : Bool}
    (h : codeFrom t i k fuel n = .ok code) (hp : (p ++ [b]) <+: code) :
    ∃ m l, follow t n p = some m ∧ m.isLeaf = false ∧ t.slots[m.left.toNat]? = some l ∧
      (b = false ↔ memSet i l.symbolSet = true) := by
  induction p generalizing fuel n code with
  | nil =>
    cases hn : n.isLeaf with
    | true =>
      rw [(codeFrom_leaf hn h).2] at hp
      cases List.prefix_nil.1 hp
    | false =>
      obtain ⟨_, l, _, _, _, hl, hturn, -, -, rfl⟩ := codeFrom_turn hn h
      obtain ⟨rfl, -⟩ := List.cons_prefix_cons.1 hp
      exact ⟨n, l, rfl, hn, hl, hturn⟩
  | cons a p ih =>
    cases hn : n.isLeaf with
    | true =>
      rw [(codeFrom_leaf hn h).2] at hp
      cases List.prefix_nil.1 hp
    | false =>
      obtain ⟨_, _, _, c, _, _, _, hc, hrest, rfl⟩ := codeFrom_turn hn h
      obtain ⟨rfl, hpre⟩ := List.cons_prefix_cons.1 hp
      rw [follow_cons hn hc]
      exact ih hrest hpre

/-! ### The loop of CodeOf, run -/

/-- At a leaf the loop ends, or raises SYMBOL_ABSENT when it is another symbol's (43_encode.md R164). -/
theorem codeFrom_at_leaf (fuel : Nat) {n : Node} (hn : n.isLeaf = true) :
    codeFrom t i k fuel n = if n.symbolSet = singletonSet i then .ok [] else raiseAt .symbolAbsent k := by
  cases fuel <;> rw [codeFrom, if_pos hn] <;> rfl

/-- At a malformed node the loop raises TREE_CORRUPT (43_encode.md R163). -/
theorem codeFrom_malformed (fuel : Nat) {n : Node} (hn : n.isMalformed = true) :
    codeFrom t i k fuel n = raiseAt .treeCorrupt k := by
  have hleaf : ¬ n.isLeaf = true := fun h => isMalformed_iff.1 hn (iff_of_true (isLeaf_iff.1 h).1 (isLeaf_iff.1 h).2)
  cases fuel <;> rw [codeFrom, if_neg hleaf, if_pos hn]

/-- At a node with two children the loop emits its turn and goes on at the child (43_encode.md R162). -/
theorem codeFrom_descend (fuel : Nat) {n l c : Node} {b : Bool} (hn : n.isLeaf = false) (hm : n.isMalformed = false)
    (hl : t.slots[n.left.toNat]? = some l) (hb : b = false ↔ memSet i l.symbolSet = true)
    (hc : t.slots[(if b then n.right else n.left).toNat]? = some c) :
    codeFrom t i k (fuel + 1) n = (b :: ·) <$> codeFrom t i k fuel c := by
  rw [codeFrom, if_neg (by simp [hn]), if_neg (by simp [hm]), Tree.read_ok.2 hl]
  cases b with
  | false =>
    cases hl.symm.trans hc
    exact if_pos (hb.1 rfl)
  | true =>
    have hc : t.read n.right = .ok c := Tree.read_ok.2 hc
    rw [hc]
    exact if_neg (by simp [← hb])

/-- CodeOf at an internal root is its loop. -/
theorem codeOf_internal {root : Index} {r : Node} (hr : t.slots[root.toNat]? = some r) (hin : r.isLeaf = false) :
    codeOf t root i k = codeFrom t i k Config.treeCap r := by
  rw [codeOf, Tree.read_ok.2 hr]
  exact if_neg (by simp [hin])

/-- CodeOf at a leaf root gives the lone symbol's code, or raises SYMBOL_ABSENT (43_encode.md R174). -/
theorem codeOf_lone {root : Index} {r : Node} (hr : t.slots[root.toNat]? = some r) (hleaf : r.isLeaf = true) :
    codeOf t root i k = if r.symbolSet = singletonSet i then .ok [false] else raiseAt .symbolAbsent k := by
  rw [codeOf, Tree.read_ok.2 hr]
  exact if_pos hleaf

/-! ### A malformed node on the way -/

/-- The descent behind its first turn is the descent from the child. -/
theorem Tree.Leads.tail {r n : Node} {b : Bool} {p : List Bool} (h : t.Leads i r (b :: p) n) :
    r.isLeaf = false ∧ ∃ l c, t.slots[r.left.toNat]? = some l ∧ (b = false ↔ memSet i l.symbolSet = true) ∧
      t.slots[(if b then r.right else r.left).toNat]? = some c ∧ t.Leads i c p n := by
  obtain ⟨hpath, hturns⟩ := h
  obtain ⟨_, l, ⟨⟩, hl, hb⟩ := hturns [] b (List.cons_prefix_cons.2 ⟨rfl, List.nil_prefix⟩)
  cases hr : r.isLeaf with
  | true => cases (follow_leaf hr hpath).1
  | false =>
    cases hc : t.slots[(if b then r.right else r.left).toNat]? with
    | none =>
      rw [follow, if_neg (by simp [hr]), hc] at hpath
      cases hpath
    | some c =>
      refine ⟨rfl, l, c, hl, hb, rfl, (follow_cons hr hc).symm.trans hpath, fun q a hq => ?_⟩
      obtain ⟨m, l, hm, hl⟩ := hturns (b :: q) a (List.cons_prefix_cons.2 ⟨rfl, hq⟩)
      exact ⟨m, l, (follow_cons hr hc).symm.trans hm, hl⟩

/-- A descent that meets a malformed node, there or before, raises TREE_CORRUPT (43_encode.md R163). -/
theorem Tree.Leads.codeFrom_corrupt {fuel : Nat} {r n : Node} {p : List Bool} (h : t.Leads i r p n)
    (hn : n.OneChild) (hfuel : p.length ≤ fuel) : codeFrom t i k fuel r = raiseAt .treeCorrupt k := by
  induction p generalizing r fuel with
  | nil =>
    cases h.1
    exact codeFrom_malformed fuel (isMalformed_iff.2 hn)
  | cons b p ih =>
    obtain ⟨hr, l, c, hl, hb, hc, htail⟩ := h.tail
    cases hm : r.isMalformed with
    | true => exact codeFrom_malformed fuel hm
    | false =>
      obtain ⟨fuel, rfl⟩ := Nat.exists_eq_add_one_of_ne_zero (Nat.ne_zero_of_lt hfuel)
      rw [codeFrom_descend fuel hr hm hl hb hc, ih htail (Nat.le_of_succ_le_succ hfuel)]
      rfl

/-- CodeOf raises TREE_CORRUPT when its descent meets a malformed node. -/
theorem Tree.Leads.codeOf_corrupt {root : Index} {r n : Node} {p : List Bool} (h : t.Leads i r p n)
    (hr : t.slots[root.toNat]? = some r) (hn : n.OneChild) (hp : p.length ≤ 188) :
    codeOf t root i k = raiseAt .treeCorrupt k := by
  have hin : r.isLeaf = false := by
    cases p with
    | nil =>
      cases h.1
      exact Bool.eq_false_iff.2 fun hleaf => hn (iff_of_true (isLeaf_iff.1 hleaf).1 (isLeaf_iff.1 hleaf).2)
    | cons b p => exact h.tail.1
  rw [codeOf_internal hr hin]
  exact h.codeFrom_corrupt hn (Nat.le_succ_of_le hp)

/-! ### What CodeOf raises -/

/-- The stop is a fault, or one of CodeOf's two raises for position `k` (43_encode.md R163, R164). -/
def CodeStop (k : Nat) (e : Stop) : Prop :=
  ∀ r, e = .raise r → r.info = BitVec.ofNat 32 k ∧ (r.code = .treeCorrupt ∨ r.code = .symbolAbsent)

theorem raiseAt_codeStop {α : Type} {code : ErrCode} (k : Nat) (h : code = .treeCorrupt ∨ code = .symbolAbsent) :
    StopsIn (CodeStop k) (raiseAt code k : Except Stop α) := .error <| by rintro _ ⟨⟩; exact ⟨rfl, h⟩

theorem Tree.read_codeStop (t : Tree) (j : Index) (k : Nat) : StopsIn (CodeStop k) (t.read j) := by
  unfold Tree.read
  split
  · exact .ok
  · exact .error nofun

theorem codeFrom_codeStop (fuel : Nat) (n : Node) : StopsIn (CodeStop k) (codeFrom t i k fuel n) := by
  induction fuel generalizing n with
  | zero =>
    exact .ite (.ite .ok (raiseAt_codeStop k (.inr rfl))) (.ite (raiseAt_codeStop k (.inl rfl)) (.error nofun))
  | succ fuel ih =>
    exact .ite (.ite .ok (raiseAt_codeStop k (.inr rfl))) (.ite (raiseAt_codeStop k (.inl rfl))
      (.bind (t.read_codeStop _ k) fun l => .ite (.bind (ih l) fun _ => .ok)
        (.bind (t.read_codeStop _ k) fun r => .bind (ih r) fun _ => .ok)))

theorem codeOf_codeStop (root : Index) : StopsIn (CodeStop k) (codeOf t root i k) :=
  .bind (t.read_codeStop root k) fun n =>
    .ite (.ite .ok (raiseAt_codeStop k (.inr rfl))) (codeFrom_codeStop _ n)

end Descent

/-- Settles O22: a leaf root gives the bit 0, and from an internal root the code's bits are the turns that lead to the
symbol's leaf. -/
theorem codeOfFollowsTheTree : Obligations.CodeOfFollowsTheTree := by
  intro t root i k code h
  obtain ⟨r, hr, hlone | ⟨hin, hfrom⟩⟩ := codeOf_ok h
  · exact ⟨r, hr, .inl hlone⟩
  · exact ⟨r, hr, .inr ⟨hin, codeFrom_follow hfrom, fun _ _ => codeFrom_turns hfrom⟩⟩

end Sys2Proof.Machine


/-!
CodeOf in a finished tree: its descent reaches the leaf of every symbol of the root's set and misses every other, and
no code is longer than the number of internal nodes, which is one less than the number of symbols.
-/

namespace Sys2Proof.Machine

/-! ### Sets of symbols -/

/-- The domain indices in a symbol set, as a finite set, to count them. -/
def members (s : SymbolSet) : Finset (Fin Config.domainSize) := Finset.univ.filter fun i => memSet i s = true

theorem mem_members {s : SymbolSet} {i : Fin Config.domainSize} : i ∈ members s ↔ memSet i s = true := by
  simp [members]

theorem memSet_or (i : Fin Config.domainSize) (a b : SymbolSet) : memSet i (a ||| b) = (memSet i a || memSet i b) :=
  BitVec.getLsbD_or

theorem memSet_singletonSet {i j : Fin Config.domainSize} : memSet i (singletonSet j) = true ↔ i = j := by
  rw [memSet, singletonSet_getLsbD, decide_eq_true_eq, Fin.ext_iff]

theorem ne_singletonSet {s : SymbolSet} {i : Fin Config.domainSize} (h : memSet i s = false) : s ≠ singletonSet i := by
  rintro rfl
  exact Bool.false_ne_true (h.symm.trans (memSet_singletonSet.2 rfl))

theorem members_card_pos {s : SymbolSet} (h : s ≠ 0#95) : 1 ≤ (members s).card := by
  obtain ⟨j, hj⟩ := Option.ne_none_iff_exists'.1 (mt lsb_eq_none.1 h)
  obtain ⟨hlt, hin, -⟩ := lsb_eq_some.1 hj
  exact Finset.card_pos.2 ⟨⟨j, hlt⟩, mem_members.2 hin⟩

/-- Disjoint sets have as many symbols together as each for itself. -/
theorem members_card_or {a b : SymbolSet} (h : a &&& b = 0#95) :
    (members (a ||| b)).card = (members a).card + (members b).card := by
  have hunion : members (a ||| b) = members a ∪ members b := by
    ext i
    simp only [Finset.mem_union, mem_members, memSet_or, Bool.or_eq_true]
  have hdisjoint : Disjoint (members a) (members b) := by
    refine Finset.disjoint_left.2 fun i ha hb => ?_
    have hbit : (a &&& b).getLsbD i.val = true := by
      rw [BitVec.getLsbD_and, Bool.and_eq_true]
      exact ⟨mem_members.1 ha, mem_members.1 hb⟩
    rw [h, BitVec.getLsbD_zero] at hbit
    cases hbit
  rw [hunion, Finset.card_union_of_disjoint hdisjoint]

/-- A set of exactly the counted symbols has DISTINCT members. -/
theorem members_card_counted {hist : Hist} {s : SymbolSet} (h : ∀ i, hist[i] ≠ 0#32 ↔ memSet i s = true) :
    (members s).card = distinctOf hist := by
  have hfilter : members s = ((List.finRange Config.domainSize).filter fun i => hist[i] != 0#32).toFinset := by
    ext i
    rw [mem_members, List.mem_toFinset, List.mem_filter, bne_iff_ne, h i]
    exact (and_iff_right (List.mem_finRange i)).symm
  rw [hfilter, List.toFinset_card_of_nodup ((List.nodup_finRange _).filter _), distinctOf_eq]

/-! ### Nodes of a sound tree -/

section SoundTree

variable {t : Tree} {hist : Hist} {p k : Nat} {i : Fin Config.domainSize}

/-- A leaf of a sound tree is a counted symbol's (42_tree.md R152). -/
theorem Tree.Sound.leaf_set (hs : t.Sound hist) (hp : p < t.size.toNat) (hleaf : (t.nodeAt p).isLeaf = true) :
    ∃ j, (t.nodeAt p).symbolSet = singletonSet j := by
  obtain ⟨-, hnodes⟩ := hs
  obtain ⟨-, -, ⟨j, -, hnode⟩ | ⟨hleft, -⟩⟩ := hnodes p hp
  · exact ⟨j, by rw [hnode]; rfl⟩
  · rw [(isLeaf_iff.1 hleaf).1] at hleft
    have := t.size.isLt
    exact absurd hleft (show ¬ 255 < p by omega)

/-- A child stands in a lower slot than its parent. -/
theorem Tree.Sound.child_below (hs : t.Sound hist) (hp : t.Internal p) (b : Bool) :
    ∃ q < p, t.child p b = t.nodeAt q := by
  obtain ⟨-, hl, hr, -⟩ := hs.internal hp
  cases b
  · exact ⟨_, hl, rfl⟩
  · exact ⟨_, hr, rfl⟩

/-- An internal node's set is the disjoint union of its children's (42_tree.md R151). -/
theorem Tree.Sound.internal_sets (hs : t.Sound hist) (hp : t.Internal p) :
    (t.nodeAt p).symbolSet = (t.child p false).symbolSet ||| (t.child p true).symbolSet ∧
      (t.child p false).symbolSet &&& (t.child p true).symbolSet = 0#95 ∧
      ∀ b, (t.child p b).symbolSet ≠ 0#95 := by
  obtain ⟨hlt, -⟩ := hs.internal hp
  have hbelow := hs.child_below hp
  obtain ⟨-, hnodes⟩ := hs
  have hchild (b : Bool) : (t.child p b).symbolSet ≠ 0#95 := by
    obtain ⟨q, hq, hq'⟩ := hbelow b
    obtain ⟨-, hset, -⟩ := hnodes q (hq.trans hlt)
    rwa [hq']
  obtain ⟨-, -, ⟨j, -, hleaf⟩ | ⟨-, -, -, hset, hdisjoint, -⟩⟩ := hnodes p hlt
  · rw [Tree.Internal, hleaf] at hp
    cases hp
  · exact ⟨hset, hdisjoint, hchild⟩

/-- A child has fewer symbols than its parent. -/
theorem Tree.Sound.child_card_lt (hs : t.Sound hist) (hp : t.Internal p) (b : Bool) :
    (members (t.child p b).symbolSet).card < (members (t.nodeAt p).symbolSet).card := by
  obtain ⟨hset, hdisjoint, hchild⟩ := hs.internal_sets hp
  have hother := members_card_pos (hchild (!b))
  rw [hset, members_card_or hdisjoint]
  cases b <;> simp only [Bool.not_true, Bool.not_false] at hother <;> omega

/-- At an internal node of a sound tree CodeOf's loop turns to the left child when the symbol is in its set, and else
to the right one. -/
theorem Tree.Sound.codeFrom_internal (hs : t.Sound hist) (hp : t.Internal p) (fuel : Nat) {b : Bool}
    (hb : b = false ↔ memSet i (t.child p false).symbolSet = true) :
    codeFrom t i k (fuel + 1) (t.nodeAt p) = (b :: ·) <$> codeFrom t i k fuel (t.child p b) := by
  obtain ⟨hlt, hl, hr, -⟩ := hs.internal hp
  have hp189 : p < 189 := by
    by_contra hge
    rw [Tree.Internal, Tree.nodeAt_of_le (not_lt.1 hge)] at hp
    cases hp
  have hslot (c : Bool) :
      t.slots[(if c then (t.nodeAt p).right else (t.nodeAt p).left).toNat]? = some (t.child p c) := by
    cases c
    · exact Tree.slot_eq (hl.trans hp189)
    · exact Tree.slot_eq (hr.trans hp189)
  have hnone {x : Index} (hx : x.toNat < p) : x ≠ 0xFF#8 := by
    rintro rfl
    exact absurd hx (show ¬ 255 < p by omega)
  have hm : (t.nodeAt p).isMalformed = false :=
    Bool.eq_false_iff.2 fun h => isMalformed_iff.1 h (iff_of_false (hnone hl) (hnone hr))
  exact codeFrom_descend fuel hp hm (hslot false) hb (hslot b)

/-! ### The descent -/

/-- The descent finds every symbol of a node's set, by a code shorter than the number of the set's symbols: each turn
leaves out the symbols of the other child (43_encode.md R173). -/
theorem Tree.Sound.codeFrom_member (hs : t.Sound hist) {fuel : Nat} (hp : p < t.size.toNat) (hfuel : p ≤ fuel)
    (hi : memSet i (t.nodeAt p).symbolSet = true) :
    ∃ code, codeFrom t i k fuel (t.nodeAt p) = .ok code ∧
      code.length + 1 ≤ (members (t.nodeAt p).symbolSet).card := by
  induction p using Nat.strong_induction_on generalizing fuel with
  | _ p ih =>
    cases hn : (t.nodeAt p).isLeaf with
    | true =>
      obtain ⟨j, hset⟩ := hs.leaf_set hp hn
      obtain rfl := memSet_singletonSet.1 (hset ▸ hi)
      exact ⟨[], by rw [codeFrom_at_leaf fuel hn, if_pos hset], Finset.card_pos.2 ⟨i, mem_members.2 hi⟩⟩
    | false =>
      obtain ⟨b, hb, hmem⟩ : ∃ b, (b = false ↔ memSet i (t.child p false).symbolSet = true) ∧
          memSet i (t.child p b).symbolSet = true := by
        rw [(hs.internal_sets hn).1, memSet_or, Bool.or_eq_true] at hi
        cases hleft : memSet i (t.child p false).symbolSet with
        | true => exact ⟨false, by simp, hleft⟩
        | false => exact ⟨true, by simp, hi.resolve_left (by simp [hleft])⟩
      obtain ⟨q, hq, hchild⟩ := hs.child_below hn b
      have hcard := hs.child_card_lt hn b
      obtain ⟨fuel, rfl⟩ := Nat.exists_eq_add_one_of_ne_zero (Nat.ne_zero_of_lt (hq.trans_le hfuel))
      obtain ⟨code, hcode, hlen⟩ := ih q hq (fuel := fuel) (hq.trans hp) (by omega) (hchild ▸ hmem)
      refine ⟨b :: code, ?_, ?_⟩
      · rw [hs.codeFrom_internal hn fuel hb, hchild, hcode]
        rfl
      · rw [hchild] at hcard
        exact Nat.succ_le_of_lt (hlen.trans_lt hcard)

/-- The descent for a symbol outside a node's set turns right at every node, down to another symbol's leaf
(43_encode.md R164). -/
theorem Tree.Sound.codeFrom_absent (hs : t.Sound hist) {fuel : Nat} (hp : p < t.size.toNat) (hfuel : p ≤ fuel)
    (hi : memSet i (t.nodeAt p).symbolSet = false) :
    codeFrom t i k fuel (t.nodeAt p) = raiseAt .symbolAbsent k := by
  induction p using Nat.strong_induction_on generalizing fuel with
  | _ p ih =>
    cases hn : (t.nodeAt p).isLeaf with
    | true =>
      rw [codeFrom_at_leaf fuel hn, if_neg (ne_singletonSet hi)]
    | false =>
      rw [(hs.internal_sets hn).1, memSet_or, Bool.or_eq_false_iff] at hi
      obtain ⟨hleft, hright⟩ := hi
      obtain ⟨q, hq, hchild⟩ := hs.child_below hn true
      obtain ⟨fuel, rfl⟩ := Nat.exists_eq_add_one_of_ne_zero (Nat.ne_zero_of_lt (hq.trans_le hfuel))
      rw [hs.codeFrom_internal hn fuel (b := true) (by simp [hleft]), hchild,
        ih q hq (hq.trans hp) (by omega) (hchild ▸ hright)]
      rfl

/-! ### CodeOf -/

section FromRoot

variable {root : Index}

/-- CodeOf gives every symbol of the root's set a code, of length 1 at a leaf root (43_encode.md R173, R174). -/
theorem Tree.Sound.codeOf_member (hs : t.Sound hist) (hcap : t.size.toNat ≤ 189) (hroot : root.toNat < t.size.toNat)
    (hi : memSet i (t.nodeAt root.toNat).symbolSet = true) :
    ∃ code, codeOf t root i k = .ok code ∧ 1 ≤ code.length ∧
      code.length ≤ max 1 ((members (t.nodeAt root.toNat).symbolSet).card - 1) := by
  have hslot : t.slots[root.toNat]? = some (t.nodeAt root.toNat) := Tree.slot_eq (hroot.trans_le hcap)
  cases hin : (t.nodeAt root.toNat).isLeaf with
  | true =>
    obtain ⟨j, hset⟩ := hs.leaf_set hroot hin
    obtain rfl := memSet_singletonSet.1 (hset ▸ hi)
    exact ⟨[false], by rw [codeOf_lone hslot hin, if_pos hset], le_rfl, le_max_left _ _⟩
  | false =>
    obtain ⟨code, hcode, hlen⟩ := hs.codeFrom_member (k := k) hroot (hroot.le.trans hcap) hi
    obtain ⟨_, _, _, _, _, -, -, -, -, rfl⟩ := codeFrom_turn hin hcode
    exact ⟨_, (codeOf_internal hslot hin).trans hcode, Nat.succ_pos _, le_max_of_le_right (Nat.le_sub_of_add_le hlen)⟩

/-- CodeOf raises SYMBOL_ABSENT for every symbol outside the root's set (43_encode.md R164). -/
theorem Tree.Sound.codeOf_absent (hs : t.Sound hist) (hcap : t.size.toNat ≤ 189) (hroot : root.toNat < t.size.toNat)
    (hi : memSet i (t.nodeAt root.toNat).symbolSet = false) : codeOf t root i k = raiseAt .symbolAbsent k := by
  have hslot : t.slots[root.toNat]? = some (t.nodeAt root.toNat) := Tree.slot_eq (hroot.trans_le hcap)
  cases hin : (t.nodeAt root.toNat).isLeaf with
  | true => exact (codeOf_lone hslot hin).trans (if_neg (ne_singletonSet hi))
  | false => exact (codeOf_internal hslot hin).trans (hs.codeFrom_absent hroot (hroot.le.trans hcap) hi)

end FromRoot

end SoundTree

/-- Settles O24: the root's set is that of the counted symbols, DISTINCT of them, which is at most 95 and at most N. -/
theorem codeOfFindsCountedSymbols : Obligations.CodeOfFindsCountedSymbols := by
  rintro s i k ⟨-, -, -, -, -, hbuilt⟩ hp
  obtain ⟨⟨-, -, htotal⟩, -, -, (hsound : s.tree.Sound s.hist), hsize, hroot, -, -, hcovers⟩ := hbuilt hp
  have hcovers (j : Fin Config.domainSize) :
      s.hist[j] ≠ 0#32 ↔ memSet j (s.tree.nodeAt s.root.toNat).symbolSet = true := by
    simpa only [List.mem_singleton, exists_eq_left] using hcovers j
  have hD := distinctOf_le s.hist
  have hDN := distinctOf_le_histTotal s.hist
  refine ⟨fun hi => ?_, fun hi => ?_⟩
  · obtain ⟨code, hcode, hpos, hlen⟩ := hsound.codeOf_member (k := k) (by omega) (by omega) ((hcovers i).1 hi)
    rw [members_card_counted hcovers] at hlen
    exact ⟨code, hcode, hpos, by omega⟩
  · exact hsound.codeOf_absent (by omega) (by omega) (Bool.eq_false_iff.2 fun h => (hcovers i).2 h hi)

end Sys2Proof.Machine


/-!
The packed stream, bit by bit: what Pack and its two-fragment form write.
-/

namespace Sys2Proof.Machine

/-! ### Words and their stream bits -/

/-- Two buffers of the same size with the same stream bits are the same. -/
theorem words_eq_of_bitRead {ws ws' : List Word} (hlen : ws.length = ws'.length)
    (h : ∀ o < 32 * ws.length, bitRead ws o = bitRead ws' o) : ws = ws' := by
  refine List.ext_getElem hlen fun w hw hw' => BitVec.eq_of_getLsbD_eq fun j hj => ?_
  have hbit := h (32 * w + (31 - j)) (by omega)
  have hword : (32 * w + (31 - j)) / 32 = w := by omega
  have hpos : 32 - 1 - (32 * w + (31 - j)) % 32 = j := by omega
  simpa only [bitRead, Config.wordBits, hword, hpos, List.getElem?_eq_getElem hw, List.getElem?_eq_getElem hw',
    Option.some.injEq] using hbit

/-- Or-ing a number into one word changes the stream bits of that word by the number's bits. -/
theorem bitRead_orWord (ws : List Word) (w n o : Nat) :
    bitRead (ws.modify w fun x => x ||| BitVec.ofNat 32 n) o =
      (bitRead ws o).map fun b => b || (decide (w = o / 32) && n.testBit (31 - o % 32)) := by
  have hpos : 31 - o % 32 < 32 := by omega
  unfold bitRead
  rw [List.getElem?_modify]
  cases ws[o / Config.wordBits]? with
  | none => rfl
  | some x => by_cases hw : w = o / 32 <;> simp [hw, hpos, BitVec.getLsbD_ofNat, -BitVec.getLsbD_eq_getElem]

/-! ### Pack -/

theorem packBit_bitlen {c : CodeStream} (b : Bool) (h : c.bitlen.toNat + 1 < 2 ^ 32) :
    (packBit c b).bitlen.toNat = c.bitlen.toNat + 1 := pack_bitlen c [b] h

/-- Pack writes the code's bits from BITLEN on and keeps every other bit (43_encode.md R165). -/
theorem bitRead_pack {c : CodeStream} {code : List Bool} (hfit : c.bitlen.toNat + code.length ≤ 32 * c.words.length)
    (hsize : 32 * c.words.length < 2 ^ 32) (o : Nat) :
    bitRead (pack c code).words o =
      if c.bitlen.toNat ≤ o ∧ o < c.bitlen.toNat + code.length then code[o - c.bitlen.toNat]?
      else bitRead c.words o := by
  induction code generalizing c with
  | nil => rw [if_neg (by simp)]; rfl
  | cons b rest ih =>
    rw [List.length_cons] at hfit ⊢
    have hbit := packBit_bitlen (c := c) b (by omega)
    have hrest := ih (c := packBit c b) (by rw [hbit, packBit_length]; omega) (by rwa [packBit_length])
    rw [hbit, show (packBit c b).words = bitWrite c.words c.bitlen.toNat b from rfl,
      bitRead_bitWrite _ _ _ _ (by omega)] at hrest
    refine hrest.trans ?_
    obtain hlt | rfl | hgt := Nat.lt_trichotomy o c.bitlen.toNat
    · rw [if_neg (by omega), if_neg (by omega), if_neg (by omega)]
    · rw [if_neg (by omega), if_pos rfl, if_pos (by omega), Nat.sub_self]
      rfl
    · have hindex : o - c.bitlen.toNat = o - (c.bitlen.toNat + 1) + 1 := by omega
      rw [hindex, List.getElem?_cons_succ, if_neg (c := o = _) (by omega)]
      simp only [show c.bitlen.toNat + 1 ≤ o ↔ c.bitlen.toNat ≤ o by omega, Nat.add_assoc, Nat.add_comm 1]

/-! ### The two-fragment form -/

theorem codeValue_concat (code : List Bool) (b : Bool) : codeValue (code ++ [b]) = Nat.bit b (codeValue code) := by
  rw [codeValue, List.foldl_append, Nat.bit_val]
  rfl

/-- The bits of a code's number are the code's, the last one lowest (43_encode.md R168). -/
theorem codeValue_testBit (code : List Bool) (j : Nat) : (codeValue code).testBit j = code.reverse.getD j false := by
  induction code using List.reverseRecOn generalizing j with
  | nil => simp [codeValue]
  | append_singleton code b ih =>
    rw [codeValue_concat, List.reverse_append]
    cases j with
    | zero => exact Nat.testBit_bit_zero b _
    | succ j => exact (Nat.testBit_bit_succ _ b _).trans (ih j)

/-- The number's bit for stream offset `o`, the code standing at the offsets from `p` on. -/
theorem codeValue_testBit_at {code : List Bool} {p o j : Nat} (hp : p ≤ o) (hj : j + o + 1 = p + code.length) :
    (codeValue code).testBit j = code.getD (o - p) false := by
  rw [codeValue_testBit, List.getD_eq_getElem?_getD, List.getD_eq_getElem?_getD, List.getElem?_reverse (by omega),
    show code.length - 1 - j = o - p by omega]

theorem codeValue_testBit_past {code : List Bool} {j : Nat} (hj : code.length ≤ j) :
    (codeValue code).testBit j = false := by
  rw [codeValue_testBit, List.getD_eq_default _ _ (by rwa [List.length_reverse])]

/-- The bit a code standing at the stream offsets from `p` on gives offset `o`; 0 outside. -/
def codeBitAt (code : List Bool) (p o : Nat) : Bool :=
  decide (p ≤ o ∧ o < p + code.length) && code.getD (o - p) false

section Fragments

variable {code : List Bool} {p : Nat}

/-- A code that fits into the rest of the word is written by one fragment. -/
theorem fragment_whole (h : code.length ≤ 32 - p % 32) (o : Nat) :
    (decide (p / 32 = o / 32) && (codeValue code <<< (32 - p % 32 - code.length)).testBit (31 - o % 32)) =
      codeBitAt code p o := by
  rw [codeBitAt, Nat.testBit_shiftLeft]
  by_cases hin : p ≤ o ∧ o < p + code.length
  · obtain ⟨h1, h2⟩ := hin
    rw [codeValue_testBit_at h1 (by omega), decide_eq_true (by omega), decide_eq_true (by omega),
      decide_eq_true ⟨h1, h2⟩, Bool.true_and]
  · rw [decide_eq_false hin, Bool.false_and]
    by_cases hw : p / 32 = o / 32
    · obtain hlt | hge := Nat.lt_or_ge o p
      · rw [codeValue_testBit_past (by omega), Bool.and_false, Bool.and_false]
      · rw [decide_eq_false (p := 31 - o % 32 ≥ _) (by omega), Bool.false_and, Bool.and_false]
    · rw [decide_eq_false hw, Bool.false_and]

/-- A code that straddles the word boundary is written by a leading and a trailing fragment. -/
theorem fragments_split (h : 32 - p % 32 < code.length) (h32 : code.length ≤ 32) (o : Nat) :
    (decide (p / 32 = o / 32) && (codeValue code >>> (code.length - (32 - p % 32))).testBit (31 - o % 32) ||
      decide (p / 32 + 1 = o / 32) &&
        ((codeValue code % 2 ^ (code.length - (32 - p % 32))) <<< (32 - (code.length - (32 - p % 32)))).testBit
          (31 - o % 32)) = codeBitAt code p o := by
  rw [codeBitAt, Nat.testBit_shiftLeft, Nat.testBit_shiftRight, Nat.testBit_mod_two_pow]
  by_cases hlead : p / 32 = o / 32
  · rw [decide_eq_true hlead, decide_eq_false (p := p / 32 + 1 = o / 32) (by omega), Bool.true_and, Bool.false_and,
      Bool.or_false]
    obtain hlt | hge := Nat.lt_or_ge o p
    · rw [codeValue_testBit_past (by omega), decide_eq_false (by omega), Bool.false_and]
    · rw [codeValue_testBit_at hge (by omega), decide_eq_true (by omega), Bool.true_and]
  · rw [decide_eq_false hlead, Bool.false_and, Bool.false_or]
    by_cases htrail : p / 32 + 1 = o / 32
    · obtain hlt | hge := Nat.lt_or_ge o (p + code.length)
      · rw [codeValue_testBit_at (p := p) (o := o) (by omega) (by omega), decide_eq_true htrail,
          decide_eq_true (p := 31 - o % 32 ≥ _) (by omega), decide_eq_true (p := 31 - o % 32 - _ < _) (by omega),
          decide_eq_true (p := p ≤ o ∧ _) (by omega)]
        rfl
      · rw [decide_eq_false (p := 31 - o % 32 ≥ _) (by omega), decide_eq_false (p := p ≤ o ∧ _) (by omega),
          Bool.false_and, Bool.and_false, Bool.false_and]
    · rw [decide_eq_false htrail, decide_eq_false (p := p ≤ o ∧ _) (by omega), Bool.false_and, Bool.false_and]

end Fragments

/-- The two-fragment form or-s the code's bits into the stream at BITLEN (43_encode.md R168). -/
theorem bitRead_packFragments (c : CodeStream) {code : List Bool} (h32 : code.length ≤ 32) (o : Nat) :
    bitRead (packFragments c code).words o =
      (bitRead c.words o).map fun b => b || codeBitAt code c.bitlen.toNat o := by
  rw [packFragments]
  dsimp only
  split
  · rename_i h
    rw [bitRead_orWord, fragment_whole h]
  · rename_i h
    rw [bitRead_orWord, bitRead_orWord, Option.map_map, ← fragments_split (not_le.1 h) h32]
    exact congrArg (fun f => (bitRead c.words o).map f) (funext fun b => Bool.or_assoc _ _ _)

theorem packFragments_length (c : CodeStream) (code : List Bool) :
    (packFragments c code).words.length = c.words.length := by
  rw [packFragments]
  dsimp only
  split <;> simp only [List.length_modify]

/-- Settles O26: both forms write the code's bits over the zeros from BITLEN on, and keep the bits before. -/
theorem packEqualsFragments : Obligations.PackEqualsFragments := by
  intro c code h32 hfit hsize hzero
  have hwords : (pack c code).words = (packFragments c code).words := by
    refine words_eq_of_bitRead (by rw [pack_length, packFragments_length]) fun o ho => ?_
    rw [pack_length] at ho
    rw [bitRead_pack hfit hsize, bitRead_packFragments c h32, codeBitAt]
    by_cases hin : c.bitlen.toNat ≤ o ∧ o < c.bitlen.toNat + code.length
    · have hlt : o - c.bitlen.toNat < code.length := by omega
      rw [if_pos hin, hzero o hin.1 ho, decide_eq_true hin, List.getElem?_eq_getElem hlt,
        List.getD_eq_getElem _ _ hlt]
      rfl
    · simp only [if_neg hin, decide_eq_false hin, Bool.false_and, Bool.or_false, Option.map_id']
  have hbitlen : (pack c code).bitlen = (packFragments c code).bitlen := by
    refine BitVec.eq_of_toNat_eq ?_
    rw [pack_bitlen c code (by omega), packFragments, BitVec.toNat_ofNat]
    exact (Nat.mod_eq_of_lt (by omega)).symm
  cases hp : pack c code
  cases hf : packFragments c code
  rw [hp, hf] at hwords hbitlen
  exact congrArg₂ CodeStream.mk hwords hbitlen

end Sys2Proof.Machine


/-!
ENCODE, run: its loop packs the codes of the bytes it passes, and stops at the first byte in error with the stream
holding the earlier codes.
-/

namespace Sys2Proof.Machine

/-! ### What the stream holds -/

/-- CODEBUF, of `cw` words, holds exactly `bits`, and 0 after them (43_encode.md R167, R170). -/
structure CodeStream.Holds (cw : Nat) (bits : List Bool) (c : CodeStream) : Prop where
  words : c.words.length = cw
  bitlen : c.bitlen.toNat = bits.length
  stream : ∀ o < cw * 32, bitRead c.words o = some (bits.getD o false)

/-- The stream ENCODE starts with (43_encode.md R170). -/
def CodeStream.cleared (c : CodeStream) : CodeStream :=
  { words := List.replicate c.words.length 0#32, bitlen := 0#32 }

theorem CodeStream.cleared_holds (c : CodeStream) : c.cleared.Holds c.words.length [] := by
  refine ⟨List.length_replicate, rfl, fun o ho => ?_⟩
  rw [CodeStream.cleared, bitRead, List.getElem?_replicate, if_pos (by rw [Config.wordBits]; omega)]
  simp

/-- Pack appends a code that fits to the bits the stream holds (43_encode.md R165). -/
theorem CodeStream.Holds.pack {cw : Nat} {bits code : List Bool} {c : CodeStream} (hc : c.Holds cw bits)
    (hfit : bits.length + code.length ≤ cw * 32) (hcw : cw * 32 < 2 ^ 32) :
    (Machine.pack c code).Holds cw (bits ++ code) := by
  obtain ⟨hwords, hbitlen, hstream⟩ := hc
  refine ⟨(pack_length c code).trans hwords, ?_, fun o ho => ?_⟩
  · rw [pack_bitlen c code (by omega), hbitlen, List.length_append]
  · rw [bitRead_pack (by omega) (by omega), hstream o ho, hbitlen, List.getD_eq_getElem?_getD,
      List.getD_eq_getElem?_getD, List.getElem?_append]
    by_cases hold : o < bits.length
    · rw [if_neg (by omega), if_pos hold]
    · rw [if_neg hold, List.getElem?_eq_none (not_lt.1 hold)]
      by_cases hnew : o < bits.length + code.length
      · have hlt : o - bits.length < code.length := by omega
        rw [if_pos ⟨not_lt.1 hold, hnew⟩, List.getElem?_eq_getElem hlt, Option.getD_some]
      · rw [if_neg (by omega), List.getElem?_eq_none (by omega)]

/-! ### One pass of ENCODE's loop -/

section Loop

variable {t : Tree} {root : Index} {k : Nat} {b : Byte} {rest : List Byte} {c c' : CodeStream}
  {i : Fin Config.domainSize} {code : List Bool}

/-- A byte whose code fits is packed, and the loop goes on. -/
theorem encodeLoop_pass (hb : domainIndex b = some i) (hcode : codeOf t root i k = .ok code)
    (hfit : c.bitlen.toNat + code.length ≤ c.words.length * 32) :
    encodeLoop t root k (b :: rest) c = encodeLoop t root (k + 1) rest (pack c code) := by
  rw [encodeLoop, hb]
  exact (act_bind_run (ofRead_run hcode)).trans ((act_bind_run (act_get c)).trans
    ((congrFun (if_neg (not_lt.2 hfit)) c).trans (act_bind_run (act_set c (pack c code)))))

/-- A byte outside the domain raises DOMAIN (43_encode.md R161). -/
theorem encodeLoop_domain (hb : domainIndex b = none) :
    encodeLoop t root k (b :: rest) c = .error (.raise { code := .domain, info := BitVec.ofNat 32 k }) c := by
  rw [encodeLoop, hb]
  rfl

/-- A stop of CodeOf stops the loop (43_encode.md R163, R164). -/
theorem encodeLoop_codeOf {e : Stop} (hb : domainIndex b = some i) (hcode : codeOf t root i k = .error e) :
    encodeLoop t root k (b :: rest) c = .error e c := by
  rw [encodeLoop, hb]
  exact act_bind_error.2 (.inl (ofRead_error.2 ⟨hcode, rfl⟩))

/-- A code that does not fit raises CAPACITY (43_encode.md R169). -/
theorem encodeLoop_capacity (hb : domainIndex b = some i) (hcode : codeOf t root i k = .ok code)
    (hfit : c.words.length * 32 < c.bitlen.toNat + code.length) :
    encodeLoop t root k (b :: rest) c = .error (.raise { code := .capacity, info := BitVec.ofNat 32 k }) c := by
  rw [encodeLoop, hb]
  exact (act_bind_run (ofRead_run hcode)).trans ((act_bind_run (act_get c)).trans (congrFun (if_pos hfit) c))

/-- The loop passes a byte on to a normal end only by packing its code. -/
theorem encodeLoop_cons_ok (h : encodeLoop t root k (b :: rest) c = .ok () c') :
    ∃ i code, domainIndex b = some i ∧ codeOf t root i k = .ok code ∧
      c.bitlen.toNat + code.length ≤ c.words.length * 32 ∧ encodeLoop t root (k + 1) rest (pack c code) = .ok () c' := by
  cases hb : domainIndex b with
  | none => cases (encodeLoop_domain hb).symm.trans h
  | some i =>
    cases hcode : codeOf t root i k with
    | error e => cases (encodeLoop_codeOf hb hcode).symm.trans h
    | ok code =>
      obtain hfit | hfull := Nat.lt_or_ge (c.words.length * 32) (c.bitlen.toNat + code.length)
      · cases (encodeLoop_capacity hb hcode hfit).symm.trans h
      · exact ⟨i, code, rfl, hcode, hfull, (encodeLoop_pass hb hcode hfull).symm.trans h⟩

end Loop

/-! ### ENCODE's loop over encodable bytes -/

/-- The loop passes the first `j` of the bytes that have codes, and has packed their codes (43_encode.md R167). -/
theorem encodeLoop_reaches {s : State} {k cw : Nat} {codes : List (List Bool)} {c : CodeStream}
    (hcodes : s.CodesOf (s.inbuf.take k) codes) (hfit : codes.flatten.length ≤ cw * 32) (hcw : cw * 32 < 2 ^ 32)
    (hc : c.Holds cw []) {j : Nat} (hj : j ≤ codes.length) :
    ∃ c', c'.Holds cw (codes.take j).flatten ∧
      encodeLoop s.tree s.root 0 s.inbuf c = encodeLoop s.tree s.root j (s.inbuf.drop j) c' := by
  induction j with
  | zero => exact ⟨c, hc, rfl⟩
  | succ j ih =>
    obtain ⟨c', hc', hrun⟩ := ih (Nat.le_of_succ_le hj)
    obtain ⟨hlen, hcode⟩ := hcodes
    have hlt : j < (s.inbuf.take k).length := hlen ▸ hj
    obtain ⟨i, code, hb, hat, hcode⟩ := hcode j _ (List.getElem?_eq_getElem hlt)
    rw [List.length_take] at hlt
    rw [List.getElem_take] at hb
    have hbits : (codes.take (j + 1)).flatten = (codes.take j).flatten ++ code := by
      rw [List.take_add_one, hat, List.flatten_append]
      simp
    have hlen' : (codes.take j).flatten.length + code.length ≤ cw * 32 := by
      rw [← List.length_append, ← hbits]
      exact ((List.take_sublist _ _).flatten.length_le).trans hfit
    refine ⟨pack c' code, hbits ▸ hc'.pack hlen' hcw, hrun.trans ?_⟩
    rw [List.drop_eq_getElem_cons (by omega)]
    exact encodeLoop_pass hb hcode (by rw [hc'.bitlen, hc'.words]; exact hlen')

/-- ENCODE's loop from the cleared stream, at the position after the bytes that have codes. -/
theorem encodeLoop_at {s : State} {k : Nat} {codes : List (List Bool)} (hk : k ≤ s.inbuf.length)
    (hcodes : s.CodesOf (s.inbuf.take k) codes) (hfit : codes.flatten.length ≤ s.codeWords * 32)
    (hcw : s.codeWords * 32 < 2 ^ 32) :
    ∃ c, c.Holds s.codeWords codes.flatten ∧
      encodeLoop s.tree s.root 0 s.inbuf s.code.cleared = encodeLoop s.tree s.root k (s.inbuf.drop k) c := by
  have hlen : codes.length = k := hcodes.1.trans (List.length_take_of_le hk)
  obtain ⟨c, hc, hrun⟩ := encodeLoop_reaches hcodes hfit hcw s.code.cleared_holds hlen.ge
  rw [List.take_of_length_le hlen.le] at hc
  exact ⟨c, hc, hrun⟩

/-! ### ENCODE, by its loop -/

theorem encodeStream_run (t : Tree) (root : Index) (inbuf : List Byte) (c : CodeStream) :
    encodeStream t root inbuf c = encodeLoop t root 0 inbuf c.cleared := rfl

/-- ENCODE's body ends normally exactly when its loop does. -/
theorem encodeBody_ok {s t : State} :
    encodeBody s = .ok () t ↔
      ∃ c, encodeLoop s.tree s.root 0 s.inbuf s.code.cleared = .ok () c ∧ t = { s with code := c, phase := .encoded } := by
  rw [encodeBody, act_bind_run (act_get s), act_bind_ok]
  simp only [onPart_ok, encodeStream_run, act_modify, EStateM.Result.ok.injEq, true_and]
  constructor
  · rintro ⟨_, _, ⟨c, hc, rfl⟩, rfl⟩
    exact ⟨c, hc, rfl⟩
  · rintro ⟨c, hc, rfl⟩
    exact ⟨(), _, ⟨c, hc, rfl⟩, rfl⟩

/-- In BUILT, ENCODE completes when its loop does. -/
theorem exec_encode_of_ok {s : State} {c : CodeStream} (hp : s.phase = .built)
    (hrun : encodeLoop s.tree s.root 0 s.inbuf s.code.cleared = .ok () c) :
    exec .encode s = .next { s with code := c, phase := .encoded } :=
  exec_of_ok (i := .encode) rfl hp (encodeBody_ok.2 ⟨c, hrun, rfl⟩)

/-- In BUILT, ENCODE takes the error of its loop, with CODEBUF and BITLEN as the loop left them
(60_exceptions.md R225). -/
theorem exec_encode_of_error {s : State} {c : CodeStream} {r : Raise} (hp : s.phase = .built)
    (hrun : encodeLoop s.tree s.root 0 s.inbuf s.code.cleared = .error (.raise r) c) :
    exec .encode s = .next ((s.putCode c).takeError 0x06#8 r) := by
  have hbody : encodeBody s = .error (.raise r) (s.putCode c) := by
    rw [encodeBody, act_bind_run (act_get s)]
    exact act_bind_error.2 (.inl (onPart_error.2 ⟨c, hrun, rfl⟩))
  exact (component_run hp nofun).trans (answer_next.2 (.inr ⟨r, inStage_raise.2 ⟨_, hbody, rfl⟩⟩))

/-! ### The statements about ENCODE -/

/-- Settles O27: the loop passes every byte. -/
theorem encodePacksAllCodes : Obligations.EncodePacksAllCodes := by
  intro s codes hp hcodes hfit hcw
  rw [← List.take_length (l := s.inbuf)] at hcodes
  obtain ⟨c, hc, hrun⟩ := encodeLoop_at le_rfl hcodes hfit hcw
  rw [List.drop_length] at hrun
  exact ⟨_, exec_encode_of_ok hp hrun, rfl, hc.words, hc.bitlen, hc.stream⟩

/-- Settles O28: the loop passes the bytes before position `k` and stops at it. -/
theorem encodeStopsAtTheFirstError : Obligations.EncodeStopsAtTheFirstError := by
  intro s k b codes r hp hk hcodes hfit hcw hcause
  obtain ⟨hlt, rfl⟩ := List.getElem?_eq_some_iff.1 hk
  obtain ⟨c, hc, hrun⟩ := encodeLoop_at hlt.le hcodes hfit hcw
  rw [List.drop_eq_getElem_cons hlt] at hrun
  have hstop : encodeLoop s.tree s.root k (s.inbuf[k] :: s.inbuf.drop (k + 1)) c = .error (.raise r) c ∧
      r.info = BitVec.ofNat 32 k := by
    obtain ⟨hb, rfl⟩ | ⟨i, root, p, n, hb, hroot, hleads, hshort, hn, rfl⟩ | ⟨i, hb, hcode⟩ |
      ⟨i, code, hb, hcode, hfull, rfl⟩ := hcause
    · exact ⟨encodeLoop_domain hb, rfl⟩
    · exact ⟨encodeLoop_codeOf hb (hleads.codeOf_corrupt hroot hn hshort), rfl⟩
    · exact ⟨encodeLoop_codeOf hb hcode, (codeOf_codeStop s.root _ hcode r rfl).1⟩
    · exact ⟨encodeLoop_capacity hb hcode (by rwa [hc.words, hc.bitlen]), rfl⟩
  obtain ⟨hstop, hinfo⟩ := hstop
  refine ⟨⟨_, exec_encode_of_error hp (hrun.trans hstop), ?_, hc.words, hc.bitlen, hc.stream⟩, hinfo,
    fun i hcode => (codeOf_codeStop s.root _ hcode r rfl).2⟩
  rw [← hinfo]
  rfl

/-! ### Bit-length conservation -/

/-- The sum of the code lengths of `bytes`, symbol by symbol (43_encode.md R172). -/
def codeLengths (len : Fin Config.domainSize → Nat) (bytes : List Byte) : Nat :=
  ((List.finRange Config.domainSize).map fun i : Fin Config.domainSize => bytes.count (symbolByte i) * len i).sum

theorem codeLengths_cons (len : Fin Config.domainSize → Nat) (i : Fin Config.domainSize) (bytes : List Byte) :
    codeLengths len (symbolByte i :: bytes) = codeLengths len bytes + len i := by
  have hterm (j : Fin Config.domainSize) : (symbolByte i :: bytes).count (symbolByte j) * len j =
      bytes.count (symbolByte j) * len j + if i = j then len j else 0 := by
    rw [List.count_cons, Nat.add_mul]
    simp only [beq_iff_eq, symbolByte_inj, ite_mul, Nat.one_mul, Nat.zero_mul]
  rw [codeLengths, codeLengths, ← Fin.sum_univ_def, ← Fin.sum_univ_def, Finset.sum_congr rfl fun j _ => hterm j,
    Finset.sum_add_distrib, Finset.sum_ite_eq, if_pos (Finset.mem_univ i)]

/-- ENCODE's loop that ends normally has added the length of every byte's code to BITLEN. -/
theorem encodeLoop_bitlen {t : Tree} {root : Index} {len : Fin Config.domainSize → Nat} {k cw : Nat}
    {bytes : List Byte} {c c' : CodeStream} (hcw : cw * 32 < 2 ^ 32) (hwords : c.words.length = cw)
    (hlen : ∀ (i : Fin Config.domainSize) k code, codeOf t root i k = .ok code → code.length = len i)
    (hrun : encodeLoop t root k bytes c = .ok () c') :
    c'.bitlen.toNat = c.bitlen.toNat + codeLengths len bytes := by
  induction bytes generalizing k c with
  | nil =>
    cases hrun
    simp [codeLengths]
  | cons b rest ih =>
    obtain ⟨i, code, hb, hcode, hfit, hrun⟩ := encodeLoop_cons_ok hrun
    rw [domainIndex_eq_some.1 hb, codeLengths_cons, ih ((pack_length c code).trans hwords) hrun,
      pack_bitlen c code (by omega), hlen i k code hcode]
    omega

/-- Settles O29: BITLEN grows by each byte's code length, and HIST counts the bytes. -/
theorem bitLengthConservation : Obligations.BitLengthConservation := by
  intro s t len hp hcw hhist hlen hexec ht
  obtain ⟨-, hbody⟩ := body_of_exec (i := .encode) rfl hexec (by rw [ht]; nofun)
  obtain ⟨c, hrun, rfl⟩ := encodeBody_ok.1 hbody
  have hbitlen := encodeLoop_bitlen hcw s.code.cleared_holds.words hlen hrun
  refine hbitlen.trans ((Nat.zero_add _).trans ?_)
  simp only [hhist]
  rfl

end Sys2Proof.Machine


/-!
The frames of ENCODE, DECODE and VERIFY, from any state.
-/

namespace Sys2Proof.Machine

/-- The states differ only in CODEBUF, BITLEN, PHASE and the error registers. -/
def State.EncodeFrame (s t : State) : Prop :=
  t = { s with code := t.code, phase := t.phase, errCode := t.errCode, errOp := t.errOp, errInfo := t.errInfo }

theorem exec_encode_frame {s t : State} (h : exec .encode s = .next t) : s.EncodeFrame t := by
  have hbody : Keeps s.EncodeFrame Stop.Named encodeBody :=
    encodeBody_keeps (fun _ _ hu _ => by rw [hu]; rfl) fun _ hu => by rw [hu]; rfl
  have hs : s.EncodeFrame s := rfl
  exact Keeps.exec_component (i := .encode) rfl hbody (fun _ _ _ hu => by rw [hu]; rfl) hs h

/-- The states differ only in OUTBUF, DEC_COUNT, PHASE and the error registers. -/
def State.DecodeFrame (s t : State) : Prop :=
  t = { s with out := t.out, phase := t.phase, errCode := t.errCode, errOp := t.errOp, errInfo := t.errInfo }

theorem exec_decode_frame {s t : State} (h : exec .decode s = .next t) : s.DecodeFrame t := by
  have hbody : Keeps s.DecodeFrame Stop.Named decodeBody :=
    decodeBody_keeps (fun _ _ hu _ => by rw [hu]; rfl) fun _ hu => by rw [hu]; rfl
  have hs : s.DecodeFrame s := rfl
  exact Keeps.exec_component (i := .decode) rfl hbody (fun _ _ _ hu => by rw [hu]; rfl) hs h

/-- The states differ only in PHASE and the error registers. -/
def State.VerifyFrame (s t : State) : Prop :=
  t = { s with phase := t.phase, errCode := t.errCode, errOp := t.errOp, errInfo := t.errInfo }

theorem exec_verify_frame {s t : State} (h : exec .verify s = .next t) : s.VerifyFrame t := by
  have hbody : Keeps s.VerifyFrame Raise.Named verifyBody := verifyBody_keeps fun _ hu => by rw [hu]; rfl
  have hs : s.VerifyFrame s := rfl
  exact Keeps.exec_component (i := .verify) rfl hbody.ofSure (fun _ _ _ hu => by rw [hu]; rfl) hs h

/-- Settles O43: the writes of each body, and an error taken, keep its frame. -/
theorem streamCommandsFrame : Obligations.StreamCommandsFrame :=
  ⟨fun _ _ => exec_encode_frame, fun _ _ => exec_decode_frame, fun _ _ => exec_verify_frame⟩

end Sys2Proof.Machine


/-!
DECODE, run: paths that the descent takes, one pass of DECODE's loop, and the loop over the codes of given symbols.
-/

namespace Sys2Proof.Machine

/-! ### Bits still to read -/

/-- The stream holds `bits` from offset `o` on, all of them below BITLEN. -/
structure CodeStream.Reads (c : CodeStream) (o : Nat) (bits : List Bool) : Prop where
  fits : o + bits.length ≤ c.bitlen.toNat
  bit : ∀ j < bits.length, bitRead c.words (o + j) = bits[j]?

section Reads

variable {c : CodeStream} {o : Nat} {b : Bool} {bits p q : List Bool}

theorem StreamStarts.reads (h : StreamStarts c.words bits) (hfit : bits.length ≤ c.bitlen.toNat) : c.Reads 0 bits where
  fits := (Nat.zero_add _).trans_le hfit
  bit j hj := (congrArg (bitRead c.words) (Nat.zero_add j)).trans (h j hj)

theorem CodeStream.readBit_ok : c.readBit o = .ok b ↔ bitRead c.words o = some b := by
  unfold CodeStream.readBit
  split <;> simp_all

theorem CodeStream.Reads.left (h : c.Reads o (p ++ q)) : c.Reads o p := by
  obtain ⟨hfit, hbit⟩ := h
  rw [List.length_append] at hfit hbit
  refine ⟨by omega, fun j hj => ?_⟩
  rw [hbit j (by omega), List.getElem?_append_left hj]

theorem CodeStream.Reads.right (h : c.Reads o (p ++ q)) : c.Reads (o + p.length) q := by
  obtain ⟨hfit, hbit⟩ := h
  rw [List.length_append] at hfit hbit
  refine ⟨by omega, fun j hj => ?_⟩
  rw [Nat.add_assoc, hbit _ (by omega), List.getElem?_append_right (by omega), Nat.add_sub_cancel_left]

theorem CodeStream.Reads.readBit (h : c.Reads o (b :: bits)) : c.readBit o = .ok b :=
  CodeStream.readBit_ok.2 (h.bit 0 (Nat.succ_pos _))

theorem CodeStream.Reads.tail (h : c.Reads o (b :: bits)) : c.Reads (o + 1) bits := h.right (p := [b])

end Reads

/-! ### Paths of the descent -/

/-- The descent from `n` takes the turns `p` to `m`: every node it leaves is neither a leaf nor malformed
(44_decode.md R180, R185). -/
inductive Tree.Descent (t : Tree) : Node → List Bool → Node → Prop
  | here {n : Node} : t.Descent n [] n
  | turn {n c m : Node} {b : Bool} {p : List Bool} : n.isLeaf = false → n.isMalformed = false →
      t.slots[(if b then n.right else n.left).toNat]? = some c → t.Descent c p m → t.Descent n (b :: p) m

section Descents

variable {t : Tree} {n m : Node} {p q : List Bool} {i : Fin Config.domainSize} {k : Nat}

theorem Tree.Descent.split (h : t.Descent n (p ++ q) m) : ∃ x, t.Descent n p x ∧ t.Descent x q m := by
  induction p generalizing n with
  | nil => exact ⟨n, .here, h⟩
  | cons b p ih =>
    obtain _ | ⟨hleaf, hmal, hslot, hrest⟩ := h
    obtain ⟨x, hp, hq⟩ := ih hrest
    exact ⟨x, .turn hleaf hmal hslot hp, hq⟩

/-- A leaf ends every descent. -/
theorem Tree.Descent.not_leaf (h : t.Descent n p m) (hp : p ≠ []) : n.isLeaf = false := by
  obtain _ | ⟨hleaf, -, -, -⟩ := h
  · exact absurd rfl hp
  · exact hleaf

/-- A path that meets no malformed node before its end is a descent. -/
theorem Tree.Descent.of_follow (h : follow t n p = some m)
    (hwell : ∀ q x, q <+: p → q ≠ p → follow t n q = some x → x.isMalformed = false) : t.Descent n p m := by
  induction p generalizing n with
  | nil =>
    cases h
    exact .here
  | cons b p ih =>
    cases hn : n.isLeaf with
    | true => cases (follow_leaf hn h).1
    | false =>
      cases hc : t.slots[(if b then n.right else n.left).toNat]? with
      | none =>
        rw [follow, if_neg (by simp [hn]), hc] at h
        cases h
      | some c =>
        rw [follow_cons hn hc] at h
        refine .turn hn (hwell [] n List.nil_prefix nofun rfl) hc (ih h fun q x hq hne hx => ?_)
        exact hwell (b :: q) x (List.cons_prefix_cons.2 ⟨rfl, hq⟩) (by simpa using hne)
          ((follow_cons hn hc).trans hx)

/-- CodeOf's loop that ends normally has passed no malformed node. -/
theorem codeFrom_descent {fuel : Nat} {code : List Bool} (h : codeFrom t i k fuel n = .ok code) :
    ∃ leaf, t.Descent n code leaf ∧ leaf.isLeaf = true ∧ leaf.symbolSet = singletonSet i := by
  induction code generalizing fuel n with
  | nil =>
    cases hn : n.isLeaf with
    | true => exact ⟨n, .here, hn, (codeFrom_leaf hn h).1⟩
    | false =>
      obtain ⟨_, _, _, _, _, _, _, _, _, ⟨⟩⟩ := codeFrom_turn hn h
  | cons b rest ih =>
    cases hn : n.isLeaf with
    | true => cases (codeFrom_leaf hn h).2
    | false =>
      cases hm : n.isMalformed with
      | true => cases (codeFrom_malformed fuel hm).symm.trans h
      | false =>
        obtain ⟨_, _, _, c, _, _, _, hc, hrest, ⟨⟩⟩ := codeFrom_turn hn h
        obtain ⟨leaf, hpath, hleaf⟩ := ih hrest
        exact ⟨leaf, .turn hn hm hc hpath, hleaf⟩

end Descents

/-! ### DECODE's inner loop -/

section InnerLoop

variable {t : Tree} {c : CodeStream} {n m r : Node} {p bits : List Bool} {b : Bool} {o left : Nat}
  {i : Fin Config.domainSize} {k : Nat}

theorem not_malformed_of_leaf (h : n.isLeaf = true) : n.isMalformed = false :=
  Bool.eq_false_iff.2 fun hm => isMalformed_iff.1 hm (iff_of_true (isLeaf_iff.1 h).1 (isLeaf_iff.1 h).2)

/-- A malformed node stops the descent with the bits consumed (44_decode.md R182). -/
theorem descend_malformed (h : n.isMalformed = true) : descend t c left o n = raiseAt .decodeCorrupt o := by
  cases left <;> exact if_pos h

/-- The descent ends at a leaf. -/
theorem descend_leaf (h : n.isLeaf = true) : descend t c left o n = .ok (n, o) := by
  cases left <;> exact (if_neg (by simp [not_malformed_of_leaf h])).trans (if_pos h)

/-- A stream that ends at a node that is no leaf ends inside a code (44_decode.md R182). -/
theorem descend_truncated (h : n.isLeaf = false) : descend t c 0 o n = raiseAt .decodeCorrupt o := by
  rw [descend, if_neg (c := n.isLeaf = true) (by simp [h]), ite_self]

/-- One turn of the descent. -/
theorem descend_turn {x : Node} (hleaf : n.isLeaf = false) (hmal : n.isMalformed = false) (hbit : c.readBit o = .ok b)
    (hslot : t.slots[(if b then n.right else n.left).toNat]? = some x) :
    descend t c (left + 1) o n = descend t c left (o + 1) x := by
  rw [descend, if_neg (by simp [hmal]), if_neg (by simp [hleaf]), hbit]
  exact congrArg (· >>= _) (Tree.read_ok.2 hslot)

/-- DECODE's inner loop follows a descent whose turns the stream holds. -/
theorem Tree.Descent.descend_eq (h : t.Descent n p m) (hreads : c.Reads o p) :
    descend t c (c.bitlen.toNat - o) o n = descend t c (c.bitlen.toNat - (o + p.length)) (o + p.length) m := by
  induction h generalizing o with
  | here => rfl
  | @turn n x m b p hleaf hmal hslot _ ih =>
    have hfit := hreads.fits
    rw [List.length_cons] at hfit ⊢
    rw [show c.bitlen.toNat - o = c.bitlen.toNat - (o + 1) + 1 by omega, descend_turn hleaf hmal hreads.readBit hslot,
      ih hreads.tail, Nat.add_right_comm o 1, Nat.add_assoc]

/-! ### One pass of DECODE's outer loop -/

/-- With an internal root the pass is the descent from it. -/
theorem nextLeaf_internal (hr : r.isLeaf = false) : nextLeaf t c r o = descend t c (c.bitlen.toNat - o) o r :=
  if_neg (by simp [hr])

/-- With a leaf root the pass takes one bit, which must be 0 (44_decode.md R184). -/
theorem nextLeaf_lone (hr : r.isLeaf = true) (hbit : c.readBit o = .ok b) :
    nextLeaf t c r o = if b then raiseAt .decodeCorrupt (o + 1) else .ok (r, o + 1) := by
  rw [nextLeaf, if_pos hr, hbit]
  rfl

/-- A pass over `bits` from the root `r`, wherever the stream holds them, consumes exactly them and reaches a leaf of
symbol `i`. -/
structure Tree.Decodes (t : Tree) (r : Node) (i : Nat) (bits : List Bool) : Prop where
  consumes : bits ≠ []
  leaf : ∀ {c : CodeStream} {o : Nat}, c.Reads o bits →
    ∃ n, nextLeaf t c r o = .ok (n, o + bits.length) ∧ lsb n.symbolSet = some i

/-- A 0 bit decodes to the lone symbol (44_decode.md R184). -/
theorem Tree.decodes_lone {i : Nat} (hr : r.isLeaf = true) (hi : lsb r.symbolSet = some i) :
    t.Decodes r i [false] :=
  ⟨nofun, fun h => ⟨r, (nextLeaf_lone hr h.readBit).trans rfl, hi⟩⟩

/-- CodeOf's code of a symbol decodes to the symbol (44_decode.md R185). -/
theorem Tree.decodes_code {root : Index} {code : List Bool} (hr : t.slots[root.toNat]? = some r)
    (h : codeOf t root i k = .ok code) : t.Decodes r i code := by
  obtain ⟨r', hr', ⟨hlone, hset, rfl⟩ | ⟨hin, hfrom⟩⟩ := codeOf_ok h <;> cases hr.symm.trans hr'
  · exact Tree.decodes_lone hlone (by rw [hset, lsb_singletonSet])
  · obtain ⟨leaf, hpath, hleaf, hset⟩ := codeFrom_descent hfrom
    refine ⟨?_, fun hreads => ⟨leaf, ?_, by rw [hset, lsb_singletonSet]⟩⟩
    · rintro rfl
      cases hpath
      cases hin.symm.trans hleaf
    · rw [nextLeaf_internal hin, hpath.descend_eq hreads, descend_leaf hleaf]

end InnerLoop

/-! ### EmitSymbol -/

/-- OUTBUF of `n` bytes and DEC_COUNT when `bytes` have been decoded (44_decode.md R180, R183). -/
def Output.decoded (n : Nat) (bytes : List Byte) : Output :=
  { bytes := bytes ++ List.replicate (n - bytes.length) 0#8, count := BitVec.ofNat 17 bytes.length }

theorem Output.decoded_length {n : Nat} {bytes : List Byte} (h : bytes.length ≤ n) :
    (Output.decoded n bytes).bytes.length = n := by
  rw [Output.decoded, List.length_append, List.length_replicate, Nat.add_sub_cancel' h]

theorem Output.decoded_count {n : Nat} {bytes : List Byte} (h : bytes.length ≤ n) (hn : n ≤ 65536) :
    (Output.decoded n bytes).count.toNat = bytes.length := by
  rw [Output.decoded, BitVec.toNat_ofNat]
  omega

/-- EmitSymbol puts the next symbol behind those decoded (44_decode.md R183). -/
theorem emitSymbol_decoded {n o i : Nat} {x : Node} {bytes : List Byte} (hx : lsb x.symbolSet = some i)
    (hroom : bytes.length < n) (hn : n ≤ 65536) :
    emitSymbol x o (Output.decoded n bytes) = .ok () (Output.decoded n (bytes ++ [symbolByte i])) := by
  have hcount := Output.decoded_count hroom.le hn
  have hfull : ¬ (Output.decoded n bytes).count.toNat = (Output.decoded n bytes).bytes.length := by
    rw [hcount, Output.decoded_length hroom.le]
    omega
  rw [emitSymbol, act_bind_run (act_get _), if_neg hfull, hx]
  refine congrArg (EStateM.Result.ok ()) (congrArg₂ Output.mk ?_ ?_)
  · rw [hcount, Output.decoded, List.set_append_right _ _ le_rfl, Nat.sub_self, List.append_assoc,
      show n - bytes.length = n - (bytes ++ [symbolByte i]).length + 1 by simp; omega, List.replicate_succ]
    rfl
  · rw [Output.decoded, List.length_append, List.length_singleton, BitVec.ofNat_add]

/-- EmitSymbol past OUTBUF raises DECODE_CORRUPT and writes nothing (44_decode.md R182, R186). -/
theorem emitSymbol_full {x : Node} {o : Nat} {out : Output} (h : out.count.toNat = out.bytes.length) :
    emitSymbol x o out = .error (.raise { code := .decodeCorrupt, info := BitVec.ofNat 32 o }) out := by
  rw [emitSymbol, act_bind_run (act_get out), if_pos h]
  rfl

/-! ### DECODE's outer loop -/

section OuterLoop

variable {t : Tree} {c : CodeStream} {r n : Node} {fuel o o' : Nat} {x x' : Output} {e : Stop}

theorem decodeLoop_end (h : c.bitlen.toNat ≤ o) : decodeLoop t c r fuel o x = .ok () x := by
  cases fuel with
  | zero => rfl
  | succ fuel => exact congrFun (if_neg (not_lt.2 h)) x

theorem decodeLoop_pass (h : o < c.bitlen.toNat) (hleaf : nextLeaf t c r o = .ok (n, o'))
    (hemit : emitSymbol n o' x = .ok () x') : decodeLoop t c r (fuel + 1) o x = decodeLoop t c r fuel o' x' := by
  rw [decodeLoop, if_pos h, act_bind_run (ofRead_run hleaf)]
  exact act_bind_run hemit

theorem decodeLoop_nextLeaf (h : o < c.bitlen.toNat) (hleaf : nextLeaf t c r o = .error e) :
    decodeLoop t c r (fuel + 1) o x = .error e x := by
  rw [decodeLoop, if_pos h]
  exact act_bind_error.2 (.inl (ofRead_error.2 ⟨hleaf, rfl⟩))

theorem decodeLoop_emitSymbol (h : o < c.bitlen.toNat) (hleaf : nextLeaf t c r o = .ok (n, o'))
    (hemit : emitSymbol n o' x = .error e x') : decodeLoop t c r (fuel + 1) o x = .error e x' := by
  rw [decodeLoop, if_pos h, act_bind_run (ofRead_run hleaf)]
  exact act_bind_error.2 (.inl hemit)

/-- The loop passes the codes of symbols for which OUTBUF has room. -/
theorem decodeLoop_codes {is : List Nat} {codes : List (List Bool)} {N : Nat} {bytes : List Byte}
    (hcodes : List.Forall₂ (t.Decodes r) is codes) (hreads : c.Reads o codes.flatten)
    (hroom : bytes.length + is.length ≤ N) (hN : N ≤ 65536) (hfuel : c.bitlen.toNat ≤ o + fuel) :
    ∃ fuel', c.bitlen.toNat ≤ o + codes.flatten.length + fuel' ∧
      decodeLoop t c r fuel o (Output.decoded N bytes) =
        decodeLoop t c r fuel' (o + codes.flatten.length) (Output.decoded N (bytes ++ is.map symbolByte)) := by
  induction hcodes generalizing o fuel bytes with
  | nil => exact ⟨fuel, hfuel, by rw [List.map_nil, List.append_nil]; rfl⟩
  | @cons i code is codes hcode _ ih =>
    rw [List.flatten_cons] at hreads ⊢
    rw [List.length_cons] at hroom
    obtain ⟨n, hleaf, hn⟩ := hcode.leaf hreads.left
    have hpos := List.length_pos_of_ne_nil hcode.consumes
    have hfit := hreads.left.fits
    obtain ⟨fuel, rfl⟩ := Nat.exists_eq_add_one_of_ne_zero (show fuel ≠ 0 by omega)
    obtain ⟨fuel', hfuel', hrun⟩ :=
      ih (bytes := bytes ++ [symbolByte i]) (fuel := fuel) hreads.right (by simp; omega) (by omega)
    rw [List.length_append, ← Nat.add_assoc]
    refine ⟨fuel', hfuel', ?_⟩
    rw [decodeLoop_pass (by omega) hleaf (emitSymbol_decoded hn (by omega) hN), hrun, List.append_assoc]
    rfl

end OuterLoop

/-! ### DECODE, by its loop -/

theorem decodeStream_run {t : Tree} {root : Index} {r : Node} (hr : t.slots[root.toNat]? = some r) (c : CodeStream)
    (n : Nat) (x : Output) :
    decodeStream t root c n x = decodeLoop t c r c.bitlen.toNat 0 (Output.decoded n []) := by
  rw [decodeStream, act_bind_run (show clearOut n x = .ok () (Output.decoded n []) from rfl)]
  exact act_bind_run (ofRead_run (Tree.read_ok.2 hr))

section Exec

variable {s : State} {r : Node} {out : Output}

/-- In ENCODED, DECODE completes when its loop does. -/
theorem exec_decode_of_ok (hp : s.phase = .encoded) (hr : s.tree.slots[s.root.toNat]? = some r)
    (hrun : decodeLoop s.tree s.code r s.code.bitlen.toNat 0 (Output.decoded s.inputLen []) = .ok () out) :
    exec .decode s = .next { s with out := out, phase := .decoded } := by
  refine exec_of_ok (i := .decode) rfl hp ?_
  rw [componentBody, decodeBody, act_bind_run (act_get s),
    act_bind_run (onPart_ok.2 ⟨out, (decodeStream_run hr s.code s.inputLen s.out).trans hrun, rfl⟩)]
  rfl

/-- In ENCODED, DECODE takes the error of its loop, with OUTBUF and DEC_COUNT as the loop left them
(44_decode.md R188). -/
theorem exec_decode_of_error {e : Raise} (hp : s.phase = .encoded) (hr : s.tree.slots[s.root.toNat]? = some r)
    (hrun : decodeLoop s.tree s.code r s.code.bitlen.toNat 0 (Output.decoded s.inputLen []) = .error (.raise e) out) :
    exec .decode s = .next ((s.putOut out).takeError 0x07#8 e) := by
  have hbody : decodeBody s = .error (.raise e) (s.putOut out) := by
    rw [decodeBody, act_bind_run (act_get s)]
    exact act_bind_error.2 (.inl (onPart_error.2 ⟨out, (decodeStream_run hr s.code s.inputLen s.out).trans hrun, rfl⟩))
  exact (component_run hp nofun).trans (answer_next.2 (.inr ⟨e, inStage_raise.2 ⟨_, hbody, rfl⟩⟩))

/-- DECODE's loop after the codes of symbols for which OUTBUF has room. -/
theorem decodeLoop_after {is : List Nat} {codes : List (List Bool)}
    (hcodes : List.Forall₂ (s.tree.Decodes r) is codes) (hreads : s.code.Reads 0 codes.flatten)
    (hroom : is.length ≤ s.inputLen) (hN : s.inputLen ≤ 65536) :
    ∃ fuel, s.code.bitlen.toNat ≤ codes.flatten.length + fuel ∧
      decodeLoop s.tree s.code r s.code.bitlen.toNat 0 (Output.decoded s.inputLen []) =
        decodeLoop s.tree s.code r fuel codes.flatten.length (Output.decoded s.inputLen (is.map symbolByte)) := by
  have h := decodeLoop_codes (bytes := []) hcodes hreads (by rwa [List.length_nil, Nat.zero_add]) hN
    (Nat.zero_add _).ge
  rwa [Nat.zero_add, List.nil_append] at h

/-- DECODE takes the error of the pass after the codes of symbols for which OUTBUF has room (44_decode.md R188). -/
theorem exec_decode_nextLeaf {is : List Nat} {codes : List (List Bool)} {o : Nat} (hp : s.phase = .encoded)
    (hr : s.tree.slots[s.root.toNat]? = some r) (hcodes : List.Forall₂ (s.tree.Decodes r) is codes)
    (hreads : s.code.Reads 0 codes.flatten) (hroom : is.length ≤ s.inputLen) (hN : s.inputLen ≤ 65536)
    (hmore : codes.flatten.length < s.code.bitlen.toNat)
    (hstop : nextLeaf s.tree s.code r codes.flatten.length = raiseAt .decodeCorrupt o) :
    exec .decode s = .next ((s.putOut (Output.decoded s.inputLen (is.map symbolByte))).takeError 0x07#8
      { code := .decodeCorrupt, info := BitVec.ofNat 32 o }) := by
  obtain ⟨fuel, hfuel, hrun⟩ := decodeLoop_after hcodes hreads hroom hN
  obtain ⟨fuel, rfl⟩ := Nat.exists_eq_add_one_of_ne_zero (show fuel ≠ 0 by omega)
  exact exec_decode_of_error hp hr (hrun.trans (decodeLoop_nextLeaf hmore hstop))

/-- Codes of symbols decode to those symbols. -/
theorem State.CodesFor.decodes {is : List (Fin Config.domainSize)} {codes : List (List Bool)}
    (h : s.CodesFor is codes) (hr : s.tree.slots[s.root.toNat]? = some r) :
    List.Forall₂ (s.tree.Decodes r) (is.map Fin.val) codes := by
  obtain ⟨hlen, hcode⟩ := h
  rw [List.forall₂_map_left_iff]
  refine List.forall₂_iff_get.2 ⟨hlen.symm, fun k hi hc => ?_⟩
  obtain ⟨code, k', hat, hcode⟩ := hcode k is[k] (List.getElem?_eq_getElem hi)
  obtain rfl : codes[k] = code := Option.some.inj ((List.getElem?_eq_getElem hc).symm.trans hat)
  exact Tree.decodes_code hr hcode

theorem Output.decoded_symbols (n : Nat) (is : List (Fin Config.domainSize)) :
    Output.decoded n ((is.map Fin.val).map symbolByte) =
      { bytes := symbolBytes is ++ List.replicate (n - is.length) 0#8, count := BitVec.ofNat 17 is.length } := by
  rw [Output.decoded, List.length_map, List.length_map, List.map_map]
  rfl

end Exec

/-! ### The statements about DECODE's outcomes -/

/-- Settles O30: the loop passes all the codes and ends with the stream. -/
theorem decodeInvertsEncode : Obligations.DecodeInvertsEncode := by
  intro s is codes hp hroot hroom hN hcodes hbitlen hstream
  have hr : s.tree.slots[s.root.toNat]? = some (s.tree.nodeAt s.root.toNat) := Tree.slot_eq hroot
  obtain ⟨fuel, -, hrun⟩ := decodeLoop_after (hcodes.decodes hr) (hstream.reads hbitlen.ge)
    (by rwa [List.length_map]) hN
  rw [decodeLoop_end hbitlen.le, Output.decoded_symbols] at hrun
  exact exec_decode_of_ok hp hr hrun

/-- Settles O31: the loop passes the first N codes, and EmitSymbol stops it after one more. -/
theorem decodeStopsOnSurplusSymbol : Obligations.DecodeStopsOnSurplusSymbol := by
  intro s is codes hp hlen hN hcodes hfit hstream
  have hlt : s.inputLen < is.length := by omega
  have hfirst : (is.take s.inputLen).length = s.inputLen := List.length_take_of_le hlt.le
  obtain ⟨code, k, hat, hcode⟩ := hcodes.2 s.inputLen _ (List.getElem?_eq_getElem hlt)
  obtain ⟨r, hr, -⟩ := codeOf_ok hcode
  have hlast := Tree.decodes_code hr hcode
  have hbits : codes.flatten = (codes.take s.inputLen).flatten ++ code := by
    have hall : codes.take (s.inputLen + 1) = codes := List.take_of_length_le (by rw [hcodes.1, hlen])
    rw [List.take_add_one, hat] at hall
    refine (congrArg List.flatten hall.symm).trans ?_
    rw [List.flatten_append, Option.toList_some, List.flatten_singleton]
  have hreads := hstream.reads hfit
  rw [hbits] at hreads
  have hdecodes : List.Forall₂ (s.tree.Decodes r) ((is.take s.inputLen).map Fin.val) (codes.take s.inputLen) := by
    rw [List.map_take]
    exact List.forall₂_take _ (hcodes.decodes hr)
  obtain ⟨fuel, hfuel, hrun⟩ := decodeLoop_after hdecodes hreads.left (by rw [List.length_map, hfirst]) hN
  rw [Output.decoded_symbols, hfirst, Nat.sub_self, List.replicate_zero, List.append_nil] at hrun
  obtain ⟨n, hleaf, -⟩ := hlast.leaf hreads.right
  have hpos := List.length_pos_of_ne_nil hlast.consumes
  have hmore := hreads.right.fits
  rw [Nat.zero_add] at hleaf hmore
  obtain ⟨fuel, rfl⟩ := Nat.exists_eq_add_one_of_ne_zero (show fuel ≠ 0 by omega)
  rw [hbits, List.length_append]
  refine exec_decode_of_error hp hr (hrun.trans (decodeLoop_emitSymbol (by omega) hleaf (emitSymbol_full ?_)))
  rw [BitVec.toNat_ofNat, Nat.mod_eq_of_lt (by omega)]
  exact hfirst.symm.trans (List.length_map _).symm

/-- Settles O32: the descent for the part of a code ends with the stream at a node that is no leaf, and the one to the
malformed node stops there. -/
theorem decodeStopsOnTruncatedCode : Obligations.DecodeStopsOnTruncatedCode := by
  refine ⟨fun s is codes i k code p hp hroom hN hcodes hcode hpre hne hpart hbitlen hstream => ?_,
    fun s is codes r n p hp hroom hN hcodes hr hpath hn hfirst hmore hfit hstream => ?_⟩
  · obtain ⟨q, rfl⟩ := hpre
    have hreads := hstream.reads hbitlen.ge
    have hlen := List.length_pos_of_ne_nil hpart
    rw [List.length_append] at hbitlen
    obtain ⟨r, hr, ⟨-, -, hlone⟩ | ⟨hin, hfrom⟩⟩ := codeOf_ok hcode
    · obtain ⟨rfl, -⟩ | ⟨rfl, -⟩ := List.append_eq_singleton_iff.1 hlone
      · exact absurd rfl hpart
      · exact absurd hlone.symm hne
    · obtain ⟨leaf, hdescent, -⟩ := codeFrom_descent hfrom
      obtain ⟨x, hpath, hrest⟩ := hdescent.split
      have hstop : nextLeaf s.tree s.code r codes.flatten.length = raiseAt .decodeCorrupt s.code.bitlen.toNat := by
        have hpart := hreads.right
        rw [Nat.zero_add] at hpart
        rw [nextLeaf_internal hin, hpath.descend_eq hpart, ← hbitlen, Nat.sub_self,
          descend_truncated (hrest.not_leaf fun h => hne (by rw [h, List.append_nil]))]
      have hexec := exec_decode_nextLeaf hp hr (hcodes.decodes hr) hreads.left (by rwa [List.length_map]) hN
        (by omega) hstop
      rw [Output.decoded_symbols, BitVec.ofNat_toNat, BitVec.setWidth_eq] at hexec
      exact hexec
  · have hmal : n.isMalformed = true := isMalformed_iff.2 hn
    have hin : r.isLeaf = false := Bool.eq_false_iff.2 fun hleaf => by
      obtain ⟨-, rfl⟩ := follow_leaf hleaf hpath
      cases hmal.symm.trans (not_malformed_of_leaf hleaf)
    have hdescent : s.tree.Descent r p n := .of_follow hpath fun q x hq hne hx =>
      Bool.eq_false_iff.2 fun h => hfirst q x hq hne hx (isMalformed_iff.1 h)
    have hreads := hstream.reads hfit
    have hstop : nextLeaf s.tree s.code r codes.flatten.length =
        raiseAt .decodeCorrupt (codes.flatten ++ p).length := by
      have hpart := hreads.right
      rw [Nat.zero_add] at hpart
      rw [nextLeaf_internal hin, hdescent.descend_eq hpart, descend_malformed hmal, List.length_append]
    have hexec := exec_decode_nextLeaf hp hr (hcodes.decodes hr) hreads.left (by rwa [List.length_map]) hN hmore hstop
    rw [Output.decoded_symbols] at hexec
    exact hexec

/-- Settles O33: the loop passes the 0 bits, and the 1 bit stops it. -/
theorem decodeStopsOnLoneOne : Obligations.DecodeStopsOnLoneOne := by
  intro s r i m hp hr hleaf hi hroom hN hmore hstream
  have hbits : (List.replicate m [false]).flatten = List.replicate m false := List.flatten_replicate_singleton
  have hcodes : List.Forall₂ (s.tree.Decodes r) (List.replicate m i) (List.replicate m [false]) := by
    refine List.forall₂_iff_get.2 ⟨by simp, fun k _ _ => ?_⟩
    simpa using Tree.decodes_lone hleaf hi
  have hreads := hstream.reads (c := s.code) (by simpa using hmore)
  have hone := hreads.right.readBit
  rw [Nat.zero_add, List.length_replicate] at hone
  have hexec := exec_decode_nextLeaf hp hr hcodes (hbits ▸ hreads.left) (by rwa [List.length_replicate]) hN
    (by rwa [hbits, List.length_replicate]) (by rw [hbits, List.length_replicate]; exact nextLeaf_lone hleaf hone)
  rw [Output.decoded, List.map_replicate, List.length_replicate] at hexec
  exact hexec

end Sys2Proof.Machine


/-!
DECODE and VERIFY, further: what DECODE leaves in OUTBUF however it ends, the stream bits it reads, and VERIFY's loop.
-/

namespace Sys2Proof.Machine

/-! ### OUTBUF after DECODE -/

/-- OUTBUF has `n` bytes, DEC_COUNT is within them, and the bytes from DEC_COUNT on are 0x00 (44_decode.md R186,
R188). -/
structure Output.Padded (n : Nat) (x : Output) : Prop where
  length : x.bytes.length = n
  count : x.count.toNat ≤ n
  zero : ∀ k, x.count.toNat ≤ k → k < n → x.bytes[k]? = some 0#8

theorem Output.decoded_nil_padded (n : Nat) : (Output.decoded n []).Padded n where
  length := Output.decoded_length (Nat.zero_le n)
  count := Nat.zero_le n
  zero k _ hk := by
    show (List.replicate n 0#8)[k]? = some 0#8
    rw [List.getElem?_replicate, if_pos hk]

/-- EmitSymbol writes the byte at DEC_COUNT, and only below N. -/
theorem emitSymbol_padded {N : Nat} (hN : N ≤ 65536) (n : Node) (o : Nat) :
    Keeps (Output.Padded N) Stop.Named (emitSymbol n o) := by
  refine .get_bind_eq fun x hx => ?_
  split
  · exact (Triple.throw (P := Output.Padded N) nofun).at_state hx
  · rename_i hne
    split
    · exact (Triple.throw (P := Output.Padded N) nofun).at_state hx
    · refine .modify ?_
      rintro x rfl
      obtain ⟨hlen, hcount, hzero⟩ := hx
      have hnext : (x.count + 1#17).toNat = x.count.toNat + 1 := by
        rw [BitVec.toNat_add, BitVec.toNat_ofNat]
        omega
      refine ⟨by simpa using hlen, by rw [hnext]; omega, fun k hk hkN => ?_⟩
      rw [hnext] at hk
      rw [List.getElem?_set_ne (by omega)]
      exact hzero k (by omega) hkN

/-- DECODE's loop keeps what EmitSymbol keeps. -/
theorem decodeLoop_keeps_of_emitSymbol {I : Output → Prop} (hemit : ∀ n o, Keeps I Stop.Named (emitSymbol n o))
    (t : Tree) (c : CodeStream) (r : Node) (fuel o : Nat) : Keeps I Stop.Named (decodeLoop t c r fuel o) := by
  induction fuel generalizing o with
  | zero => exact .pure ()
  | succ fuel ih =>
    exact .ite (.bind (nextLeaf_stops t c r o).keeps fun x => .bind (hemit x.1 x.2) fun _ => ih x.2) (.pure ())

theorem decodeBody_padded {s : State} (hN : s.inputLen ≤ 65536) :
    Triple (· = s) decodeBody (fun t => t.out.Padded s.inputLen) fun _ t => t.out.Padded s.inputLen := by
  have hstream : Triple (fun _ => True) (decodeStream s.tree s.root s.code s.inputLen) (Output.Padded s.inputLen)
      fun e x => x.Padded s.inputLen ∧ e.Named :=
    .bind (.modify fun _ _ => Output.decoded_nil_padded _) fun _ => .bind (s.tree.read_stops _).keeps fun r =>
      decodeLoop_keeps_of_emitSymbol (emitSymbol_padded hN) ..
  refine .get_bind_eq ?_
  rintro _ rfl
  refine .bind (.onPart ?_) fun _ => .modify fun _ h => h
  rintro _ rfl
  exact hstream.weaken (fun _ _ => trivial) (fun _ => id) fun _ _ => And.left

/-- In its phase a component command leaves what its body leaves however it ends, when an error taken keeps it. -/
theorem Triple.exec_component {P : State → Prop} {i : Instr} {p : Phase} {s t : State} (hp : requiredPhase i = some p)
    (hs : s.phase = p) (hb : Triple (· = s) (componentBody i) P fun _ u => P u)
    (herror : ∀ u op r, P u → P (u.takeError op r)) (h : exec i s = .next t) : P t := by
  rw [Machine.exec_component hp] at h
  obtain ⟨he, rfl⟩ | ⟨-, hne, -⟩ | ⟨-, -, hok⟩ | ⟨-, -, r, u, hr, rfl⟩ := component_next h
  · obtain rfl : p = .error := hs.symm.trans he
    cases i <;> cases hp
  · exact absurd hs hne
  · exact hb.ok rfl hok
  · exact herror _ _ _ (hb.stop rfl hr)

/-- Settles O34: EmitSymbol keeps DEC_COUNT within OUTBUF and the bytes from it on 0x00. -/
theorem decCountNeverExceedsN : Obligations.DecCountNeverExceedsN := by
  refine ⟨fun s t hp hN h => ?_, fun n o out h => emitSymbol_full h⟩
  obtain ⟨hlen, hcount, hzero⟩ : t.out.Padded s.inputLen :=
    (decodeBody_padded hN).exec_component (i := .decode) (P := fun t => t.out.Padded s.inputLen) rfl hp
      (fun _ _ _ hu => hu) h
  exact ⟨hcount, hlen, hzero⟩

/-! ### The stream bits DECODE reads -/

section BelowBitlen

variable {c : CodeStream} {words : List Word} (hbits : ∀ o < c.bitlen.toNat, bitRead words o = bitRead c.words o)
  (t : Tree)
include hbits

theorem readBit_congr {o : Nat} (h : o < c.bitlen.toNat) :
    ({ c with words := words } : CodeStream).readBit o = c.readBit o := by
  rw [CodeStream.readBit, CodeStream.readBit, hbits o h]

theorem descend_congr {left o : Nat} (h : o + left ≤ c.bitlen.toNat) (n : Node) :
    descend t { c with words := words } left o n = descend t c left o n := by
  induction left generalizing o n with
  | zero => rfl
  | succ left ih =>
    rw [descend, descend, readBit_congr hbits (by omega)]
    simp only [ih (show o + 1 + left ≤ _ by omega)]

theorem nextLeaf_congr {o : Nat} (h : o < c.bitlen.toNat) (r : Node) :
    nextLeaf t { c with words := words } r o = nextLeaf t c r o := by
  rw [nextLeaf, nextLeaf, readBit_congr hbits h, descend_congr hbits t (show o + (c.bitlen.toNat - o) ≤ _ by omega)]

theorem decodeLoop_congr (r : Node) (fuel o : Nat) :
    decodeLoop t { c with words := words } r fuel o = decodeLoop t c r fuel o := by
  induction fuel generalizing o with
  | zero => rfl
  | succ fuel ih =>
    rw [decodeLoop, decodeLoop]
    by_cases h : o < c.bitlen.toNat
    · rw [if_pos h, if_pos h, nextLeaf_congr hbits t h]
      simp only [ih]
    · rw [if_neg h, if_neg h]

/-- DECODE's work on the output reads no stream bit at or above BITLEN (44_decode.md R181). -/
theorem decodeStream_congr (root : Index) (n : Nat) :
    decodeStream t root { c with words := words } n = decodeStream t root c n := by
  simp only [decodeStream, decodeLoop_congr hbits]

end BelowBitlen

/-- DECODE's body leaves another CODEBUF with the same bits below BITLEN, and is otherwise the same. -/
theorem decodeBody_putCode {s : State} {words : List Word}
    (hbits : ∀ o < s.code.bitlen.toNat, bitRead words o = bitRead s.code.words o) :
    decodeBody (s.putCode { s.code with words := words }) =
      mapState (State.putCode { s.code with words := words }) (decodeBody s) := by
  have hrest : Blind (State.putCode { s.code with words := words }) (do
      onPart State.out State.putOut (decodeStream s.tree s.root s.code s.inputLen)
      modify (State.setPhase .decoded) : Act State Unit) :=
    .bind (.onPart _ (fun _ => rfl) fun _ _ => rfl) fun _ => .modify fun _ => rfl
  rw [decodeBody, act_bind_run (act_get s), act_bind_run (act_get _), ← hrest s]
  exact congrArg (fun x => (onPart State.out State.putOut x >>= fun _ => modify (State.setPhase .decoded)) _)
    (decodeStream_congr hbits ..)

/-- A command's answer with its next state changed by `f`. -/
def mapNext (f : State → State) : Host.Outcome State Fault Refusal → Host.Outcome State Fault Refusal
  | .next t => .next (f t)
  | .fault r => .fault r
  | .refused why => .refused why

/-- Settles O35: on the other CODEBUF the body does the same, and so does DECODE however the body ends. -/
theorem decoderReadsBelowBitlen : Obligations.DecoderReadsBelowBitlen := by
  intro s words hp hbits
  have hexec (u : State) (hu : u.phase = .encoded) : exec .decode u = answer (inStage 0x07#8 decodeBody u) :=
    component_run hu nofun
  have hsame : exec .decode (s.putCode { s.code with words := words }) =
      mapNext (State.putCode { s.code with words := words }) (exec .decode s) := by
    rw [hexec (s.putCode { s.code with words := words }) hp, hexec s hp, inStage, inStage, decodeBody_putCode hbits]
    cases decodeBody s with
    | ok a u => rfl
    | error e u => cases e <;> rfl
  exact ⟨fun t h => hsame.trans (congrArg (mapNext _) h), fun f h => hsame.trans (congrArg (mapNext _) h)⟩

/-! ### VERIFY -/

section Verify

variable {out : Output} {bytes rest : List Byte} {c : Byte} {k : Nat}

/-- VERIFY's loop passes a byte that was decoded. -/
theorem firstMismatch_pass (h : k < out.count.toNat ∧ out.bytes[k]? = some c) :
    firstMismatch out k (c :: rest) = firstMismatch out (k + 1) rest := by
  obtain ⟨hcount, hbyte⟩ := h
  exact if_neg (not_or.2 ⟨not_le.2 hcount, not_not.2 hbyte⟩)

/-- VERIFY's loop stops at a byte that was not decoded, or differs. -/
theorem firstMismatch_bad (h : out.count.toNat ≤ k ∨ out.bytes[k]? ≠ some c) :
    firstMismatch out k (c :: rest) = some k := if_pos h

/-- VERIFY's loop reaches the position before which every byte was decoded (44_decode.md R190). -/
theorem firstMismatch_reaches (hk : k ≤ bytes.length)
    (h : ∀ j < k, ∀ d, bytes[j]? = some d → j < out.count.toNat ∧ out.bytes[j]? = some d) :
    firstMismatch out 0 bytes = firstMismatch out k (bytes.drop k) := by
  induction k with
  | zero => rfl
  | succ k ih =>
    rw [ih (Nat.le_of_succ_le hk) fun j hj => h j (Nat.lt_succ_of_lt hj), List.drop_eq_getElem_cons hk,
      firstMismatch_pass (h k (Nat.lt_succ_self k) _ (List.getElem?_eq_getElem hk))]

/-- VERIFY's body completes when no byte differs. -/
theorem verifyBody_equal {s : State} (h : firstMismatch s.out 0 s.inbuf = none) :
    verifyBody s = .ok () (s.setPhase .done) := by
  rw [verifyBody, act_bind_run (act_get s), h]
  rfl

/-- VERIFY's body raises MISMATCH at the first byte that differs. -/
theorem verifyBody_mismatch {s : State} {k : Nat} (h : firstMismatch s.out 0 s.inbuf = some k) :
    verifyBody s = .error { code := .mismatch, info := BitVec.ofNat 32 k } s := by
  rw [verifyBody, act_bind_run (act_get s), h]
  rfl

end Verify

/-- Settles O36: VERIFY's loop passes the bytes decoded, and stops at the first that was not. -/
theorem verifyDecides : Obligations.VerifyDecides := by
  refine ⟨fun s hp hall => ?_, fun s k c hp hk hbad hbefore => ?_⟩
  · have hloop := firstMismatch_reaches le_rfl fun j _ => hall j
    rw [List.drop_length] at hloop
    exact (sureComponent_run hp nofun).trans (by rw [verifyBody_equal hloop]; rfl)
  · obtain ⟨hlt, rfl⟩ := List.getElem?_eq_some_iff.1 hk
    have hloop := firstMismatch_reaches hlt.le hbefore
    rw [List.drop_eq_getElem_cons hlt, firstMismatch_bad hbad] at hloop
    exact (sureComponent_run hp nofun).trans (by rw [verifyBody_mismatch hloop]; rfl)

end Sys2Proof.Machine


/-!
RUN's round trip: on domain input with enough code words its seven stages complete one after the other.
-/

namespace Sys2Proof.Machine

/-! ### RUN, by its stages -/

/-- The command takes `s` to `t` and raises no error. -/
structure Completes (i : Instr) (s t : State) : Prop where
  answers : exec i s = .next t
  noError : t.phase ≠ .error

/-- A component command that completes is a stage that ends normally. -/
theorem Completes.stage {i : Instr} {p : Phase} {s t : State} (h : Completes i s t) (hi : requiredPhase i = some p)
    (op : BitVec 8) : inStage op (componentBody i) s = .ok () t :=
  inStage_ok.2 (body_of_exec hi h.answers h.noError).2

/-- RUN is INIT and its six stages, when they complete one after the other (45_control.md R203). -/
theorem runBody_of_stages {s s₁ s₂ s₃ s₄ s₅ t : State} (hcount : Completes .count s.initialise s₁)
    (hheapify : Completes .heapify s₁ s₂) (hbuild : Completes .build s₂ s₃) (hencode : Completes .encode s₃ s₄)
    (hdecode : Completes .decode s₄ s₅) (hverify : Completes .verify s₅ t) : runBody s = .ok () t := by
  rw [runBody, act_bind_run (act_modify State.initialise s)]
  calc
    _ = _ := act_bind_run (hcount.stage rfl _)
    _ = _ := act_bind_run (hheapify.stage rfl _)
    _ = _ := act_bind_run (hbuild.stage rfl _)
    _ = _ := act_bind_run (hencode.stage rfl _)
    _ = _ := act_bind_run (hdecode.stage rfl _)
    _ = .ok () t := hverify.stage rfl _

/-- States that agree on the outside one after the other. -/
theorem State.SameOutside.trans {s t u : State} (h : s.SameOutside t) (h' : t.SameOutside u) : s.SameOutside u :=
  ⟨h'.inbuf.trans h.inbuf, h'.codeWords.trans h.codeWords, h'.base.trans h.base, h'.rstN.trans h.rstN,
    h'.pending.trans h.pending, h'.busy.trans h.busy, h'.events.trans h.events, h'.readData.trans h.readData,
    h'.draws.trans h.draws⟩

theorem State.SameOutside.inputLen {s t : State} (h : s.SameOutside t) : t.inputLen = s.inputLen :=
  congrArg List.length h.inbuf

/-! ### From INIT to the finished tree -/

/-- COUNT in IDLE leaves the laws of COUNTED and the counts of INBUF's bytes (40_count.md R111, R112). -/
theorem exec_count_countedSound {s : State} (hp : s.phase = .idle) (hs : s.IdleSound)
    (hdom : ∀ c ∈ s.inbuf, 0x20 ≤ c.toNat ∧ c.toNat ≤ 0x7E) (h1 : 1 ≤ s.inputLen) (hN : s.inputLen ≤ 65536) :
    ∃ t, Completes .count s t ∧ t.phase = .counted ∧ t.CountedSound ∧
      ∀ i : Fin Config.domainSize, t.hist[i].toNat = s.inbuf.count (symbolByte i) := by
  obtain ⟨hhist, -, hheap, htree, hroot, -⟩ := hs
  obtain ⟨t, hexec, hframe, hcount, hsum, hdistinct, hpos, -⟩ := countMakesTheHistogram s hp hhist hdom h1 hN
  rw [← distinctOf_eq_countP] at hdistinct
  rw [← histTotal_eq_list_sum] at hsum
  have hinbuf := (State.SameOutside.exec hexec).inputLen
  have hp' : t.phase = .counted := by rw [hframe]
  refine ⟨t, ⟨hexec, by rw [hp']; nofun⟩, hp',
    ⟨⟨hdistinct, hdistinct ▸ hpos, hsum.trans hinbuf.symm⟩, ?_, ?_, ?_⟩, hcount⟩
  · rw [hframe]; exact hheap
  · rw [hframe]; exact htree
  · rw [hframe]; exact hroot

/-- HEAPIFY in COUNTED leaves the laws of HEAPED (41_heap.md R128, R129). -/
theorem exec_heapify_heapedSound {s : State} (hp : s.phase = .counted) (hs : s.CountedSound)
    (hN : s.inputLen ≤ 65536) :
    ∃ t, Completes .heapify s t ∧ t.phase = .heaped ∧ t.HeapedSound ∧ t.heap.size.toNat ≤ 95 ∧ t.hist = s.hist := by
  obtain ⟨hh, hheap, htree, hroot⟩ := hs
  have ⟨_, hpos, htotal⟩ := hh
  obtain ⟨t, hexec, hframe, hsize, hperm, hsound, hrest⟩ := heapifyBuildsTheHeap s hp
  generalize t.heap = h at hframe hsize hperm hsound hrest
  subst hframe
  have hfit := hsound.keyed.fits
  have hm : State.Merging { s with heap := h, phase := .heaped } := by
    refine ⟨hN, hfit, fun j hj hsj => Heap.nodeAt_eq_of_slot ?_,
      Heap.ordered_of_orderedFrom hsound.keyed hsound.keys_distinct hsound.orderedFrom, ?_⟩
    · exact (hrest j (hsize ▸ hsj)).trans (by rw [hheap, emptyHeap, Vector.getElem?_replicate, if_pos hj])
    · show Forest s.hist s.inputLen h.occupied s.tree
      rw [htree, ← htotal]
      exact (forest_leaves s.hist).perm hperm.symm
  have hlaw : State.HeapedSound { s with heap := h, phase := .heaped } :=
    (heapedSound_iff (s := { s with heap := h, phase := .heaped }) hN hfit).2
      ⟨hm, hh, hsize ▸ hpos, fun _ => htree ▸ rfl, hroot⟩
  exact ⟨_, ⟨hexec, nofun⟩, rfl, hlaw, hfit, rfl⟩

/-- BUILD in HEAPED leaves the laws of BUILT (42_tree.md R150 to R152). -/
theorem exec_build_builtSound {s : State} (hp : s.phase = .heaped) (hs : s.HeapedSound) (hfit : s.heap.size.toNat ≤ 95)
    (hN : s.inputLen ≤ 65536) :
    ∃ t, Completes .build s t ∧ t.phase = .built ∧ t.BuiltSound ∧ t.hist = s.hist := by
  obtain ⟨h, tree, r, hrun, hbuilt⟩ := buildBody_run hN hfit hs (by rw [hp]; nofun)
  exact ⟨_, ⟨exec_of_ok (i := .build) rfl hp hrun, nofun⟩, rfl, hbuilt, rfl⟩

/-! ### The codes of INBUF -/

/-- In a finished tree every counted symbol has a code of at most L_MAX(N) bits (43_encode.md R173). -/
theorem State.BuiltSound.codeOf_counted {s : State} (hs : s.BuiltSound) {i : Fin Config.domainSize}
    (hi : s.hist[i] ≠ 0#32) (k : Nat) :
    ∃ code, codeOf s.tree s.root i k = .ok code ∧ code.length ≤ Config.maxCodeLen s.inputLen := by
  obtain ⟨⟨-, -, htotal⟩, -, -, (hsound : s.tree.Sound s.hist), hsize, hroot, -, -, hcovers⟩ := hs
  have hcovers (j : Fin Config.domainSize) :
      s.hist[j] ≠ 0#32 ↔ memSet j (s.tree.nodeAt s.root.toNat).symbolSet = true := by
    simpa only [List.mem_singleton, exists_eq_left] using hcovers j
  have hD := distinctOf_le s.hist
  have hDN := distinctOf_le_histTotal s.hist
  obtain ⟨code, hcode, -, hlen⟩ := hsound.codeOf_member (k := k) (by omega) (by omega) ((hcovers i).1 hi)
  rw [members_card_counted hcovers] at hlen
  exact ⟨code, hcode, by rw [Config.maxCodeLen]; omega⟩

/-- When every byte of INBUF is counted, INBUF has codes, of at most N · L_MAX(N) bits together. -/
theorem State.BuiltSound.exists_codes {s : State} (hs : s.BuiltSound)
    (hcounted : ∀ c ∈ s.inbuf, ∃ i : Fin Config.domainSize, c = symbolByte i ∧ s.hist[i] ≠ 0#32) :
    ∃ is codes, s.inbuf = symbolBytes is ∧ s.CodesOf s.inbuf codes ∧
      codes.flatten.length ≤ s.inputLen * Config.maxCodeLen s.inputLen := by
  have hcode (k : Fin s.inbuf.length) : ∃ (i : Fin Config.domainSize) (code : List Bool),
      symbolByte i = s.inbuf[k] ∧ codeOf s.tree s.root i k = .ok code ∧
        code.length ≤ Config.maxCodeLen s.inputLen := by
    obtain ⟨i, hbyte, hi⟩ := hcounted s.inbuf[k] (List.getElem_mem _)
    obtain ⟨code, hcode⟩ := hs.codeOf_counted hi k
    exact ⟨i, code, hbyte.symm, hcode⟩
  choose is codes hbyte hcode hlen using hcode
  refine ⟨List.ofFn is, List.ofFn codes, ?_, ⟨List.length_ofFn, fun k c hk => ?_⟩, ?_⟩
  · rw [symbolBytes, List.map_ofFn]
    exact List.ofFn_getElem.symm.trans (congrArg List.ofFn (funext fun k => (hbyte k).symm))
  · obtain ⟨hlt, rfl⟩ := List.getElem?_eq_some_iff.1 hk
    exact ⟨is ⟨k, hlt⟩, codes ⟨k, hlt⟩, domainIndex_eq_some.2 (hbyte ⟨k, hlt⟩).symm, by simp [hlt], hcode ⟨k, hlt⟩⟩
  · rw [List.length_flatten, List.map_ofFn]
    refine (List.sum_le_card_nsmul _ (Config.maxCodeLen s.inputLen) fun n hn => ?_).trans_eq ?_
    · obtain ⟨k, rfl⟩ := List.mem_ofFn.1 hn
      exact hlen k
    · rw [List.length_ofFn, smul_eq_mul]
      rfl

/-- The codes of the bytes of symbols are codes of those symbols. -/
theorem State.CodesOf.codesFor {s : State} {is : List (Fin Config.domainSize)} {codes : List (List Bool)}
    (h : s.CodesOf (symbolBytes is) codes) : s.CodesFor is codes := by
  obtain ⟨hlen, hcode⟩ := h
  refine ⟨hlen.trans (List.length_map _), fun k i hi => ?_⟩
  obtain ⟨j, code, hj, hat, hcode⟩ := hcode k (symbolByte i) (by rw [symbolBytes, List.getElem?_map, hi]; rfl)
  rw [domainIndex_symbolByte] at hj
  cases hj
  exact ⟨code, k, hat, hcode⟩

/-! ### From the finished tree to DONE -/

/-- A buffer that holds `bits` and 0 after them, as ENCODE leaves it, starts with `bits`. -/
theorem streamStarts_of_getD {words : List Word} {bits : List Bool} {size : Nat} (hfit : bits.length ≤ size)
    (h : ∀ o < size, bitRead words o = some (bits.getD o false)) : StreamStarts words bits := fun o ho => by
  rw [h o (ho.trans_le hfit), List.getD_eq_getElem?_getD, List.getElem?_eq_getElem ho, Option.getD_some]

/-- DECODE of a stream that is the codes of INBUF's bytes gives back INBUF (44_decode.md R187). -/
theorem exec_decode_inbuf {s : State} {is : List (Fin Config.domainSize)} {codes : List (List Bool)}
    (hp : s.phase = .encoded) (hroot : s.root.toNat < 189) (hinbuf : s.inbuf = symbolBytes is) (hN : s.inputLen ≤ 65536)
    (hcodes : s.CodesOf s.inbuf codes) (hbitlen : s.code.bitlen.toNat = codes.flatten.length)
    (hstream : StreamStarts s.code.words codes.flatten) :
    exec .decode s =
      .next { s with out := { bytes := s.inbuf, count := BitVec.ofNat 17 s.inputLen }, phase := .decoded } := by
  have hlen : is.length = s.inputLen := by rw [State.inputLen, hinbuf, symbolBytes, List.length_map]
  have hdecode := decodeInvertsEncode s is codes hp hroot hlen.le hN (State.CodesOf.codesFor (hinbuf ▸ hcodes)) hbitlen
    hstream
  rwa [hlen, ← hinbuf, Nat.sub_self, List.replicate_zero, List.append_nil] at hdecode

/-- VERIFY completes when OUTBUF is INBUF and all of it was decoded (44_decode.md R190). -/
theorem exec_verify_inbuf {s : State} (hp : s.phase = .decoded) (hbytes : s.out.bytes = s.inbuf)
    (hcount : s.out.count.toNat = s.inputLen) : exec .verify s = .next { s with phase := .done } :=
  verifyDecides.1 s hp fun _ _ hk => ⟨hcount.symm ▸ (List.getElem?_eq_some_iff.1 hk).1, hbytes.symm ▸ hk⟩

/-- ENCODE, DECODE and VERIFY of an INBUF that has codes (44_decode.md R187). -/
theorem exec_roundTrip {s : State} {is : List (Fin Config.domainSize)} {codes : List (List Bool)}
    (hp : s.phase = .built) (hroot : s.root.toNat < 189) (hinbuf : s.inbuf = symbolBytes is) (hN : s.inputLen ≤ 65536)
    (hcodes : s.CodesOf s.inbuf codes) (hfit : codes.flatten.length ≤ s.codeWords * 32)
    (hcw : s.codeWords * 32 < 2 ^ 32) :
    ∃ s₄ s₅ t, Completes .encode s s₄ ∧ Completes .decode s₄ s₅ ∧ Completes .verify s₅ t ∧
      t.phase = .done ∧ t.out.bytes = s.inbuf ∧ t.out.count.toNat = s.inputLen := by
  obtain ⟨s₄, hencode, hframe, -, hbitlen, hstream⟩ := encodePacksAllCodes s codes hp hcodes hfit hcw
  generalize s₄.code = code at hframe hbitlen hstream
  subst hframe
  have hdecode := exec_decode_inbuf (s := { s with code := code, phase := .encoded }) rfl hroot hinbuf hN hcodes hbitlen
    (streamStarts_of_getD hfit hstream)
  have hcount : (BitVec.ofNat 17 s.inputLen).toNat = s.inputLen := by rw [BitVec.toNat_ofNat]; omega
  exact ⟨_, _, _, ⟨hencode, nofun⟩, ⟨hdecode, nofun⟩, ⟨exec_verify_inbuf rfl rfl hcount, nofun⟩, rfl, rfl, hcount⟩

/-- Settles O38: INIT to BUILD make the tree of INBUF's bytes, in which each has a code short enough to fit, and the
codes decode to the bytes. -/
theorem runRoundTrip : Obligations.RunRoundTrip := by
  intro s h1 hN hcw hmin hdom
  obtain ⟨s₁, hcount, hp₁, hs₁, hcounts⟩ :=
    exec_count_countedSound (s := s.initialise) rfl ⟨rfl, rfl, rfl, rfl, rfl, rfl, rfl⟩ hdom h1 hN
  have ho₁ := (State.SameOutside.initialise s).trans (.exec hcount.answers)
  obtain ⟨s₂, hheapify, hp₂, hs₂, hfit, hhist₂⟩ := exec_heapify_heapedSound hp₁ hs₁ (ho₁.inputLen.trans_le hN)
  have ho₂ := ho₁.trans (.exec hheapify.answers)
  obtain ⟨s₃, hbuild, hp₃, hs₃, hhist₃⟩ := exec_build_builtSound hp₂ hs₂ hfit (ho₂.inputLen.trans_le hN)
  have ho₃ := ho₂.trans (.exec hbuild.answers)
  have hcounted (c : Byte) (hc : c ∈ s₃.inbuf) : ∃ i : Fin Config.domainSize, c = symbolByte i ∧ s₃.hist[i] ≠ 0#32 := by
    rw [ho₃.inbuf] at hc
    obtain ⟨i, rfl⟩ := exists_symbolByte (hdom c hc)
    refine ⟨i, rfl, fun h0 => ?_⟩
    have hzero := hcounts i
    rw [← hhist₂, ← hhist₃, h0] at hzero
    exact (List.count_pos_iff.2 hc).ne hzero
  obtain ⟨is, codes, hbytes, hcodes, hlen⟩ := hs₃.exists_codes hcounted
  rw [ho₃.inputLen] at hlen
  rw [Config.minCodeWords] at hmin
  have hroot : s₃.root.toNat < 189 := by
    obtain ⟨-, -, -, -, hsize, hroot, -⟩ := hs₃
    have := distinctOf_le s₃.hist
    omega
  obtain ⟨s₄, s₅, t, hencode, hdecode, hverify, hp, hout, hcount'⟩ := exec_roundTrip hp₃ hroot hbytes
    (ho₃.inputLen.trans_le hN) hcodes (by rw [ho₃.codeWords]; omega) (by rw [ho₃.codeWords]; omega)
  have hrun := runBody_of_stages hcount hheapify hbuild hencode hdecode hverify
  have hexec : exec .run s = .next t := answer_next.2 (.inl hrun)
  have herrors := (State.SameErrors.keptByWrites s.initialise).runBody.ok (.refl _) hrun
  exact ⟨t, hexec, hp, hout.trans ho₃.inbuf, hcount'.trans ho₃.inputLen, herrors.errCode, herrors.errOp,
    herrors.errInfo, exec_overrun_cleared (.inr rfl) hexec, (State.SameOutside.exec hexec).inbuf⟩

end Sys2Proof.Machine


/-!
The control commands: the block's turn on a command's word, NOP and INIT, and RUN as the seven commands one after the
other.
-/

namespace Sys2Proof.Machine

/-! ### The block's turn, NOP and INIT -/

/-- The block's turn on a command's word runs the command and completes it (45_control.md R200). -/
theorem blockTurn_legal {s : State} {c : Word} {i : Instr} (hr : s.rstN = true) (hc : s.pending = some c)
    (hd : decodeWord c = .legal i) : blockTurn s = completed (exec i s) := by
  simp only [blockTurn, hr, hc, runCommand, hd, if_true]

/-- Settles O4: the step is the block's turn, on a word that decodes to a command. -/
theorem stepRunsTheDecodedCommand : Obligations.StepRunsTheDecodedCommand := by
  intro s c i rest hturn hr hc hd
  rw [step_blockHasTurn hturn]
  exact ⟨blockTurn_legal hr hc hd, fun _ => rfl, fun _ => rfl, fun _ => rfl⟩

/-- Settles O10: CMD is host-writable, and a write of such a location during BUSY only sets OVERRUN. -/
theorem nopChangesNothing : Obligations.NopChangesNothing := by
  refine ⟨fun s => rfl, fun s hb => hostWrite_busy hb ?_ _⟩
  rw [locationAt_register (by decide)]
  rfl

/-- Settles O11: the values `State.initialise` writes are those of R51, written out. -/
theorem initLeavesInitValues : Obligations.InitLeavesInitValues := fun _ => rfl

/-! ### RUN as the seven commands -/

/-- A component command as a stage of RUN: its body under its own opcode (45_control.md R204). -/
def stage (i : Instr) : Act State Unit := inStage (opcode i) (componentBody i)

/-- The pseudocode `x` does what the commands answered by `f` do: it answers the same in every state, ends normally
only in phase `p`, and stops by a raise only with the error taken. -/
structure Sequence (x : Act State Unit) (p : Phase) (f : State → Host.Outcome State Fault Refusal) : Prop where
  answers : ∀ s, answer (x s) = f s
  leaves : Triple (fun _ => True) x (fun t => t.phase = p) (TookError fun _ _ => True)

theorem Sequence.init : Sequence (modify State.initialise) .idle (exec .init) :=
  ⟨fun _ => rfl, .modify fun _ _ => rfl⟩

/-- One more stage is one more command: it runs in its phase after a normal end, and is discarded after an error. -/
theorem Sequence.stage {x : Act State Unit} {p q : Phase} {f : State → Host.Outcome State Fault Refusal}
    (h : Sequence x p f) {i : Instr} (hp : requiredPhase i = some p) (hm : i ≠ .merge)
    (hq : phaseAfter i State.reset State.reset = q) :
    Sequence (x >>= fun _ => Machine.stage i) q fun s => thenExec (f s) i where
  answers s := by
    rw [← h.answers s]
    cases hx : x s with
    | ok a t =>
      have ht := h.leaves.ok trivial hx
      have he : p ≠ .error := by
        rintro rfl
        cases i <;> cases hp
      rw [act_bind_run hx, answer, thenExec, exec_component hp, component_run ht he]
      rfl
    | error e t =>
      rw [act_bind_error.2 (.inl hx)]
      cases e with
      | stuck f => rfl
      | raise r =>
        obtain ⟨op, u, -, rfl⟩ := h.leaves.stop trivial hx r rfl
        exact (exec_component_discards hp rfl).symm
  leaves :=
    h.leaves.bind fun _ => (((componentBody_phase hp hm _ _).inStage _).weaken (fun _ _ => trivial)
      (fun _ hu => hu.trans hq) fun _ _ => id)

theorem runBody_eq_stages : runBody =
    (((((((modify State.initialise : Act State Unit) >>= fun _ => stage .count) >>= fun _ => stage .heapify) >>=
      fun _ => stage .build) >>= fun _ => stage .encode) >>= fun _ => stage .decode) >>= fun _ => stage .verify) := by
  simp only [bind_assoc]
  rfl

/-- Settles O37: each stage after INIT is the command of its opcode. -/
theorem runIsTheSevenCommands : Obligations.RunIsTheSevenCommands := by
  have hseven := Sequence.init |>.stage (i := .count) rfl nofun rfl |>.stage (i := .heapify) rfl nofun rfl
    |>.stage (i := .build) rfl nofun rfl |>.stage (i := .encode) rfl nofun rfl
    |>.stage (i := .decode) rfl nofun rfl |>.stage (i := .verify) rfl nofun rfl
  intro s
  exact (congrArg (fun x => answer (x s)) runBody_eq_stages).trans (hseven.answers s)

end Sys2Proof.Machine


/-!
RUN's three ends: on any INBUF it stops in COUNT at the first byte outside the domain, or reaches the finished tree and
then stops in ENCODE where the codes no longer fit, or ends in DONE.
-/

namespace Sys2Proof.Machine

/-! ### Firsts in a list -/

/-- A list with an element without `p` has a first one. -/
theorem exists_first_not {α : Type} {p : α → Prop} {l : List α} (h : ¬ ∀ a ∈ l, p a) :
    ∃ k a, l[k]? = some a ∧ ¬ p a ∧ ∀ b ∈ l.take k, p b := by
  induction l with
  | nil => exact absurd (by simp) h
  | cons x xs ih =>
    by_cases hx : p x
    · obtain ⟨k, a, hk, ha, hbefore⟩ := ih fun hxs => h (List.forall_mem_cons.2 ⟨hx, hxs⟩)
      exact ⟨k + 1, a, hk, ha, List.forall_mem_cons.2 ⟨hx, hbefore⟩⟩
    · exact ⟨0, x, rfl, hx, by simp⟩

/-- Codes that do not fit in `m` bits together have a first one that does not fit after those before it. -/
theorem exists_first_overflow {codes : List (List Bool)} {m : Nat} (h : m < codes.flatten.length) :
    ∃ k code, codes[k]? = some code ∧ (codes.take k).flatten.length ≤ m ∧
      m < (codes.take k).flatten.length + code.length := by
  induction codes generalizing m with
  | nil => exact absurd h (Nat.not_lt_zero m)
  | cons code rest ih =>
    rw [List.flatten_cons, List.length_append] at h
    by_cases hfit : code.length ≤ m
    · obtain ⟨k, code', hk, hle, hlt⟩ := ih (m := m - code.length) (by omega)
      have hlen : ((code :: rest).take (k + 1)).flatten.length = code.length + (rest.take k).flatten.length := by
        rw [List.take_succ_cons, List.flatten_cons, List.length_append]
      exact ⟨k + 1, code', hk, by omega, by omega⟩
    · exact ⟨0, code, rfl, Nat.zero_le m, by simpa using hfit⟩

/-! ### Commands one after another -/

section Chains

variable {r : Host.Outcome State Fault Refusal} {i : Instr} {s t : State}

theorem thenExec_of_next (hr : r = .next s) (h : exec i s = .next t) : thenExec r i = .next t := by
  rw [hr]
  exact h

/-- After an error a component command is discarded (45_control.md R203). -/
theorem thenExec_of_error {p : Phase} (hr : r = .next t) (he : t.phase = .error) (hp : requiredPhase i = some p) :
    thenExec r i = .next t := thenExec_of_next hr (exec_component_discards hp he)

end Chains

/-- INIT, COUNT, HEAPIFY and BUILD one after another: the part of RUN before the stream. -/
def execToTree (s : State) : Host.Outcome State Fault Refusal :=
  thenExec (thenExec (thenExec (exec .init s) .count) .heapify) .build

theorem exec_run_eq (s : State) :
    exec .run s = thenExec (thenExec (thenExec (execToTree s) .encode) .decode) .verify := runIsTheSevenCommands s

/-! ### A byte outside the domain -/

/-- RUN on an INBUF with a byte outside the domain ends with the DOMAIN error of COUNT. -/
theorem exec_run_domain {s : State} (hN : s.inputLen ≤ 65536)
    (hdom : ¬ ∀ c ∈ s.inbuf, 0x20 ≤ c.toNat ∧ c.toNat ≤ 0x7E) :
    ∃ t, exec .run s = .next t ∧ t.phase = .error ∧ t.errCode = .domain ∧ t.errOp = 0x02#8 ∧
      ∃ k c, s.inbuf[k]? = some c ∧ ¬ (0x20 ≤ c.toNat ∧ c.toNat ≤ 0x7E) ∧
        (∀ d ∈ s.inbuf.take k, 0x20 ≤ d.toNat ∧ d.toNat ≤ 0x7E) ∧ t.errInfo = BitVec.ofNat 32 k := by
  obtain ⟨k, c, hk, hc, hbefore⟩ := exists_first_not hdom
  obtain ⟨t, hcount, hframe, -⟩ := countStopsAtTheFirstBadByte s.initialise k c rfl rfl hN hk hc hbefore
  have he : t.phase = .error := by rw [hframe]
  have htree : execToTree s = .next t :=
    thenExec_of_error (thenExec_of_error (thenExec_of_next rfl hcount) he rfl) he rfl
  have hrun : exec .run s = .next t := (exec_run_eq s).trans
    (thenExec_of_error (thenExec_of_error (thenExec_of_error htree he rfl) he rfl) he rfl)
  exact ⟨t, hrun, he, by rw [hframe], by rw [hframe], k, c, hk, hc, hbefore, by rw [hframe]⟩

/-! ### Codes that do not fit -/

theorem State.CodesOf.take {s : State} {bytes : List Byte} {codes : List (List Bool)} (h : s.CodesOf bytes codes)
    (k : Nat) : s.CodesOf (bytes.take k) (codes.take k) := by
  obtain ⟨hlen, hcode⟩ := h
  refine ⟨by rw [List.length_take, List.length_take, hlen], fun j c hj => ?_⟩
  rw [List.getElem?_take] at hj ⊢
  split at hj
  · rw [if_pos ‹_›]
    exact hcode j c hj
  · cases hj

/-- ENCODE of an INBUF whose codes do not fit raises CAPACITY (43_encode.md R169). -/
theorem exec_encode_capacity {s : State} {codes : List (List Bool)} (hp : s.phase = .built)
    (hcodes : s.CodesOf s.inbuf codes) (hfull : s.codeWords * 32 < codes.flatten.length)
    (hcw : s.codeWords * 32 < 2 ^ 32) :
    ∃ t, exec .encode s = .next t ∧ t.phase = .error ∧ t.errCode = .capacity ∧ t.errOp = 0x06#8 := by
  obtain ⟨k, code, hk, hfit, hover⟩ := exists_first_overflow hfull
  have hlt : k < s.inbuf.length := hcodes.1 ▸ (List.getElem?_eq_some_iff.1 hk).1
  obtain ⟨i, code', hb, hk', hcode⟩ := hcodes.2 k _ (List.getElem?_eq_getElem hlt)
  cases hk.symm.trans hk'
  obtain ⟨⟨t, hexec, hframe, -⟩, -⟩ := encodeStopsAtTheFirstError s k _ (codes.take k)
    { code := .capacity, info := BitVec.ofNat 32 k } hp (List.getElem?_eq_getElem hlt) (hcodes.take k) hfit hcw
    (.inr (.inr (.inr ⟨i, code, hb, hcode, hover, rfl⟩)))
  exact ⟨t, hexec, by rw [hframe], by rw [hframe], by rw [hframe]⟩

/-! ### Bytes of the domain -/

/-- On bytes of the domain INIT, COUNT, HEAPIFY and BUILD make a tree in which every byte of INBUF has a code. -/
theorem execToTree_built {s : State} (h1 : 1 ≤ s.inputLen) (hN : s.inputLen ≤ 65536)
    (hdom : ∀ c ∈ s.inbuf, 0x20 ≤ c.toNat ∧ c.toNat ≤ 0x7E) :
    ∃ t is codes, execToTree s = .next t ∧ t.phase = .built ∧ s.SameOutside t ∧ t.root.toNat < 189 ∧
      t.inbuf = symbolBytes is ∧ t.CodesOf t.inbuf codes := by
  obtain ⟨s₁, hcount, hp₁, hs₁, hcounts⟩ :=
    exec_count_countedSound (s := s.initialise) rfl ⟨rfl, rfl, rfl, rfl, rfl, rfl, rfl⟩ hdom h1 hN
  have ho₁ := (State.SameOutside.initialise s).trans (.exec hcount.answers)
  obtain ⟨s₂, hheapify, hp₂, hs₂, hfit, hhist₂⟩ := exec_heapify_heapedSound hp₁ hs₁ (ho₁.inputLen.trans_le hN)
  have ho₂ := ho₁.trans (.exec hheapify.answers)
  obtain ⟨t, hbuild, hp, hs, hhist⟩ := exec_build_builtSound hp₂ hs₂ hfit (ho₂.inputLen.trans_le hN)
  have ho := ho₂.trans (.exec hbuild.answers)
  have hcounted (c : Byte) (hc : c ∈ t.inbuf) : ∃ i : Fin Config.domainSize, c = symbolByte i ∧ t.hist[i] ≠ 0#32 := by
    rw [ho.inbuf] at hc
    obtain ⟨i, rfl⟩ := exists_symbolByte (hdom c hc)
    have hpos : 0 < s₁.hist[i].toNat := (List.count_pos_iff.2 hc).trans_eq (hcounts i).symm
    exact ⟨i, rfl, fun h0 => by simp [← hhist₂, ← hhist, h0] at hpos⟩
  obtain ⟨is, codes, hbytes, hcodes, -⟩ := hs.exists_codes hcounted
  obtain ⟨-, -, -, -, hsize, hroot, -⟩ := hs
  have hD := distinctOf_le t.hist
  exact ⟨t, is, codes, thenExec_of_next (thenExec_of_next (thenExec_of_next rfl hcount.answers) hheapify.answers)
    hbuild.answers, hp, ho, by omega, hbytes, hcodes⟩

/-- RUN on bytes of the domain ends in DONE, or with the CAPACITY error of ENCODE. -/
theorem exec_run_in_domain {s : State} (h1 : 1 ≤ s.inputLen) (hN : s.inputLen ≤ 65536) (hcw : s.codeWords ≤ 262144)
    (hdom : ∀ c ∈ s.inbuf, 0x20 ≤ c.toNat ∧ c.toNat ≤ 0x7E) :
    ∃ t, exec .run s = .next t ∧
      ((t.phase = .done ∧ t.out.bytes = s.inbuf ∧ t.out.count.toNat = s.inputLen) ∨
       (t.phase = .error ∧ t.errCode = .capacity ∧ t.errOp = 0x06#8)) := by
  obtain ⟨b, is, codes, htree, hp, ho, hroot, hbytes, hcodes⟩ := execToTree_built h1 hN hdom
  have hcw' : b.codeWords * 32 < 2 ^ 32 := by rw [ho.codeWords]; omega
  obtain hfit | hfull := le_or_gt codes.flatten.length (b.codeWords * 32)
  · obtain ⟨e, d, t, hencode, hdecode, hverify, hdone, hout, hcount⟩ :=
      exec_roundTrip hp hroot hbytes (ho.inputLen.trans_le hN) hcodes hfit hcw'
    have hrun : exec .run s = .next t := (exec_run_eq s).trans (thenExec_of_next (thenExec_of_next
      (thenExec_of_next htree hencode.answers) hdecode.answers) hverify.answers)
    exact ⟨t, hrun, .inl ⟨hdone, hout.trans ho.inbuf, hcount.trans ho.inputLen⟩⟩
  · obtain ⟨t, hencode, he, herror⟩ := exec_encode_capacity hp hcodes hfull hcw'
    have hrun : exec .run s = .next t := (exec_run_eq s).trans (thenExec_of_error (thenExec_of_error
      (thenExec_of_next htree hencode) he rfl) he rfl)
    exact ⟨t, hrun, .inr ⟨he, herror⟩⟩

/-- Settles O39: a byte outside the domain stops COUNT; otherwise the codes fit, and decode to INBUF, or do not fit. -/
theorem runEndsInThreeWays : Obligations.RunEndsInThreeWays := by
  intro s h1 hN hcw
  by_cases hdom : ∀ c ∈ s.inbuf, 0x20 ≤ c.toNat ∧ c.toNat ≤ 0x7E
  · obtain ⟨t, hrun, hdone | ⟨he, hcode, hop⟩⟩ := exec_run_in_domain h1 hN hcw hdom
    · exact ⟨t, hrun, .inl hdone⟩
    · exact ⟨t, hrun, .inr (.inr ⟨he, hcode, hop, hdom⟩)⟩
  · obtain ⟨t, hrun, hdomain⟩ := exec_run_domain hN hdom
    exact ⟨t, hrun, .inr (.inl hdomain)⟩

end Sys2Proof.Machine

/-!
Idling and ERROR: a turn with no command to run, the host's accesses and PHASE, and the ways out of ERROR.
-/

namespace Sys2Proof.Machine

/-! ### The idle block -/

/-- With no command pending, or in reset, the block's turn changes nothing (60_exceptions.md R244). -/
theorem blockTurn_idle {s : State} (h : s.pending = none ∨ s.rstN = false) : blockTurn s = .next s := by
  unfold blockTurn
  split
  · rename_i hr
    rw [h.resolve_right (by simp [hr])]
  · rfl

/-- Settles O9: the step is the block's turn, with nothing to run. -/
theorem idleBlockKeepsState : Obligations.IdleBlockKeepsState := by
  intro s rest hturn hidle
  rw [step_blockHasTurn hturn]
  exact blockTurn_idle hidle

/-! ### The host's accesses -/

/-- A host access writes no PHASE. -/
theorem hostAccess_phase {s t : State} {a : Access} (h : s.hostAccess a = .next t) : t.phase = s.phase := by
  obtain ⟨-, -, -, rfl⟩ := hostAccess_next h
  split
  · rcases hostWrite_cases s (a.addr - s.base) a.data with ⟨-, h⟩ | h | ⟨-, h | ⟨k, h⟩ | ⟨w, h⟩⟩ <;> rw [h]
  · rcases hostRead_cases s (a.addr - s.base) with h | h <;> rw [h]

/-- Settles O47: a host access writes neither PHASE nor an error register. -/
theorem hostAccessRaisesNoError : Obligations.HostAccessRaisesNoError := by
  intro s a t h
  obtain ⟨hcode, hop, hinfo⟩ := hostAccess_errors h
  exact ⟨hostAccess_phase h, hcode, hop, hinfo⟩

/-! ### The ways out of ERROR -/

/-- A command that leaves ERROR is INIT or RUN, and leaves the error registers as INIT does
(60_exceptions.md R227): NOP and a discard keep PHASE, and a raise enters ERROR again. -/
theorem exec_leaves_error {i : Instr} {s t : State} (h : exec i s = .next t) (hs : s.phase = .error)
    (ht : t.phase ≠ .error) : s.initialise.SameErrors t ∧ (i = .init ∨ i = .run) := by
  have hrun := (State.SameErrors.keptByWrites s.initialise).runBody
  cases exec_next h with
  | nop | discarded => exact absurd hs ht
  | init hi => exact ⟨.refl _, .inl hi⟩
  | ran hi hok => exact ⟨hrun.ok (.refl _) hok, .inr hi⟩
  | runRaised hi hr =>
    obtain ⟨op, u, -, rfl⟩ := hrun.stop (.refl _) hr _ rfl
    exact absurd rfl ht
  | outOfPhase | raised => exact absurd rfl ht
  | completed hp =>
    cases (exec_component_discards hp hs).symm.trans h
    exact absurd hs ht

/-- In ERROR an illegal word is discarded. -/
theorem illegalCommand_in_error {s : State} (hs : s.phase = .error) (c : Word) : s.illegalCommand c = s :=
  (illegalCommand_errors s c).resolve_right fun h => h.2 hs

/-- A turn of the block that leaves ERROR runs INIT or RUN, and leaves the error registers as INIT does. -/
theorem blockTurn_leaves_error {s t : State} (h : blockTurn s = .next t) (hs : s.phase = .error)
    (ht : t.phase ≠ .error) : s.initialise.SameErrors t ∧ s.rstN = true ∧
      (s.pending = some (encodeWord .init) ∨ s.pending = some (encodeWord .run)) := by
  rcases blockTurn_next h with rfl | ⟨c, i, u, hr, hc, hi, hu, rfl⟩ | ⟨c, why, hr, hc, hw, rfl⟩
  · exact absurd hs ht
  · obtain ⟨⟨hcode, hop, hinfo⟩, hir⟩ := exec_leaves_error hu hs ht
    rw [hc, eq_encodeWord_of_decode hi]
    exact ⟨⟨hcode, hop, hinfo⟩, hr, hir.imp (by rintro rfl; rfl) (by rintro rfl; rfl)⟩
  · rw [illegalCommand_in_error hs] at ht
    exact absurd hs ht

/-- Settles O46: only reset and the block's turn leave ERROR, and both leave the error registers as INIT does. -/
theorem leavingErrorNeedsInitRunOrReset : Obligations.LeavingErrorNeedsInitRunOrReset := by
  intro s t h hs ht
  rcases step_next h with ⟨rest, a, ha⟩ | ⟨rest, hturn, hb⟩ | ⟨hreset, rest, level, rfl⟩ | ⟨rest, rfl⟩
  · exact absurd ((hostAccess_phase ha).trans hs) ht
  · obtain ⟨⟨hcode, hop, hinfo⟩, hr, hword⟩ := blockTurn_leaves_error hb hs ht
    exact ⟨hcode, hop, hinfo, .inr ⟨⟨rest, hturn⟩, hr, hword⟩⟩
  · exact ⟨rfl, rfl, rfl, .inl hreset⟩
  · exact absurd hs ht

end Sys2Proof.Machine

/-!
Reset and completion: what rst_n leaves, and why no command is stuck in a state that meets the invariant.
-/

namespace Sys2Proof.Machine

/-! ### Reset -/

/-- Going high from low, the pin resets (70_reset_and_hazards.md R250). -/
theorem driveResetHigh_of_low {s : State} (h : s.rstN = false) :
    s.driveResetHigh = { s.applyReset with rstN := true } := if_neg (by simp [h])

/-- The rising edge resets once more, which only clears the cleared CODEBUF. -/
theorem driveResetLow_driveResetHigh (s : State) :
    s.driveResetLow.driveResetHigh = { s.applyReset with rstN := true } := by
  have hwords : s.driveResetLow.codeWords = s.codeWords := List.length_replicate
  have hcode : s.driveResetLow.initialise.code = s.initialise.code := by
    rw [State.initialise_code, State.initialise_code, hwords]
  calc
    _ = { s.driveResetLow.applyReset with rstN := true } := driveResetHigh_of_low rfl
    _ = _ := congrArg (fun c => ({ s.applyReset with rstN := true } : State).putCode c) hcode

/-- Settles O56: the two edges of rst_n leave what reset leaves, each is one event, and the low pin refuses accesses. -/
theorem resetLeavesTheResetState : Obligations.ResetLeavesTheResetState := fun s =>
  ⟨driveResetLow_driveResetHigh s, fun _ h => step_cons h, fun _ h => step_cons h, fun _ => if_pos rfl⟩

/-! ### Pieces that are never stuck -/

/-- The stop is a raise of the spec, not a fault of the model. -/
def Stop.IsRaise (e : Stop) : Prop := ∃ r, e = .raise r

/-- A piece of which nothing matters here but that every stop is a raise. -/
abbrev NeverStuck {σ α : Type} (x : Act σ α) : Prop := Keeps (fun _ => True) Stop.IsRaise x

theorem raiseAt_isRaise {α : Type} (code : ErrCode) (k : Nat) : StopsIn Stop.IsRaise (raiseAt code k : Except Stop α) :=
  .error ⟨_, rfl⟩

/-- A body that is a piece over one component and a PHASE write is stuck only where its piece is. -/
theorem NeverStuck.thenPhase {σ : Type} {P : State → Prop} {x : Act σ Unit} (hx : NeverStuck x) (get : State → σ)
    (put : σ → State → State) (p : Phase) :
    Triple P (do onPart get put x; modify (State.setPhase p)) (fun _ => True) fun e _ => e.IsRaise :=
  have hbody : NeverStuck (do onPart get put x; modify (State.setPhase p) : Act State Unit) :=
    .bind (Keeps.onPart hx (fun _ _ => trivial) fun _ _ _ _ => trivial) fun _ => .modify fun _ => id
  hbody.weaken (fun _ _ => trivial) (fun _ => id) fun _ _ h => h.2

/-! ### ENCODE -/

/-- ENCODE's loop raises wherever it stops, when CodeOf does. -/
theorem encodeLoop_neverStuck {t : Tree} {root : Index} (hcode : ∀ i k, StopsIn Stop.IsRaise (codeOf t root i k))
    (k : Nat) (bytes : List Byte) : NeverStuck (encodeLoop t root k bytes) := by
  induction bytes generalizing k with
  | nil => exact .pure ()
  | cons b rest ih =>
    unfold encodeLoop
    split
    · exact .throw ⟨_, rfl⟩
    · exact .bind (hcode _ k).keeps fun code => .get_bind fun c _ =>
        .ite (.throw ⟨_, rfl⟩) (.bind (.modify fun _ => id) fun _ => ih _)

/-- In a finished tree CodeOf gives a code or raises SYMBOL_ABSENT (43_encode.md R164, R173). -/
theorem State.Inv.codeOf_isRaise {s : State} (hs : s.Inv) (hp : s.phase = .built) (i : Fin Config.domainSize) (k : Nat) :
    StopsIn Stop.IsRaise (codeOf s.tree s.root i k) := by
  obtain ⟨hcounted, habsent⟩ := codeOfFindsCountedSymbols s i k hs (.inl hp)
  by_cases hi : s.hist[i] = 0#32
  · exact habsent hi ▸ raiseAt_isRaise _ _
  · obtain ⟨code, hcode, -⟩ := hcounted hi
    exact hcode ▸ .ok

/-! ### DECODE -/

theorem emitSymbol_neverStuck (n : Node) (o : Nat) : NeverStuck (emitSymbol n o) := by
  refine .get_bind fun x _ => .ite (.throw ⟨_, rfl⟩) ?_
  split
  · exact .throw ⟨_, rfl⟩
  · exact .modify fun _ => id

section Decode

variable {t : Tree} {hist : Hist} {c : CodeStream} {o p : Nat}

/-- A child of an internal node of a sound tree stands in a slot of TREE. -/
theorem Tree.Sound.child_slot (hs : t.Sound hist) (hp : t.Internal p) (b : Bool) :
    t.slots[(if b then (t.nodeAt p).right else (t.nodeAt p).left).toNat]? = some (t.child p b) := by
  obtain ⟨-, hl, hr, -⟩ := hs.internal hp
  have hp189 : p < 189 := by
    by_contra hge
    rw [Tree.Internal, Tree.nodeAt_of_le (not_lt.1 hge)] at hp
    cases hp
  cases b
  · exact Tree.slot_eq (hl.trans hp189)
  · exact Tree.slot_eq (hr.trans hp189)

/-- A bit below the end of CODEBUF can be read (43_encode.md R166). -/
theorem CodeStream.exists_readBit (h : o < c.words.length * 32) : ∃ b, c.readBit o = .ok b := by
  have hw : o / Config.wordBits < c.words.length := Nat.div_lt_of_lt_mul (Nat.mul_comm _ _ ▸ h)
  exact ⟨_, CodeStream.readBit_ok.2 (by rw [bitRead, List.getElem?_eq_getElem hw])⟩

variable (hs : t.Sound hist) (hc : c.bitlen.toNat ≤ c.words.length * 32)
include hs hc

/-- The descent from a node of a sound tree reads slots of TREE and bits below BITLEN only. -/
theorem descend_isRaise {left : Nat} (ho : o + left ≤ c.bitlen.toNat) :
    StopsIn Stop.IsRaise (descend t c left o (t.nodeAt p)) := by
  induction left generalizing o p with
  | zero => exact .ite (raiseAt_isRaise _ _) (.ite .ok (raiseAt_isRaise _ _))
  | succ left ih =>
    cases hmal : (t.nodeAt p).isMalformed with
    | true => exact descend_malformed hmal ▸ raiseAt_isRaise _ _
    | false =>
      cases hleaf : (t.nodeAt p).isLeaf with
      | true => exact descend_leaf hleaf ▸ .ok
      | false =>
        obtain ⟨b, hbit⟩ := CodeStream.exists_readBit (c := c) (o := o) (by omega)
        rw [descend_turn hleaf hmal hbit (hs.child_slot hleaf b)]
        exact ih (by omega)

/-- One pass of DECODE's outer loop from a node of a sound tree. -/
theorem nextLeaf_isRaise (ho : o < c.bitlen.toNat) : StopsIn Stop.IsRaise (nextLeaf t c (t.nodeAt p) o) := by
  cases hleaf : (t.nodeAt p).isLeaf with
  | true =>
    obtain ⟨b, hbit⟩ := CodeStream.exists_readBit (c := c) (o := o) (by omega)
    rw [nextLeaf_lone hleaf hbit]
    exact .ite (raiseAt_isRaise _ _) .ok
  | false =>
    rw [nextLeaf_internal hleaf]
    exact descend_isRaise hs hc (by omega)

theorem decodeLoop_neverStuck (fuel o : Nat) : NeverStuck (decodeLoop t c (t.nodeAt p) fuel o) := by
  induction fuel generalizing o with
  | zero => exact .pure ()
  | succ fuel ih =>
    rw [decodeLoop]
    split
    · exact .bind (nextLeaf_isRaise hs hc ‹_›).keeps fun x => .bind (emitSymbol_neverStuck x.1 x.2) fun _ => ih x.2
    · exact .pure ()

/-- DECODE of a sound tree from a root in TREE is never stuck. -/
theorem decodeStream_neverStuck {root : Index} (hroot : root.toNat < 189) (n : Nat) :
    NeverStuck (decodeStream t root c n) := by
  have hrun := decodeStream_run (t := t) (Tree.slot_eq hroot) c n
  exact ⟨fun _ _ => trivial, fun _ hr => (decodeLoop_neverStuck hs hc _ 0).stop trivial (hrun _ ▸ hr)⟩

end Decode

/-! ### The two stream commands in their phases -/

/-- ENCODE's body in BUILT. -/
theorem encodeBody_isRaise : Triple (fun s => s.Inv ∧ s.phase = .built) encodeBody (fun _ => True)
    fun e _ => e.IsRaise :=
  .get_bind_eq fun s ⟨hs, hp⟩ =>
    have hloop := encodeLoop_neverStuck (fun i k => hs.codeOf_isRaise hp i k) 0 s.inbuf
    NeverStuck.thenPhase (.bind (.modify fun _ => id) fun _ => hloop) State.code State.putCode _

/-- DECODE's body in ENCODED: the tree is finished and BITLEN is within CODEBUF. -/
theorem decodeBody_isRaise : Triple (fun s => s.Inv ∧ s.phase = .encoded) decodeBody (fun _ => True)
    fun e _ => e.IsRaise := by
  refine .get_bind_eq fun s ⟨hs, hp⟩ => ?_
  obtain ⟨-, ⟨-, -, -, hbit, -⟩, -, -, -, hbuilt⟩ := hs
  obtain ⟨-, -, -, (hsound : s.tree.Sound s.hist), hsize, hroot, -⟩ := hbuilt (.inr (.inl hp))
  have hD := distinctOf_le s.hist
  have hstream := decodeStream_neverStuck hsound hbit (root := s.root) (by omega) s.inputLen
  exact hstream.thenPhase State.out State.putOut _

/-! ### Every command completes -/

section Answers

variable {i : Instr} {p : Phase} {s : State}

/-- A component command is discarded in ERROR and raises SEQUENCE outside its phase; what it does in its phase is left
to show. -/
theorem exists_next_of_inPhase (hi : requiredPhase i = some p)
    (h : s.phase = p → s.phase ≠ .error → ∃ t, exec i s = .next t) : ∃ t, exec i s = .next t := by
  by_cases he : s.phase = .error
  · exact ⟨s, exec_component_discards hi he⟩
  by_cases hp : s.phase = p
  · exact h hp he
  · exact ⟨_, exec_component_sequence hi hp he⟩

/-- A component command whose body can stop only by a raise has a next state. -/
theorem exists_next_of_body {P : State → Prop} (hi : requiredPhase i = some p)
    (hb : Triple P (componentBody i) (fun _ => True) fun e _ => e.IsRaise) (hs : s.phase = p → P s) :
    ∃ t, exec i s = .next t := by
  refine exists_next_of_inPhase hi fun hp he => ?_
  rw [exec_component hi, component_run hp (hp ▸ he)]
  cases hrun : componentBody i s with
  | ok _ t => exact ⟨t, answer_next.2 (.inl (inStage_ok.2 hrun))⟩
  | error e t =>
    obtain ⟨r, rfl⟩ := hb.stop (hs hp) hrun
    exact ⟨_, answer_next.2 (.inr ⟨r, inStage_raise.2 ⟨t, hrun, rfl⟩⟩)⟩

/-- In a state that meets the invariant every command has a next state. -/
theorem State.Inv.exists_next (hs : s.Inv) (i : Instr) : ∃ t, exec i s = .next t := by
  cases i with
  | nop | init | count | verify => exact ⟨_, rfl⟩
  | heapify => exact exists_next_of_inPhase rfl fun hp _ => (heapifyBuildsTheHeap s hp).imp fun _ h => h.1
  | merge => exact exists_next_of_inPhase rfl fun hp _ => (mergeCompletes s hs hp).imp fun _ h => h.1
  | build => exact exists_next_of_inPhase rfl fun hp _ => (buildFinishesTheTree s hs hp).imp fun _ h => h.1
  | encode => exact exists_next_of_body rfl encodeBody_isRaise fun hp => ⟨hs, hp⟩
  | decode => exact exists_next_of_body rfl decodeBody_isRaise fun hp => ⟨hs, hp⟩
  | run =>
    obtain ⟨⟨hlegal, -⟩, -⟩ := hs
    obtain ⟨h1, hN, hcw⟩ := State.legal_bounds hlegal
    exact (runEndsInThreeWays s h1 hN hcw).imp fun _ h => h.1

/-- The block's turn faults only where a command does. -/
theorem blockTurn_no_fault {f : Fault} (h : ∀ i, ∃ t, exec i s = .next t) : blockTurn s ≠ .fault f := by
  unfold blockTurn
  split
  · split
    · unfold runCommand
      split
      · next i _ =>
        obtain ⟨t, ht⟩ := h i
        rw [ht]
        nofun
      · nofun
    · nofun
  · nofun

/-- No event faults in a state in which every command has a next state. -/
theorem takeEvent_no_fault {e : Event} {f : Fault} (h : ∀ i, ∃ t, exec i s = .next t) : takeEvent e s ≠ .fault f := by
  cases e with
  | access a => exact hostAccess_no_fault
  | block => exact blockTurn_no_fault h
  | resetLow | resetHigh => nofun

end Answers

/-- Settles O60: the earlier results answer for most commands, and in ENCODE and DECODE every stop is a raise; a step
faults only where a command does. -/
theorem everyCommandCompletes : Obligations.EveryCommandCompletes := by
  refine fun s hs => ⟨hs.exists_next, fun f => ?_⟩
  cases he : s.events with
  | nil =>
    rw [step_nil he]
    exact blockTurn_no_fault hs.exists_next
  | cons e rest =>
    have hrest : State.Inv { s with events := rest } := hs
    rw [step_cons he]
    exact takeEvent_no_fault hrest.exists_next

end Sys2Proof.Machine
